-- ==== Sys2Proof/Word.lean ====
section
/-! DEFINITION. The word types of the block: what spec/ treats as bits of a fixed width. -/

namespace Sys2Proof

/-- A 16-bit register or operand slot (10_state.md R20, 30_encoding.md R91). -/
abbrev Word := BitVec 16

/-- A 16-bit 5/6/5 colour (30_encoding.md R96). -/
abbrev Pixel := BitVec 16

/-- A byte of glyph memory, an opcode byte, or an adapter count (20_memory.md R51, R56). -/
abbrev Byte := BitVec 8

/-- The command word (30_encoding.md R90). -/
abbrev CommandWord := BitVec 128

/-- The response word (30_encoding.md R94). -/
abbrev ResponseWord := BitVec 48

end Sys2Proof
end

