-- ==== Sys2Proof/Syntax.lean ====
section
/-! DEFINITION. The 14 commands of the opcode map (30_encoding.md R95), one constructor for each row of
spec/opcode_table.json. Every operand is the raw 16-bit slot: no operand is scaled or shifted on decode (R92). -/

namespace Sys2Proof

/-- A command with its operand slots, in slot order `f0`, `f1`, … (30_encoding.md R95). -/
inductive Instr where
  /-- NOP, 45_control.md R240. -/
  | nop
  /-- SQRT `n` (N12), 40_compositor.md R122. -/
  | sqrt (n : Word)
  /-- MULCH `p`, `a` (CH6), 40_compositor.md R123. -/
  | mulch (p a : Word)
  /-- MULPX `px` (PIX), `alpha` (ALPHA), 40_compositor.md R126. -/
  | mulpx (px : Pixel) (alpha : Word)
  /-- BLENDCH `f`, `b`, `a` (CH6), 40_compositor.md R128. -/
  | blendch (f b a : Word)
  /-- BLENDPX `fg`, `bg` (PIX), `alpha` (ALPHA), 40_compositor.md R130. -/
  | blendpx (fg bg : Pixel) (alpha : Word)
  /-- UNITVEC `angle` (U16), 43_sine_table.md R205. -/
  | unitvec (angle : Word)
  /-- SETFG `colour` (PIX), 45_control.md R241. -/
  | setfg (colour : Pixel)
  /-- SETBG `colour` (PIX), 45_control.md R242. -/
  | setbg (colour : Pixel)
  /-- FILL `x`, `y`, `w`, `h` (U16), `colour` (PIX), 41_line_rasterizer.md R150. -/
  | fill (x y w h : Word) (colour : Pixel)
  /-- LINE `x0`, `y0` (U16), `dx`, `dy` (S16), `minExtent`, `maxExtent` (U16), 41_line_rasterizer.md R160. -/
  | line (x0 y0 dx dy minExtent maxExtent : Word)
  /-- RING `cx`, `cy`, `ri` (outerMinusThickness), `ro` (outerRadius) (U16), 42_ring_rasterizer.md R180. -/
  | ring (cx cy ri ro : Word)
  /-- GLYPH `x`, `y`, `addr` (U16), 44_glyph_decoder.md R220. -/
  | glyph (x y addr : Word)
  /-- PAIR `x`, `y` (U16), `dir` (DIR), `alpha` (ALPHA), 41_line_rasterizer.md R155. -/
  | pair (x y dir alpha : Word)
deriving DecidableEq, Repr

end Sys2Proof
end

