-- ==== Sys2Proof/Decode.lean ====
section
/-! DEFINITION. The command word (30_encoding.md R91): its fields, the opcode map (R95), the decoder, total on all
2^128 words and rejecting by name (R93, R100), and after it the encoder written from the same map. -/

namespace Sys2Proof

/-- Why a word is not a command: the first two checks of 30_encoding.md R93, in that order. -/
inductive DecodeError where
  /-- `op` is not one of the 14 opcodes (R100). -/
  | illegalOpcode
  /-- `rsv` or an unused slot is not zero (R100). -/
  | reservedNonzero
deriving DecidableEq, Repr

/-- Bits 127:120, `op` (30_encoding.md R91). -/
def opByte (w : CommandWord) : Byte := w.extractLsb' 120 8

/-- Bits 119:96, `rsv` (30_encoding.md R91). -/
def rsvBits (w : CommandWord) : BitVec 24 := w.extractLsb' 96 24

/-- Slot `f<j>`, bits `95 - 16 j` down to `80 - 16 j`, for `j` from 0 to 5 (30_encoding.md R91). -/
def slot (w : CommandWord) (j : Nat) : Word := w.extractLsb' (80 - 16 * j) 16

/-- A command with `k` operands uses slots `f0` to `f(k-1)`; `rsv` and the other slots must be zero
(30_encoding.md R91). -/
def reservedZero (w : CommandWord) (k : Nat) : Bool :=
  rsvBits w == 0#24 && ([0, 1, 2, 3, 4, 5].drop k).all fun j => slot w j == 0#16

/-- The second check of 30_encoding.md R93, for a command with `k` operands. -/
def checkReserved (w : CommandWord) (k : Nat) (i : Instr) : Except DecodeError Instr :=
  if reservedZero w k then .ok i else .error .reservedNonzero

/-- The decoder (30_encoding.md R93, R95): the row is selected by `op` alone (R100), then the reserved bits are
checked. The third check of R93, the operands' ranges, is the first thing the meaning of a command with a ranged
operand does (log entry 12). -/
def decode (w : CommandWord) : Except DecodeError Instr :=
  match (opByte w).toNat with
  | 0x00 => checkReserved w 0 .nop
  | 0x01 => checkReserved w 1 (.sqrt (slot w 0))
  | 0x02 => checkReserved w 2 (.mulch (slot w 0) (slot w 1))
  | 0x03 => checkReserved w 2 (.mulpx (slot w 0) (slot w 1))
  | 0x04 => checkReserved w 3 (.blendch (slot w 0) (slot w 1) (slot w 2))
  | 0x05 => checkReserved w 3 (.blendpx (slot w 0) (slot w 1) (slot w 2))
  | 0x08 => checkReserved w 1 (.unitvec (slot w 0))
  | 0x10 => checkReserved w 1 (.setfg (slot w 0))
  | 0x11 => checkReserved w 1 (.setbg (slot w 0))
  | 0x20 => checkReserved w 5 (.fill (slot w 0) (slot w 1) (slot w 2) (slot w 3) (slot w 4))
  | 0x21 => checkReserved w 6 (.line (slot w 0) (slot w 1) (slot w 2) (slot w 3) (slot w 4) (slot w 5))
  | 0x22 => checkReserved w 4 (.ring (slot w 0) (slot w 1) (slot w 2) (slot w 3))
  | 0x23 => checkReserved w 3 (.glyph (slot w 0) (slot w 1) (slot w 2))
  | 0x24 => checkReserved w 4 (.pair (slot w 0) (slot w 1) (slot w 2) (slot w 3))
  | _ => .error .illegalOpcode

/-- The opcode byte of a command (30_encoding.md R95). -/
def Instr.opcode : Instr → Byte
  | .nop => 0x00
  | .sqrt _ => 0x01
  | .mulch _ _ => 0x02
  | .mulpx _ _ => 0x03
  | .blendch _ _ _ => 0x04
  | .blendpx _ _ _ => 0x05
  | .unitvec _ => 0x08
  | .setfg _ => 0x10
  | .setbg _ => 0x11
  | .fill _ _ _ _ _ => 0x20
  | .line _ _ _ _ _ _ => 0x21
  | .ring _ _ _ _ => 0x22
  | .glyph _ _ _ => 0x23
  | .pair _ _ _ _ => 0x24

/-- A command word from its fields, the bits of `rsv` zero (30_encoding.md R91). -/
def packWord (op : Byte) (f0 f1 f2 f3 f4 f5 : Word) : CommandWord :=
  op ++ 0#24 ++ f0 ++ f1 ++ f2 ++ f3 ++ f4 ++ f5

/-- The encoder (30_encoding.md R91, R95): operands in slot order, unused slots zero. -/
def encode (i : Instr) : CommandWord :=
  match i with
  | .nop => packWord i.opcode 0 0 0 0 0 0
  | .sqrt n => packWord i.opcode n 0 0 0 0 0
  | .mulch p a => packWord i.opcode p a 0 0 0 0
  | .mulpx px alpha => packWord i.opcode px alpha 0 0 0 0
  | .blendch f b a => packWord i.opcode f b a 0 0 0
  | .blendpx fg bg alpha => packWord i.opcode fg bg alpha 0 0 0
  | .unitvec angle => packWord i.opcode angle 0 0 0 0 0
  | .setfg colour => packWord i.opcode colour 0 0 0 0 0
  | .setbg colour => packWord i.opcode colour 0 0 0 0 0
  | .fill x y w h colour => packWord i.opcode x y w h colour 0
  | .line x0 y0 dx dy minE maxE => packWord i.opcode x0 y0 dx dy minE maxE
  | .ring cx cy ri ro => packWord i.opcode cx cy ri ro 0 0
  | .glyph x y addr => packWord i.opcode x y addr 0 0 0
  | .pair x y dir alpha => packWord i.opcode x y dir alpha 0 0

/-- A row of spec/opcode_table.json: `w &&& mask = pat` holds exactly for the well-formed words of the row's command
(30_encoding.md R100). -/
structure TableRow where
  /-- The row's `opcode`. -/
  op : Byte
  /-- The row's `match`. -/
  pat : CommandWord
  /-- The row's `mask`: `op`, `rsv` and the unused slots. -/
  mask : CommandWord
deriving DecidableEq, Repr

/-- The 14 rows of spec/opcode_table.json, in its order, `match` and `mask` digit for digit. -/
def opcodeTable : List TableRow := [
  ⟨0x00, 0x00000000000000000000000000000000, 0xFFFFFFFFFFFFFFFFFFFFFFFFFFFFFFFF⟩,
  ⟨0x01, 0x01000000000000000000000000000000, 0xFFFFFFFF0000FFFFFFFFFFFFFFFFFFFF⟩,
  ⟨0x02, 0x02000000000000000000000000000000, 0xFFFFFFFF00000000FFFFFFFFFFFFFFFF⟩,
  ⟨0x03, 0x03000000000000000000000000000000, 0xFFFFFFFF00000000FFFFFFFFFFFFFFFF⟩,
  ⟨0x04, 0x04000000000000000000000000000000, 0xFFFFFFFF000000000000FFFFFFFFFFFF⟩,
  ⟨0x05, 0x05000000000000000000000000000000, 0xFFFFFFFF000000000000FFFFFFFFFFFF⟩,
  ⟨0x08, 0x08000000000000000000000000000000, 0xFFFFFFFF0000FFFFFFFFFFFFFFFFFFFF⟩,
  ⟨0x10, 0x10000000000000000000000000000000, 0xFFFFFFFF0000FFFFFFFFFFFFFFFFFFFF⟩,
  ⟨0x11, 0x11000000000000000000000000000000, 0xFFFFFFFF0000FFFFFFFFFFFFFFFFFFFF⟩,
  ⟨0x20, 0x20000000000000000000000000000000, 0xFFFFFFFF00000000000000000000FFFF⟩,
  ⟨0x21, 0x21000000000000000000000000000000, 0xFFFFFFFF000000000000000000000000⟩,
  ⟨0x22, 0x22000000000000000000000000000000, 0xFFFFFFFF0000000000000000FFFFFFFF⟩,
  ⟨0x23, 0x23000000000000000000000000000000, 0xFFFFFFFF000000000000FFFFFFFFFFFF⟩,
  ⟨0x24, 0x24000000000000000000000000000000, 0xFFFFFFFF0000000000000000FFFFFFFF⟩]

/-- The pseudo-instruction `PIXEL x, y, c` (30_encoding.md R103). -/
def pseudoPixel (x y : Word) (c : Pixel) : List Instr := [.fill x y 1 1 c]

/-- The pseudo-instruction `COLORS fg, bg` (30_encoding.md R103). -/
def pseudoColors (fg bg : Pixel) : List Instr := [.setfg fg, .setbg bg]

/-- The pseudo-instruction `CLEAR c` on a display of the given size; it exists only when both sides are at most 65535
(30_encoding.md R103). -/
def pseudoClear (dispW dispH : Nat) (c : Pixel) : Option (List Instr) :=
  if dispW ≤ 65535 ∧ dispH ≤ 65535 then
    some [.fill 0 0 (BitVec.ofNat 16 dispW) (BitVec.ofNat 16 dispH) c]
  else none

/-- The instruction the decoder reads from an instruction whose bits are `w`, bit 0 the least significant; the bits from
`nbits` up are zero. A command is one 128-bit word carried as a single value (20_memory.md R65 c). -/
def decodeTableWord (nbits w : Nat) : Option Instr :=
  match decode (BitVec.ofNat 128 (w % 2 ^ nbits)) with
  | .ok i => some i
  | .error _ => none

end Sys2Proof
end

