-- ==== Sys2Proof/Config.lean ====
section
/-! DEFINITION. The parameters the spec leaves open (00_scope.md R7): the display's size, the glyph memory, the sine
table (which has a default, 43_sine_table.md R202) and the frame memory's contents at reset. -/

namespace Sys2Proof

/-- The parameters of one block with its surroundings (00_scope.md R7). They stand in `State.cfg`, so that every
statement about a state speaks of every choice of them; no step changes them (log entry 1). -/
structure Config where
  /-- `DISP_W`, the display's width in pixels (00_scope.md R7). -/
  dispW : Nat
  /-- `DISP_H`, the display's height in pixels (00_scope.md R7). -/
  dispH : Nat
  /-- `GMEM`, the read-only glyph memory, byte `a` at place `a`; its length is `GMEM_SIZE` (20_memory.md R51). -/
  gmem : List Byte
  /-- `SINE_TABLE` (43_sine_table.md R201). -/
  sine : Vector Byte 70
deriving DecidableEq, Repr

/-- `GMEM_SIZE` (20_memory.md R51). -/
def Config.gmemSize (c : Config) : Nat := c.gmem.length

/-- The bounds the spec puts on its parameters: display sides from 1 to 65536, glyph memory of at most 65536 bytes
(00_scope.md R7). -/
abbrev Config.wf (c : Config) : Prop :=
  1 ≤ c.dispW ∧ c.dispW ≤ 65536 ∧ 1 ≤ c.dispH ∧ c.dispH ≤ 65536 ∧ c.gmemSize ≤ 65536

/-- What a model may rely on of the sine table besides its 70 entries of 8 bits (43_sine_table.md R202): entry 0 is 0
and the entries never fall, so that entry 69 is the largest. -/
abbrev Config.sineWf (c : Config) : Prop :=
  c.sine[0] = 0#8 ∧ ∀ i : Fin 69, c.sine[i.val].toNat ≤ c.sine[i.val + 1].toNat

/-- The default `SINE_TABLE` of 43_sine_table.md R202, index 0 first, ten a line as the spec prints it. -/
def Config.defaultSine : Vector Byte 70 := #v[
    0,   6,  11,  17,  22,  28,  33,  39,  44,  50,
   55,  61,  66,  72,  77,  82,  88,  93,  98, 103,
  108, 113, 118, 123, 128, 133, 138, 142, 147, 151,
  156, 160, 165, 169, 173, 177, 181, 185, 189, 192,
  196, 200, 203, 206, 210, 213, 216, 219, 222, 224,
  227, 230, 232, 234, 237, 239, 241, 242, 244, 246,
  247, 249, 250, 251, 252, 253, 254, 254, 255, 255]

/-- `DISP_W - 1` of this block: OPEN, from 0 to 65535 (92_eei_decisions.md D13). -/
opaque Config.openLastColumn : Fin 65536

/-- `DISP_H - 1` of this block: OPEN, from 0 to 65535 (92_eei_decisions.md D13). -/
opaque Config.openLastRow : Fin 65536

/-- `GMEM_SIZE` of this block: OPEN, at most 65536 (92_eei_decisions.md D25). -/
opaque Config.openGmemSize : Fin 65537

/-- The byte of this block's glyph memory at each address below `GMEM_SIZE`: OPEN (92_eei_decisions.md D25). -/
opaque Config.openGmemByte : Nat → Byte

/-- `FB0`: the pixel the frame memory holds at `(x, y)` before anything is painted there: OPEN, an arbitrary value for
every position (70_reset_and_hazards.md R281, 92_eei_decisions.md D28). -/
opaque Config.fb0 : (x y : Nat) → Pixel

/-- The parameters of this block: the open ones opaque, the sine table at its default (00_scope.md R7). -/
def Config.chip : Config where
  dispW := Config.openLastColumn.val + 1
  dispH := Config.openLastRow.val + 1
  gmem := (List.range Config.openGmemSize.val).map Config.openGmemByte
  sine := Config.defaultSine

end Sys2Proof
end

