-- ==== Sys2Proof/Machine/State.lean ====
section
/-! DEFINITION. The whole state of the block and of the world it writes into (10_state.md R20, R29, R30), as plain data,
and the state after reset. -/

namespace Sys2Proof.Machine

/-- The causes of a fault (60_exceptions.md R251). -/
inductive Cause where
  /-- Code 1: `op` is not one of the 14 opcodes. Raised by decode. -/
  | illegalOpcode
  /-- Code 2: `rsv` or an unused slot is not zero. Raised by decode. -/
  | reservedNonzero
  /-- Code 3: an `N12`, `CH6` or `DIR` slot is out of range. Raised by SQRT, MULCH, BLENDCH, PAIR before anything else. -/
  | operandRange
  /-- Code 4: a Region is inverted or not inside the display. Raised by `OpenRegion`. -/
  | regionRange
  /-- Code 5: a token is longer than the pixels left. Raised by GLYPH. -/
  | glyphOverrun
  /-- Code 6: a terminator with pixels left. Raised by GLYPH. -/
  | glyphUnderrun
  /-- Code 7: a read at or beyond `GMEM_SIZE`. Raised by GLYPH. -/
  | glyphMemRange
  /-- Code 8: a glyph of zero width or height. Raised by GLYPH. -/
  | glyphHeader
deriving DecidableEq, Repr

/-- A call of one of the five primitives of the Display Protocol Adapter (20_memory.md R52). -/
inductive DpaCall where
  /-- `beginRegion(x0, y0, x1, y1)`, R54. -/
  | beginRegion (x0 y0 x1 y1 : Nat)
  /-- `writeDataWord(v)`, R55. -/
  | writeDataWord (v : Pixel)
  /-- `repeatDataWord(v, count)`, count 0 meaning 256, R56. -/
  | repeatDataWord (v : Pixel) (count : Byte)
  /-- `sendCommand(opcode, argBytes...)`, in the interface but never called by the block, R58. -/
  | sendCommand (opcode : Byte) (args : List Byte)
  /-- `idle()`, R57. -/
  | idle
deriving DecidableEq, Repr

/-- The adapter's bus state (20_memory.md R53). -/
inductive Bus where
  /-- No Region is open. -/
  | idle
  /-- A Region with inclusive bounds and a cursor inside it. -/
  | active (x0 y0 x1 y1 cx cy : Nat)
deriving DecidableEq, Repr

/-- The frame memory `FB` (20_memory.md R50): the pixels painted since power-on, as (key, pixel) entries with strictly
rising keys; the key of `(x, y)` is `y * 65536 + x` (log entry 4). A pixel that is not listed has no known value: it
still holds the unspecified `FB0` (70_reset_and_hazards.md R281, log entry 3). -/
abbrev Memory := List (Nat × Pixel)

/-- The canonical form: strictly rising keys. An unlisted key reads as no value, so no entry can repeat that. -/
abbrev Memory.wf (m : Memory) : Prop := m.Pairwise fun a b => a.1 < b.1

/-- The world the block writes into: the adapter's bus state and the display's frame memory (10_state.md R20). -/
structure Screen where
  /-- The adapter's bus state (20_memory.md R53). -/
  bus : Bus
  /-- The frame memory `FB` (20_memory.md R50). -/
  fb : Memory
deriving DecidableEq, Repr

/-- What the host may present to the block: the `CMD` and `RESET` interfaces (60_exceptions.md R262). -/
inductive HostInput where
  /-- One command word on `CMD`. -/
  | command (w : CommandWord)
  /-- `RESET` asserted, between two commands (log entry 9). -/
  | reset
deriving DecidableEq, Repr

/-- The block, the world it writes into, the parameters it reads, and its interfaces as data. -/
structure State where
  /-- `FG`, the foreground colour (10_state.md R26). -/
  fg : Pixel
  /-- `BG`, the background colour (10_state.md R26). -/
  bg : Pixel
  /-- `RES0`, result register 0 (10_state.md R22). -/
  res0 : Word
  /-- `RES1`, result register 1 (10_state.md R23). -/
  res1 : Word
  /-- `STATUS`: `FOP` 15:8, `CAUSE` 7:4, reserved 3:1, `FAULT` 0 (10_state.md R27). -/
  status : Word
  /-- The adapter's bus state and the frame memory (10_state.md R20, R29). -/
  screen : Screen
  /-- The parameters, `GMEM` among them (00_scope.md R7); no step changes them (log entry 1). -/
  cfg : Config
  /-- The model's own: what the host will present, oldest first (60_exceptions.md R262, log entry 6). -/
  inbox : List HostInput
  /-- The model's own: the adapter calls of the last input taken, in order (20_memory.md R52, R71, log entry 8). -/
  trace : List DpaCall
  /-- The model's own: the response to the last input taken (30_encoding.md R94, log entry 8). -/
  rsp : Option ResponseWord
deriving DecidableEq, Repr

/-- Why the model stops with a fault: never. Every exceptional event of the block is the architectural fault of
60_exceptions.md R250 to R256, which every meaning takes as a next state; nobody raises a `Fault`, and having none is
safe (log entry 13). -/
inductive Fault where
deriving DecidableEq, Repr

/-- Why the model refuses an instruction. -/
inductive Refusal where
  /-- Raised by an arm of `exec` that has no meaning yet; no arm raises it now. Safe: nothing can be proved of a refused
  instruction's effect. -/
  | notModelled (mnemonic : String)
deriving DecidableEq, Repr

/-- The state right after power-on reset (10_state.md R30, 70_reset_and_hazards.md R280, R281): the five registers at
their reset values, the bus `Idle` after the one `idle()` that reset makes, the frame memory unknown everywhere, the
parameters of the block, nothing presented by the host and no response given. -/
def State.reset : State where
  fg := 0xFFFF#16
  bg := 0x0000#16
  res0 := 0x0000#16
  res1 := 0x0000#16
  status := 0x0000#16
  screen := { bus := .idle, fb := [] }
  cfg := Config.chip
  inbox := []
  trace := [.idle]
  rsp := none

end Sys2Proof.Machine
end

