-- ==== Sys2Proof/Machine/Flags.lean ====
section
/-! DEFINITION. The one flag, `STATUS.FAULT`, and the fields of `STATUS` (10_state.md R25, R27; 60_exceptions.md R251,
R252). No operation sets a carry, zero, sign or overflow flag (R25). -/

namespace Sys2Proof.Machine

/-- The code of a cause, the value of `STATUS.CAUSE` (60_exceptions.md R251). -/
def Cause.code : Cause → BitVec 4
  | .illegalOpcode => 1
  | .reservedNonzero => 2
  | .operandRange => 3
  | .regionRange => 4
  | .glyphOverrun => 5
  | .glyphUnderrun => 6
  | .glyphMemRange => 7
  | .glyphHeader => 8

/-- `{op, c[3:0], 0b000, 0b1}`: the value fault entry gives `STATUS` (60_exceptions.md R252). -/
def faultStatus (op : Byte) (c : Cause) : Word := op ++ c.code ++ 0#3 ++ 1#1

/-- `STATUS.FAULT`, bit 0 (10_state.md R27). -/
def statusFault (v : Word) : Bool := v.getLsbD 0

/-- `STATUS[3:1]`, reserved (10_state.md R27). -/
def statusReserved (v : Word) : BitVec 3 := v.extractLsb' 1 3

/-- `STATUS.CAUSE`, bits 7:4 (10_state.md R27). -/
def statusCause (v : Word) : BitVec 4 := v.extractLsb' 4 4

/-- `STATUS.FOP`, bits 15:8 (10_state.md R27). -/
def statusFop (v : Word) : Byte := v.extractLsb' 8 8

/-- The block is halted (60_exceptions.md R253). -/
def State.halted (s : State) : Bool := statusFault s.status

end Sys2Proof.Machine
end

