-- ==== Sys2Proof/Machine/Operands.lean ====
section
/-! DEFINITION. The operand kinds of 30_encoding.md R92 and the result conversion `to16` of 00_scope.md R8. -/

namespace Sys2Proof.Machine

/-- `zext_16`, for the kinds `U16` and `ALPHA` (00_scope.md R8, 30_encoding.md R92): the slot as an unsigned number. An
`ALPHA` is compared, not masked, so every value of 63 or more is `FULL` (R97). -/
def zext16 (v : Word) : Nat := v.toNat

/-- `sext_16`, for the kind `S16` (00_scope.md R8): the slot as a two's complement number. -/
def sext16 (v : Word) : Int := v.toInt

/-- `to16(n) = n mod 65536` (00_scope.md R8). -/
def to16 (n : Int) : Word := BitVec.ofInt 16 n

/-- The range of the kind `N12` (30_encoding.md R92). -/
def inN12 (v : Word) : Bool := v.toNat ≤ 4095

/-- The range of the kind `CH6` (30_encoding.md R92). -/
def inCH6 (v : Word) : Bool := v.toNat ≤ 63

/-- The range of the kind `DIR` (30_encoding.md R92). -/
def inDIR (v : Word) : Bool := v.toNat ≤ 3

end Sys2Proof.Machine
end

