-- ==== Sys2Proof/Machine/Ops.lean ====
section
/-! DEFINITION. The shared operations: the frame memory, the adapter's primitives and what a trace means (20_memory.md),
glyph memory reads, the building of a command's trace, fault entry (60_exceptions.md R252), the response
(30_encoding.md R94), reset (70_reset_and_hazards.md R280), and how the block takes what the host presents (R70, R253). -/

namespace Sys2Proof.Machine

/-! ### Frame memory -/

/-- The key of the pixel `(x, y)`, for `x` below 65536 (20_memory.md R50, log entry 4). -/
def pixelKey (x y : Nat) : Nat := y * 65536 + x

/-- The pixel painted at a key, or none where nothing has been painted since power-on. -/
def Memory.read : Memory → Nat → Option Pixel
  | [], _ => none
  | (k', v) :: m, k => if k = k' then some v else Memory.read m k

/-- `FB[k] <- v`, keeping the keys strictly rising (20_memory.md R55). -/
def Memory.write : Memory → Nat → Pixel → Memory
  | [], k, v => [(k, v)]
  | (k', v') :: m, k, v =>
    if k < k' then (k, v) :: (k', v') :: m
    else if k = k' then (k, v) :: m
    else (k', v') :: Memory.write m k v

/-- What has been painted at `(x, y)`, if anything (20_memory.md R50). -/
def State.pixel (s : State) (x y : Nat) : Option Pixel := s.screen.fb.read (pixelKey x y)

/-- What the display holds at `(x, y)`: the last pixel painted there, or the unspecified `FB0`
(70_reset_and_hazards.md R281). -/
def State.shown (s : State) (x y : Nat) : Pixel := (s.pixel x y).getD (Config.fb0 x y)

/-! ### The Display Protocol Adapter -/

/-- The cursor after one data word: row-major, wrapping to the Region's first pixel (20_memory.md R55). -/
def nextCursor (x0 y0 x1 y1 cx cy : Nat) : Nat × Nat :=
  if cx + 1 ≤ x1 then (cx + 1, cy)
  else if cy + 1 ≤ y1 then (x0, cy + 1)
  else (x0, y0)

/-- `writeDataWord(v)` (20_memory.md R55). The frame memory is written only inside an open Region (R50), so a word
handed over while the bus is `Idle` changes nothing; the block never does it (log entry 11). -/
def Screen.writeWord (v : Pixel) (d : Screen) : Screen :=
  match d.bus with
  | .idle => d
  | .active x0 y0 x1 y1 cx cy =>
    let c := nextCursor x0 y0 x1 y1 cx cy
    { bus := .active x0 y0 x1 y1 c.1 c.2, fb := d.fb.write (pixelKey cx cy) v }

/-- `n` successive `writeDataWord(v)` (20_memory.md R56). -/
def Screen.writeWords (v : Pixel) : Nat → Screen → Screen
  | 0, d => d
  | n + 1, d => Screen.writeWords v n (d.writeWord v)

/-- How many words `repeatDataWord` writes: count 0 means 256 (20_memory.md R56). -/
def repeatLength (count : Byte) : Nat := if count = 0#8 then 256 else count.toNat

/-- A Region that is not inverted and lies inside the display (20_memory.md R54, R60). -/
abbrev regionOnDisplay (c : Config) (x0 y0 x1 y1 : Int) : Prop :=
  0 ≤ x0 ∧ x0 ≤ x1 ∧ x1 < c.dispW ∧ 0 ≤ y0 ∧ y0 ≤ y1 ∧ y1 < c.dispH

/-- The effect of one adapter call on the bus state and the frame memory (20_memory.md R54 to R57). `beginRegion` with
other arguments than R54 admits, and `sendCommand` (R58), are never called and given no effect (log entry 11). -/
def applyCall (c : Config) (d : Screen) : DpaCall → Screen
  | .beginRegion x0 y0 x1 y1 =>
    if regionOnDisplay c x0 y0 x1 y1 then { d with bus := .active x0 y0 x1 y1 x0 y0 } else d
  | .writeDataWord v => d.writeWord v
  | .repeatDataWord v count => d.writeWords v (repeatLength count)
  | .sendCommand _ _ => d
  | .idle => { d with bus := .idle }

/-- Applying a trace, call by call, to a frame memory and a bus state (20_memory.md R61). -/
def applyTrace (c : Config) (d : Screen) (calls : List DpaCall) : Screen := calls.foldl (applyCall c) d

/-! ### Building a command's trace -/

/-- What a paint command, or a part of one, has done: the adapter calls made, in order, and the cause of the fault
raised, after which nothing more is done (00_scope.md R10, 60_exceptions.md R255). -/
structure Paint where
  /-- The adapter calls made so far, in order. -/
  calls : List DpaCall
  /-- The fault raised, if one was. -/
  cause : Option Cause
deriving DecidableEq, Repr

/-- Nothing done. -/
def Paint.nothing : Paint := { calls := [], cause := none }

/-- The given adapter calls, in order. -/
def Paint.emit (calls : List DpaCall) : Paint := { calls := calls, cause := none }

/-- `idle(); raise c`: the `idle()` is made before every `raise` of a paint command (44_glyph_decoder.md R222). -/
def Paint.raise (c : Cause) : Paint := { calls := [.idle], cause := some c }

/-- First `p`, then `q` unless `p` raised a fault: a `raise` stops the command at once (00_scope.md R10). -/
def Paint.andThen (p : Paint) (q : Unit → Paint) : Paint :=
  match p.cause with
  | some _ => p
  | none => { calls := p.calls ++ (q ()).calls, cause := (q ()).cause }

/-- `for x in xs: f x`. -/
def Paint.forEach {α : Type} (f : α → Paint) : List α → Paint
  | [] => Paint.nothing
  | x :: xs => (f x).andThen fun _ => Paint.forEach f xs

/-- `if not painted: idle()` (41_line_rasterizer.md R162, 42_ring_rasterizer.md R183). Every pair and every span makes an
adapter call, so nothing was painted exactly when no call was made (log entry 10). -/
def Paint.orIdle (p : Paint) : Paint :=
  match p.calls, p.cause with
  | [], none => Paint.emit [.idle]
  | _, _ => p

/-- The helper `Stream(v, n)` (20_memory.md R59). -/
def stream (v : Pixel) (n : Nat) : List DpaCall :=
  List.replicate (n / 256) (.repeatDataWord v 0)
    ++ (if n % 256 ≠ 0 then [.repeatDataWord v (BitVec.ofNat 8 (n % 256))] else [])

/-- The helper `OpenRegion(xa, ya, xb, yb)` on integers that may be negative or large (20_memory.md R60). -/
def openRegion (c : Config) (xa ya xb yb : Int) : Paint :=
  if regionOnDisplay c xa ya xb yb then
    Paint.emit [.beginRegion xa.toNat ya.toNat xb.toNat yb.toNat]
  else Paint.raise .regionRange

/-! ### Glyph memory -/

/-- `MemRead(a, 1)` (20_memory.md R62); none where it raises `GlyphMemRange` (R64). Addresses do not wrap. -/
def memRead (c : Config) (a : Nat) : Option Byte := c.gmem[a]?

/-- `MemRead16(a)`: two bytes, the low byte first (20_memory.md R63). -/
def memRead16 (c : Config) (a : Nat) : Option Nat :=
  match memRead c a, memRead c (a + 1) with
  | some lo, some hi => some (lo.toNat ||| (hi.toNat <<< 8))
  | _, _ => none

/-! ### Fault entry, response, and the end of a command -/

/-- Fault entry (60_exceptions.md R252): `STATUS` is written and nothing else. It saves no state and goes nowhere. -/
def State.enterFault (op : Byte) (c : Cause) (s : State) : State := { s with status := faultStatus op c }

/-- `RSP = {STATUS, RES1, RES0}` (30_encoding.md R94). -/
def State.responseWord (s : State) : ResponseWord := s.status ++ s.res1 ++ s.res0

/-- The response of an accepted command word, from the registers after the command (30_encoding.md R94). -/
def State.respond (s : State) : State := { s with rsp := some s.responseWord }

/-- The command's trace: its adapter calls are applied to the screen in order (20_memory.md R61, R71). -/
def State.withTrace (calls : List DpaCall) (s : State) : State :=
  { s with screen := applyTrace s.cfg s.screen calls, trace := calls }

/-- The end of a command that makes no adapter call (40_compositor.md R120): empty trace, then its response. -/
def State.finish (s : State) : State := (s.withTrace []).respond

/-- The end of a command that raised `c` before any adapter call: the decode faults, causes 1 to 3
(30_encoding.md R93, 60_exceptions.md R255). -/
def State.decodeFault (op : Byte) (c : Cause) (s : State) : State := (s.enterFault op c).finish

/-- The end of a paint command: its calls are made, then fault entry if a fault was raised, then the response
(60_exceptions.md R252, R255). -/
def State.finishPaint (op : Byte) (p : Paint) (s : State) : State :=
  match p.cause with
  | none => (s.withTrace p.calls).respond
  | some c => ((s.withTrace p.calls).enterFault op c).respond

/-! ### What the host presents -/

/-- Reset (70_reset_and_hazards.md R280): the registers take their reset values and `idle()` is called once; the frame
memory and the glyph memory are untouched (R281). It is no command, so it gives no response (log entry 9). -/
def State.resetBlock (s : State) : State :=
  ({ s with fg := 0xFFFF#16, bg := 0x0000#16, res0 := 0x0000#16, res1 := 0x0000#16, status := 0x0000#16,
            rsp := none }).withTrace [.idle]

/-- The cause a word the decoder rejects raises (30_encoding.md R93). -/
def causeOf : DecodeError → Cause
  | .illegalOpcode => .illegalOpcode
  | .reservedNonzero => .reservedNonzero

/-- What the block does with a command word before executing it: a halted block discards it undecoded and answers with
the frozen registers (60_exceptions.md R253); a word that does not decode faults (30_encoding.md R93); any other is to
be executed. Left: the state after the word. Right: the command to execute, and the state to execute it in. -/
def State.acceptWord (w : CommandWord) (s : State) : State ⊕ (Instr × State) :=
  if s.halted then .inl s.finish
  else
    match decode w with
    | .error e => .inl (s.decodeFault (opByte w) (causeOf e))
    | .ok i => .inr (i, s)

/-- The block takes the oldest input the host presents (20_memory.md R70); with none presented it waits unchanged
(log entry 7). -/
def State.takeInput (s : State) : State ⊕ (Instr × State) :=
  match s.inbox with
  | [] => .inl s
  | .reset :: rest => .inl ({ s with inbox := rest }).resetBlock
  | .command w :: rest => ({ s with inbox := rest }).acceptWord w

end Sys2Proof.Machine
end

