-- ==== Sys2Proof/Machine/Compositor.lean ====
section
/-! DEFINITION. The compositor unit (40_compositor.md): the functions `isqrt6`, `mulch`, `scale`, `mulpx`, `blendch`,
`blendpx`, which the rasterizers and the glyph decoder call too, and the meanings of SQRT, MULCH, MULPX, BLENDCH and
BLENDPX. All arithmetic is on unbounded natural numbers (00_scope.md R9, 40_compositor.md R132). -/

namespace Sys2Proof.Machine

/-- The high-to-low binary search of 40_compositor.md R122 over the bits `k - 1` to 0: each bit is kept exactly when the
candidate's square does not exceed `n`. -/
def isqrtFrom : (k n r : Nat) → Nat
  | 0, _, r => r
  | k + 1, n, r =>
    let c := r ||| 2 ^ k
    isqrtFrom k n (if c * c ≤ n then c else r)

/-- `isqrt6(n)`, for `n` from 0 to 4095: the bits 32, 16, 8, 4, 2, 1 (40_compositor.md R122). -/
def isqrt6 (n : Nat) : Nat := isqrtFrom 6 n 0

/-- `mulch(p, a) = ((p * p) div 4) * a` (40_compositor.md R123). -/
def mulch (p a : Nat) : Nat := p * p / 4 * a

/-- `scale(c, a) = isqrt6(mulch(c, a) >> 4)` (40_compositor.md R124). -/
def scale (c a : Nat) : Nat := isqrt6 (mulch c a >>> 4)

/-- The red lane, twice `px[15:11]` (40_compositor.md R121). -/
def expR (px : Pixel) : Nat := (px.toNat >>> 10) &&& 0x3E

/-- The green lane, `px[10:5]` (40_compositor.md R121). -/
def expG (px : Pixel) : Nat := (px.toNat >>> 5) &&& 0x3F

/-- The blue lane, twice `px[4:0]` (40_compositor.md R121). -/
def expB (px : Pixel) : Nat := (px.toNat &&& 0x1F) <<< 1

/-- Three 6-bit lanes packed to a pixel; red and blue lose their low bit (40_compositor.md R121). -/
def pack (r g b : Nat) : Pixel := BitVec.ofNat 16 (((r >>> 1) <<< 11) ||| (g <<< 5) ||| (b >>> 1))

/-- `mulpx(px, alpha)` (40_compositor.md R126). -/
def mulpx (px : Pixel) (alpha : Nat) : Pixel :=
  if 63 ≤ alpha then px
  else pack (scale (expR px) alpha) (scale (expG px) alpha) (scale (expB px) alpha)

/-- `blendch(f, b, a)`, for lanes and alpha from 0 to 63 (40_compositor.md R128). -/
def blendch (f b a : Nat) : Nat := isqrt6 ((mulch f a + mulch b (63 - a)) >>> 4)

/-- `blendpx(fg, bg, alpha)`: the background 0 is the "no background" sentinel (40_compositor.md R130). -/
def blendpx (fg bg : Pixel) (alpha : Nat) : Pixel :=
  if bg = 0x0000#16 then mulpx fg alpha
  else if 63 ≤ alpha then fg
  else if alpha = 0 then bg
  else pack (blendch (expR fg) (expR bg) alpha) (blendch (expG fg) (expG bg) alpha) (blendch (expB fg) (expB bg) alpha)

/-- `RES0 <- result`, zero-extended to 16 bits (40_compositor.md R120). -/
def State.setRes0 (v : Word) (s : State) : State := { s with res0 := v }

/-- The common shape of a compositor command: `RES0` gets the result if the operands are in range, else `OperandRange`
(40_compositor.md R120, 30_encoding.md R93). -/
def compositorCommand (op : Byte) (inRange : Bool) (result : Word) (s : State) : Host.Outcome State Fault Refusal :=
  .next (if inRange then (s.setRes0 result).finish else s.decodeFault op .operandRange)

/-- SQRT (40_compositor.md R122). -/
def execSqrt (n : Word) (s : State) : Host.Outcome State Fault Refusal :=
  compositorCommand (Instr.sqrt n).opcode (inN12 n) (BitVec.ofNat 16 (isqrt6 n.toNat)) s

/-- MULCH (40_compositor.md R123). -/
def execMulch (p a : Word) (s : State) : Host.Outcome State Fault Refusal :=
  compositorCommand (Instr.mulch p a).opcode (inCH6 p && inCH6 a) (BitVec.ofNat 16 (mulch p.toNat a.toNat)) s

/-- MULPX (40_compositor.md R126). -/
def execMulpx (px : Pixel) (alpha : Word) (s : State) : Host.Outcome State Fault Refusal :=
  compositorCommand (Instr.mulpx px alpha).opcode true (mulpx px (zext16 alpha)) s

/-- BLENDCH (40_compositor.md R128). -/
def execBlendch (f b a : Word) (s : State) : Host.Outcome State Fault Refusal :=
  compositorCommand (Instr.blendch f b a).opcode (inCH6 f && inCH6 b && inCH6 a)
    (BitVec.ofNat 16 (blendch f.toNat b.toNat a.toNat)) s

/-- BLENDPX (40_compositor.md R130). -/
def execBlendpx (fg bg : Pixel) (alpha : Word) (s : State) : Host.Outcome State Fault Refusal :=
  compositorCommand (Instr.blendpx fg bg alpha).opcode true (blendpx fg bg (zext16 alpha)) s

end Sys2Proof.Machine
end

