-- ==== Sys2Proof/Machine/Control.lean ====
section
/-! DEFINITION. The control commands NOP, SETFG and SETBG (45_control.md). -/

namespace Sys2Proof.Machine

/-- NOP: only its response (45_control.md R240). -/
def execNop (s : State) : Host.Outcome State Fault Refusal := .next s.finish

/-- SETFG: `FG <- colour` (45_control.md R241). -/
def execSetfg (colour : Pixel) (s : State) : Host.Outcome State Fault Refusal :=
  .next ({ s with fg := colour }).finish

/-- SETBG: `BG <- colour` (45_control.md R242). -/
def execSetbg (colour : Pixel) (s : State) : Host.Outcome State Fault Refusal :=
  .next ({ s with bg := colour }).finish

end Sys2Proof.Machine
end

