-- ==== Sys2Proof/Machine/Glyph.lean ====
section
/-! DEFINITION. The run-length glyph decoder unit (44_glyph_decoder.md) and the meaning of GLYPH. -/

namespace Sys2Proof.Machine

/-- What a token byte stands for (30_encoding.md R99). All 256 bytes are tokens. -/
inductive Token where
  /-- Mode `00`: one pixel with an explicit alpha. -/
  | explicit (alpha : Nat)
  /-- Mode `01`: a transparent run, alpha 0. -/
  | transparent (length : Nat)
  /-- Mode `10`: an opaque run, alpha 63. -/
  | opaqueRun (length : Nat)
  /-- Mode `11`: the terminator; its low six bits are ignored. -/
  | terminator
deriving DecidableEq, Repr

/-- The token of a byte: `b[7:6]` is the mode and `b[5:0]` the value (30_encoding.md R99). -/
def tokenOf (b : Byte) : Token :=
  let v := (b.extractLsb' 0 6).toNat
  match (b.extractLsb' 6 2).toNat with
  | 0 => .explicit v
  | 1 => .transparent v
  | 2 => .opaqueRun v
  | _ => .terminator

/-- How many pixels a token stands for (30_encoding.md R99). -/
def Token.pixels : Token → Nat
  | .explicit _ => 1
  | .transparent n => n
  | .opaqueRun n => n
  | .terminator => 0

/-- The alpha of a token's pixels (30_encoding.md R99). -/
def Token.alpha : Token → Nat
  | .explicit a => a
  | .transparent _ => 0
  | .opaqueRun _ => 63
  | .terminator => 0

/-- The adapter calls of a token: one data word for an explicit pixel, a `Stream` for a run, nothing for a run of length
0 (44_glyph_decoder.md R223, R224). -/
def Token.words (fg : Pixel) (t : Token) : List DpaCall :=
  match t with
  | .explicit a => [.writeDataWord (mulpx fg a)]
  | .transparent n => stream (mulpx fg 0) n
  | .opaqueRun n => stream (mulpx fg 63) n
  | .terminator => []

/-- The token loop and the exit step (44_glyph_decoder.md R223, R222) on the bytes of glyph memory from `p` on, with
`rem` pixels still to stream. `MemRead(p, 1)` is the first of them, and none are left exactly when it raises
`GlyphMemRange` (20_memory.md R64; log entry 5). -/
def glyphLoop (fg : Pixel) : (bytes : List Byte) → (rem : Nat) → Paint
  | [], _ => Paint.raise .glyphMemRange
  | b :: rest, rem =>
    if tokenOf b = .terminator then
      if rem = 0 then Paint.emit [.idle] else Paint.raise .glyphUnderrun
    else if rem < (tokenOf b).pixels then Paint.raise .glyphOverrun
    else (Paint.emit ((tokenOf b).words fg)).andThen fun _ => glyphLoop fg rest (rem - (tokenOf b).pixels)

/-- What GLYPH does: the header step, then the token loop from `addr + 4`, then the exit step
(44_glyph_decoder.md R220 to R223). The four header bytes are read in ascending order before anything is sent. -/
def glyphPaint (c : Config) (fg : Pixel) (x y addr : Nat) : Paint :=
  match memRead16 c addr, memRead16 c (addr + 2) with
  | some width, some height =>
    if width = 0 ∨ height = 0 then Paint.raise .glyphHeader
    else
      (openRegion c x y ((x : Int) + width - 1) ((y : Int) + height - 1)).andThen fun _ =>
        glyphLoop fg (c.gmem.drop (addr + 4)) (width * height)
  | _, _ => Paint.raise .glyphMemRange

/-- GLYPH (44_glyph_decoder.md R220). -/
def execGlyph (x y addr : Word) (s : State) : Host.Outcome State Fault Refusal :=
  .next (s.finishPaint (Instr.glyph x y addr).opcode (glyphPaint s.cfg s.fg (zext16 x) (zext16 y) (zext16 addr)))

end Sys2Proof.Machine
end

