-- ==== Sys2Proof/Machine/Line.lean ====
section
/-! DEFINITION. The line rasterizer unit (41_line_rasterizer.md): FILL, the helper `PaintPair`, PAIR and LINE. The
coordinates are unbounded integers (00_scope.md R9). -/

namespace Sys2Proof.Machine

/-- What FILL does (41_line_rasterizer.md R150). -/
def fillPaint (c : Config) (x y w h : Nat) (colour : Pixel) : Paint :=
  if w = 0 ∨ h = 0 then Paint.emit [.idle]
  else
    (openRegion c x y ((x : Int) + w - 1) ((y : Int) + h - 1)).andThen fun _ =>
      Paint.emit (stream colour (w * h) ++ [.idle])

/-- FILL (41_line_rasterizer.md R150). -/
def execFill (x y w h : Word) (colour : Pixel) (s : State) : Host.Outcome State Fault Refusal :=
  .next (s.finishPaint (Instr.fill x y w h colour).opcode
    (fillPaint s.cfg (zext16 x) (zext16 y) (zext16 w) (zext16 h) colour))

/-- The neighbour of `(X, Y)` one minor step further (41_line_rasterizer.md R154). -/
def neighbour (X Y : Int) (steep : Bool) (smin : Int) : Int × Int :=
  if steep then (X + smin, Y) else (X, Y + smin)

/-- The helper `PaintPair(X, Y, steep, smin, alpha)`, `smin` being 1 or -1 (41_line_rasterizer.md R154). -/
def paintPair (c : Config) (fg bg : Pixel) (X Y : Int) (steep : Bool) (smin : Int) (alpha : Nat) : Paint :=
  let a := min alpha 63
  let c0 := blendpx fg bg (63 - a)
  let c1 := blendpx fg bg a
  let n := neighbour X Y steep smin
  (openRegion c (min X n.1) (min Y n.2) (max X n.1) (max Y n.2)).andThen fun _ =>
    Paint.emit ((if smin = 1 then [.writeDataWord c0, .writeDataWord c1]
      else [.writeDataWord c1, .writeDataWord c0]) ++ [.idle])

/-- `steep` and `smin` of PAIR's `dir` (41_line_rasterizer.md R155). -/
def pairDirection (dir : Nat) : Bool × Int :=
  if dir = 0 then (true, 1) else if dir = 1 then (true, -1) else if dir = 2 then (false, 1) else (false, -1)

/-- What PAIR does once its operands are in range (41_line_rasterizer.md R155). -/
def pairPaint (c : Config) (fg bg : Pixel) (x y dir alpha : Nat) : Paint :=
  paintPair c fg bg x y (pairDirection dir).1 (pairDirection dir).2 alpha

/-- PAIR (41_line_rasterizer.md R155). -/
def execPair (x y dir alpha : Word) (s : State) : Host.Outcome State Fault Refusal :=
  let op := (Instr.pair x y dir alpha).opcode
  .next (if inDIR dir then
      s.finishPaint op (pairPaint s.cfg s.fg s.bg (zext16 x) (zext16 y) (zext16 dir) (zext16 alpha))
    else s.decodeFault op .operandRange)

/-- The direction of a line after sign normalisation and the swap of axes (41_line_rasterizer.md R160): `steep`, the
dominant and minor deltas, and the steps along the dominant and the minor axis. -/
structure LineDir where
  /-- The dominant axis is y. -/
  steep : Bool
  /-- The dominant delta. -/
  dmaj : Nat
  /-- The minor delta, at most the dominant one. -/
  dmin : Nat
  /-- The step along the dominant axis, 1 or -1. -/
  smaj : Int
  /-- The step along the minor axis, 1 or -1. -/
  smin : Int
deriving DecidableEq, Repr

/-- `dx < 0 ? -1 : +1`: the sign of 0 is +1 (41_line_rasterizer.md R160). -/
def stepSign (d : Int) : Int := if d < 0 then -1 else 1

/-- The normalised direction of `(dx, dy)`; a tie is not steep (41_line_rasterizer.md R160). -/
def lineDir (dx dy : Int) : LineDir :=
  if dx.natAbs < dy.natAbs then
    { steep := true, dmaj := dy.natAbs, dmin := dx.natAbs, smaj := stepSign dy, smin := stepSign dx }
  else
    { steep := false, dmaj := dx.natAbs, dmin := dy.natAbs, smaj := stepSign dx, smin := stepSign dy }

/-- The line's pixel at major offset `i` and minor offset `m` from the origin (41_line_rasterizer.md R160). -/
def linePixel (d : LineDir) (x0 y0 : Int) (i m : Nat) : Int × Int :=
  if d.steep then (x0 + d.smin * m, y0 + d.smaj * i) else (x0 + d.smaj * i, y0 + d.smin * m)

/-- The pair of step `i`, the remainder term being `D` and the minor offset `m` (41_line_rasterizer.md R160). -/
def linePair (c : Config) (fg bg : Pixel) (d : LineDir) (x0 y0 : Int) (i D m : Nat) : Paint :=
  let p := linePixel d x0 y0 i m
  paintPair c fg bg p.1 p.2 d.steep d.smin (63 * D / d.dmaj)

/-- The loop of 41_line_rasterizer.md R160 with `k` iterations to go, at step `i` with remainder `D` and minor offset
`m`. -/
def lineLoop (c : Config) (fg bg : Pixel) (d : LineDir) (x0 y0 : Int) (minExtent : Nat) : (k i D m : Nat) → Paint
  | 0, _, _, _ => Paint.nothing
  | k + 1, i, D, m =>
    (if minExtent ≤ i then linePair c fg bg d x0 y0 i D m else Paint.nothing).andThen fun _ =>
      if d.dmaj ≤ D + d.dmin then
        lineLoop c fg bg d x0 y0 minExtent k (i + 1) (D + d.dmin - d.dmaj) (m + 1)
      else lineLoop c fg bg d x0 y0 minExtent k (i + 1) (D + d.dmin) m

/-- What LINE does (41_line_rasterizer.md R160, R162): the steps 0 to `maxExtent`, none for a zero vector. -/
def linePaint (c : Config) (fg bg : Pixel) (x0 y0 : Nat) (dx dy : Int) (minExtent maxExtent : Nat) : Paint :=
  let d := lineDir dx dy
  (if d.dmaj ≠ 0 then lineLoop c fg bg d x0 y0 minExtent (maxExtent + 1) 0 0 0 else Paint.nothing).orIdle

/-- LINE (41_line_rasterizer.md R160). -/
def execLine (x0 y0 dx dy minExtent maxExtent : Word) (s : State) : Host.Outcome State Fault Refusal :=
  .next (s.finishPaint (Instr.line x0 y0 dx dy minExtent maxExtent).opcode
    (linePaint s.cfg s.fg s.bg (zext16 x0) (zext16 y0) (sext16 dx) (sext16 dy) (zext16 minExtent) (zext16 maxExtent)))

end Sys2Proof.Machine
end

