-- ==== Sys2Proof/Machine/Ring.lean ====
section
/-! DEFINITION. The hollow circle rasterizer unit (42_ring_rasterizer.md): the trackers, the luminance of a pixel, the
spans, and the meaning of RING. -/

namespace Sys2Proof.Machine

/-- `RingX(r, y) = floor(sqrt(r*r - y*y))`, for `0 <= y <= r <= 65535` (42_ring_rasterizer.md R181), found by the
search of 40_compositor.md R122 over 16 bits (log entry 15). -/
def ringX (r y : Nat) : Nat := isqrtFrom 16 (r * r - y * y) 0

/-- `RingE(r, y)`, the tracker's decision variable (42_ring_rasterizer.md R181). -/
def ringE (r y : Nat) : Nat := r * r - y * y - ringX r y * ringX r y

/-- `RingLum(r, y)` (42_ring_rasterizer.md R181). -/
def ringLum (r y : Nat) : Nat := 63 * ringE r y / (2 * ringX r y + 1)

/-- A midpoint-circle tracker in its incremental form: `X` and `e = X * X + y * y - r * r` (42_ring_rasterizer.md
R181). -/
structure Tracker where
  /-- The position `X`. -/
  x : Nat
  /-- The error `e`. -/
  e : Int
deriving DecidableEq, Repr

/-- `start: X <- r ; e <- 0` (42_ring_rasterizer.md R181). -/
def trackerStart (r : Nat) : Tracker := { x := r, e := 0 }

/-- `while e > 0: e <- e - (2 * X - 1) ; X <- X - 1` (42_ring_rasterizer.md R181), by recursion on `X`, which each turn
lowers. -/
def trackerSettle : Nat → Int → Tracker
  | 0, e => { x := 0, e := e }
  | X + 1, e => if 0 < e then trackerSettle X (e - (2 * (X + 1 : Nat) - 1)) else { x := X + 1, e := e }

/-- `advance` from row `y` to row `y + 1` (42_ring_rasterizer.md R181). -/
def trackerAdvance (y : Nat) (t : Tracker) : Tracker := trackerSettle t.x (t.e + 2 * y + 1)

/-- The tracker of radius `r` advanced from row 0 to row `y` (42_ring_rasterizer.md R181). -/
def trackerAt (r : Nat) : Nat → Tracker
  | 0 => trackerStart r
  | y + 1 => trackerAdvance y (trackerAt r y)

/-- `disc(x, y)` (42_ring_rasterizer.md R182). -/
def discLum (ro x y : Nat) : Nat :=
  if x ≤ ringX ro y then 63 else if x = ringX ro y + 1 then ringLum ro y else 0

/-- `hole(x, y)` (42_ring_rasterizer.md R182). -/
def holeLum (ri x y : Nat) : Nat :=
  if ri < y then 0
  else if x ≤ ringX ri y then 63
  else if x = ringX ri y + 1 then ringLum ri y
  else 0

/-- `L(x, y) = max(0, disc(x, y) - hole(x, y))` (42_ring_rasterizer.md R182): subtraction of natural numbers stops at
0. -/
def ringL (ri ro x y : Nat) : Nat := discLum ro x y - holeLum ri x y

/-- `col[d]` in row `y` (42_ring_rasterizer.md R185). -/
def ringColour (fg bg : Pixel) (ri ro y d : Nat) : Pixel := blendpx fg bg (ringL ri ro d y)

/-- The data words of a span of the distances `from..to`, in the cursor's order (42_ring_rasterizer.md R185). -/
def spanWords (col : Nat → Pixel) (sign : Int) (fromD toD : Nat) : List DpaCall :=
  let n := toD - fromD + 1
  if sign = 1 then
    [.writeDataWord (col fromD)]
      ++ (if 2 < n then stream (col (fromD + 1)) (n - 2) else [])
      ++ (if 1 < n then [.writeDataWord (col toD)] else [])
  else
    (if 1 < n then [.writeDataWord (col toD)] else [])
      ++ (if 2 < n then stream (col (toD - 1)) (n - 2) else [])
      ++ [.writeDataWord (col fromD)]

/-- The helper `EmitSpan(orientation, fixed, centre, sign, from, to, y)`, `sign` being 1 or -1
(42_ring_rasterizer.md R185). -/
def emitSpan (c : Config) (fg bg : Pixel) (ri ro : Nat) (horizontal : Bool) (fixed centre sign : Int)
    (fromD toD y : Nat) : Paint :=
  let pFrom := centre + sign * fromD
  let pTo := centre + sign * toD
  let lo := min pFrom pTo
  let hi := max pFrom pTo
  (if horizontal then openRegion c lo fixed hi fixed else openRegion c fixed lo fixed hi).andThen fun _ =>
    Paint.emit (spanWords (ringColour fg bg ri ro y) sign fromD toD ++ [.idle])

/-- `xs`, the first painted distance in row `y` (42_ring_rasterizer.md R180). -/
def rowFirst (ri y : Nat) : Nat := if y ≤ ri then max y (ringX ri y + 1) else y

/-- `xe`, the last painted distance in row `y` (42_ring_rasterizer.md R180). -/
def rowLast (ro y : Nat) : Nat := ringX ro y + 1

/-- `xv`, the first distance of the vertical spans: the diagonal pixel itself is not repeated
(42_ring_rasterizer.md R180). -/
def rowFirstVertical (ri y : Nat) : Nat := if rowFirst ri y = y then y + 1 else rowFirst ri y

/-- The signs of the mirrored coordinate: row 0 is not mirrored (42_ring_rasterizer.md R180). -/
def mirrorSigns (y : Nat) : List Int := if y = 0 then [1] else [1, -1]

/-- The horizontal spans of row `y` (42_ring_rasterizer.md R180). -/
def horizontalSpans (c : Config) (fg bg : Pixel) (cx cy : Int) (ri ro y : Nat) : Paint :=
  Paint.forEach (fun sy : Int =>
    Paint.forEach (fun sx : Int =>
      emitSpan c fg bg ri ro true (cy + sy * y) cx sx (rowFirst ri y) (rowLast ro y) y) [1, -1]) (mirrorSigns y)

/-- The vertical spans of row `y` (42_ring_rasterizer.md R180). -/
def verticalSpans (c : Config) (fg bg : Pixel) (cx cy : Int) (ri ro y : Nat) : Paint :=
  Paint.forEach (fun sx : Int =>
    Paint.forEach (fun sy : Int =>
      emitSpan c fg bg ri ro false (cx + sx * y) cy sy (rowFirstVertical ri y) (rowLast ro y) y) [1, -1]) (mirrorSigns y)

/-- The body of RING's loop for row `y` (42_ring_rasterizer.md R180). -/
def ringRow (c : Config) (fg bg : Pixel) (cx cy : Int) (ri ro y : Nat) : Paint :=
  if rowFirst ri y ≤ rowLast ro y then
    (horizontalSpans c fg bg cx cy ri ro y).andThen fun _ =>
      if rowFirstVertical ri y ≤ rowLast ro y then verticalSpans c fg bg cx cy ri ro y else Paint.nothing
  else Paint.nothing

/-- The condition of RING's loop, `y <= ro and y <= RingX(ro, y) + 1` (42_ring_rasterizer.md R180). -/
abbrev rowInLoop (ro y : Nat) : Prop := y ≤ ro ∧ y ≤ ringX ro y + 1

/-- RING's loop from row `y`, with at most `k` rows to go (42_ring_rasterizer.md R180). -/
def ringLoop (c : Config) (fg bg : Pixel) (cx cy : Int) (ri ro : Nat) : (k y : Nat) → Paint
  | 0, _ => Paint.nothing
  | k + 1, y =>
    if rowInLoop ro y then
      (ringRow c fg bg cx cy ri ro y).andThen fun _ => ringLoop c fg bg cx cy ri ro k (y + 1)
    else Paint.nothing

/-- What RING does (42_ring_rasterizer.md R180, R183): the rows from 0, at most `ro + 1` of them. -/
def ringPaint (c : Config) (fg bg : Pixel) (cx cy ri ro : Nat) : Paint :=
  (ringLoop c fg bg cx cy ri ro (ro + 1) 0).orIdle

/-- RING (42_ring_rasterizer.md R180). -/
def execRing (cx cy ri ro : Word) (s : State) : Host.Outcome State Fault Refusal :=
  .next (s.finishPaint (Instr.ring cx cy ri ro).opcode
    (ringPaint s.cfg s.fg s.bg (zext16 cx) (zext16 cy) (zext16 ri) (zext16 ro)))

end Sys2Proof.Machine
end

