-- ==== Sys2Proof/Machine/Sine.lean ====
section
/-! DEFINITION. The fixed-point sine table unit (43_sine_table.md) and the meaning of UNITVEC. -/

namespace Sys2Proof.Machine

/-- `Q(idx) = SINE_TABLE[min(idx, 69)]` (43_sine_table.md R201). -/
def quarterSine (c : Config) (idx : Nat) : Nat := (c.sine[min idx 69]'(by omega)).toNat

/-- `S(t)`, the full-circle sine, for an angle `t` in steps, `0 <= t < 288` (43_sine_table.md R204). -/
def fullSine (c : Config) (t : Nat) : Int :=
  let q := t / 72
  let r := t % 72
  let mag : Int := quarterSine c (if q % 2 = 0 then r else 72 - r)
  if q < 2 then mag else -mag

/-- `th`, the pointer's angle clockwise from 6 o'clock, in steps (43_sine_table.md R205). -/
def pointerAngle (angle : Word) : Nat := (zext16 angle + 16) % 288

/-- `dx` (43_sine_table.md R205). -/
def unitDx (c : Config) (angle : Word) : Int := -fullSine c (pointerAngle angle)

/-- `dy`, the cosine by a 72-step phase offset (43_sine_table.md R205). -/
def unitDy (c : Config) (angle : Word) : Int := fullSine c ((pointerAngle angle + 72) % 288)

/-- UNITVEC: `RES0 <- to16(dx)`, `RES1 <- to16(dy)` (43_sine_table.md R205). -/
def execUnitvec (angle : Word) (s : State) : Host.Outcome State Fault Refusal :=
  .next ({ s with res0 := to16 (unitDx s.cfg angle), res1 := to16 (unitDy s.cfg angle) }).finish

end Sys2Proof.Machine
end

