-- ==== Sys2Proof/Machine/Dispatch.lean ====
section
/-! DEFINITION. The dispatch of a command to its meaning, one arm for each row of the opcode map (30_encoding.md
R95). -/

namespace Sys2Proof.Machine

/-- "execute the opcode's rule" (30_encoding.md R93). -/
def exec (i : Instr) (s : State) : Host.Outcome State Fault Refusal :=
  match i with
  | .nop => Sys2Proof.Machine.execNop s
  | .sqrt n => Sys2Proof.Machine.execSqrt n s
  | .mulch p a => Sys2Proof.Machine.execMulch p a s
  | .mulpx px alpha => Sys2Proof.Machine.execMulpx px alpha s
  | .blendch f b a => Sys2Proof.Machine.execBlendch f b a s
  | .blendpx fg bg alpha => Sys2Proof.Machine.execBlendpx fg bg alpha s
  | .unitvec angle => Sys2Proof.Machine.execUnitvec angle s
  | .setfg colour => Sys2Proof.Machine.execSetfg colour s
  | .setbg colour => Sys2Proof.Machine.execSetbg colour s
  | .fill x y w h colour => Sys2Proof.Machine.execFill x y w h colour s
  | .line x0 y0 dx dy minExtent maxExtent => Sys2Proof.Machine.execLine x0 y0 dx dy minExtent maxExtent s
  | .ring cx cy ri ro => Sys2Proof.Machine.execRing cx cy ri ro s
  | .glyph x y addr => Sys2Proof.Machine.execGlyph x y addr s
  | .pair x y dir alpha => Sys2Proof.Machine.execPair x y dir alpha s

end Sys2Proof.Machine
end

