-- ==== Sys2Proof/Machine/Step.lean ====
section
/-! DEFINITION. One step: the block takes one input of the host and finishes with it (20_memory.md R70,
70_reset_and_hazards.md R290). -/

namespace Sys2Proof.Machine

/-- One step: the oldest input is taken, and a command that is to be executed is executed to completion
(20_memory.md R70; log entry 17). -/
def step (s : State) : Host.Outcome State Fault Refusal :=
  match s.takeInput with
  | .inl s' => .next s'
  | .inr (i, s') => exec i s'

/-- `s` with the command word whose bits are `w` (below `nbits`, zero above) as the next word the host presents on `CMD`
(60_exceptions.md R262 a; log entry 6). -/
def State.withFetchWord (s : State) (nbits w : Nat) : State :=
  { s with inbox := .command (BitVec.ofNat 128 (w % 2 ^ nbits)) :: s.inbox }

end Sys2Proof.Machine
end

