-- ==== Sys2Proof/Machine/Assembler.lean ====
section
/-! DEFINITION. The assembler syntax of 30_encoding.md R102, from a line of characters to a command, and the printed form
of a command word. It is outside the machine: no step uses it (log entry 16). -/

namespace Sys2Proof.Machine

/-- A `;` starts a comment (30_encoding.md R102). -/
def dropComment (line : List Char) : List Char := line.takeWhile (· != ';')

/-- Without the white space at either end. -/
def trimChars (cs : List Char) : List Char :=
  ((cs.dropWhile Char.isWhitespace).reverse.dropWhile Char.isWhitespace).reverse

/-- The sixteen digits in the order of their values, as spec/ prints them (30_encoding.md R102). -/
def capitalDigits : List Char := "0123456789ABCDEF".toList

/-- The same digits with small letters (log entry 16). -/
def smallDigits : List Char := "0123456789abcdef".toList

/-- The value of a digit: its place among the sixteen, in either case (log entry 16). -/
def digitPlace (d : Char) : Option Nat := (capitalDigits.idxOf? d).or (smallDigits.idxOf? d)

/-- The number the digits write in a base; none where one of them is no digit of it. -/
def digitsValue (base : Nat) (ds : List Char) : Option Nat :=
  ds.foldlM (fun n d => ((digitPlace d).filter (· < base)).map (n * base + ·)) 0

/-- An unsigned number: decimal, or hexadecimal with `0x` (30_encoding.md R102). -/
def parseUnsigned : List Char → Option Nat
  | [] => none
  | ['0', 'x'] => none
  | '0' :: 'x' :: cs => digitsValue 16 cs
  | cs => digitsValue 10 cs

/-- An operand of any kind but `S16`: a 16-bit slot value (30_encoding.md R92). -/
def parseU16 (cs : List Char) : Option Word :=
  match parseUnsigned cs with
  | some n => if n < 65536 then some (BitVec.ofNat 16 n) else none
  | none => none

/-- An `S16` operand: it may carry a minus sign and is encoded by `to16`, whose domain is -32768 to 32767
(30_encoding.md R102, 00_scope.md R8). -/
def parseS16 : List Char → Option Word
  | '-' :: cs =>
    match parseUnsigned cs with
    | some n => if n ≤ 32768 then some (to16 (-(n : Int))) else none
    | none => none
  | cs =>
    match parseUnsigned cs with
    | some n => if n ≤ 32767 then some (to16 n) else none
    | none => none

/-- The pieces between commas; a line with nothing after its mnemonic has none. -/
def splitCommas (cs : List Char) : List (List Char) :=
  match trimChars cs with
  | [] => []
  | cs => (cs.splitOn ',').map trimChars

/-- A command from its mnemonic and its operands in slot order (30_encoding.md R95, R102). -/
def assembleOperands (mnemonic : List Char) (ops : List (List Char)) : Option Instr :=
  match mnemonic, ops with
  | ['N', 'O', 'P'], [] => some .nop
  | ['S', 'Q', 'R', 'T'], [a] => return .sqrt (← parseU16 a)
  | ['M', 'U', 'L', 'C', 'H'], [a, b] => return .mulch (← parseU16 a) (← parseU16 b)
  | ['M', 'U', 'L', 'P', 'X'], [a, b] => return .mulpx (← parseU16 a) (← parseU16 b)
  | ['B', 'L', 'E', 'N', 'D', 'C', 'H'], [a, b, c] => return .blendch (← parseU16 a) (← parseU16 b) (← parseU16 c)
  | ['B', 'L', 'E', 'N', 'D', 'P', 'X'], [a, b, c] => return .blendpx (← parseU16 a) (← parseU16 b) (← parseU16 c)
  | ['U', 'N', 'I', 'T', 'V', 'E', 'C'], [a] => return .unitvec (← parseU16 a)
  | ['S', 'E', 'T', 'F', 'G'], [a] => return .setfg (← parseU16 a)
  | ['S', 'E', 'T', 'B', 'G'], [a] => return .setbg (← parseU16 a)
  | ['F', 'I', 'L', 'L'], [a, b, c, d, e] =>
    return .fill (← parseU16 a) (← parseU16 b) (← parseU16 c) (← parseU16 d) (← parseU16 e)
  | ['L', 'I', 'N', 'E'], [a, b, c, d, e, f] =>
    return .line (← parseU16 a) (← parseU16 b) (← parseS16 c) (← parseS16 d) (← parseU16 e) (← parseU16 f)
  | ['R', 'I', 'N', 'G'], [a, b, c, d] =>
    return .ring (← parseU16 a) (← parseU16 b) (← parseU16 c) (← parseU16 d)
  | ['G', 'L', 'Y', 'P', 'H'], [a, b, c] => return .glyph (← parseU16 a) (← parseU16 b) (← parseU16 c)
  | ['P', 'A', 'I', 'R'], [a, b, c, d] =>
    return .pair (← parseU16 a) (← parseU16 b) (← parseU16 c) (← parseU16 d)
  | _, _ => none

/-- The command a line of assembler stands for; none where the line is no command (30_encoding.md R102). -/
def assembleLine (line : List Char) : Option Instr :=
  let cs := trimChars (dropComment line)
  assembleOperands (cs.takeWhile fun c => !c.isWhitespace) (splitCommas (cs.dropWhile fun c => !c.isWhitespace))

/-- The digit of a value below 16. -/
def hexDigit (v : Nat) : Char := capitalDigits.getD v '0'

/-- A command word written as 32 hexadecimal digits (30_encoding.md R102). -/
def wordDigits (w : CommandWord) : List Char :=
  (List.range 32).reverse.map fun j => hexDigit (w.toNat / 16 ^ j % 16)

end Sys2Proof.Machine
end

