-- ==== Sys2Proof/WellFormed.lean ====
section
/-! DEFINITION. The operand ranges a command must keep (30_encoding.md R92, R93): the `CH6`, `N12` and `DIR`
slots. Every other operand kind admits all 65536 values. -/

namespace Sys2Proof

/-- The operands lie in the ranges of their kinds (30_encoding.md R92). A command that does not satisfy it still has
an encoding and a meaning: it raises `OperandRange` (R93). -/
def Instr.wellFormed : Instr → Bool
  | .nop => true
  | .sqrt n => n.toNat ≤ 4095
  | .mulch p a => p.toNat ≤ 63 && a.toNat ≤ 63
  | .mulpx _ _ => true
  | .blendch f b a => f.toNat ≤ 63 && b.toNat ≤ 63 && a.toNat ≤ 63
  | .blendpx _ _ _ => true
  | .unitvec _ => true
  | .setfg _ => true
  | .setbg _ => true
  | .fill _ _ _ _ _ => true
  | .line _ _ _ _ _ _ => true
  | .ring _ _ _ _ => true
  | .glyph _ _ _ => true
  | .pair _ _ dir _ => dir.toNat ≤ 3

end Sys2Proof
end

