-- ==== Sys2Proof/Safety.lean ====
section
/-! DEFINITION. The terms claims about the machine use: legal adapter traces, the invariant every step keeps, what a
command that only paints or only faults leaves unchanged, and the pictures of lines, rings and glyphs. -/

namespace Sys2Proof.Machine

/-! ### Legal adapter traces -/

/-- What the adapter's protocol says after one call: `none` inside means `Idle`, `some k` an open Region with `k` pixels
still unwritten; `none` outside means the call breaks the protocol. A Region is opened only while `Idle` and only inside
the display (20_memory.md R54), words are streamed only into an open Region and never more than it has pixels (R55),
`sendCommand` is never called (R58), and `idle()` is always allowed (R57). -/
def protocolCall (c : Config) : Option Nat → DpaCall → Option (Option Nat)
  | none, .beginRegion x0 y0 x1 y1 =>
    if regionOnDisplay c x0 y0 x1 y1 then some (some ((x1 - x0 + 1) * (y1 - y0 + 1))) else none
  | some k, .writeDataWord _ => if 1 ≤ k then some (some (k - 1)) else none
  | some k, .repeatDataWord _ n => if repeatLength n ≤ k then some (some (k - repeatLength n)) else none
  | _, .idle => some none
  | _, _ => none

/-- The protocol along a trace, stopping at the first call that breaks it. -/
def protocolRun (c : Config) : Option Nat → List DpaCall → Option (Option Nat)
  | m, [] => some m
  | m, call :: calls =>
    match protocolCall c m call with
    | none => none
    | some m' => protocolRun c m' calls

/-- A trace that starts with the bus `Idle`, keeps the protocol at every call, and leaves the bus `Idle`
(10_state.md R29 a, 20_memory.md R54 to R58). -/
abbrev traceLegal (c : Config) (calls : List DpaCall) : Prop := protocolRun c none calls = some none

/-! ### The invariant -/

/-- A value of `STATUS` the spec admits (10_state.md R27): reserved bits 0; everything 0 when `FAULT` is 0; a produced
cause, 1 to 8, when `FAULT` is 1 (60_exceptions.md R251). -/
abbrev statusLegal (v : Word) : Prop :=
  statusReserved v = 0 ∧ (if statusFault v then 1 ≤ (statusCause v).toNat ∧ (statusCause v).toNat ≤ 8 else v = 0)

/-- What holds of the block between two inputs. -/
structure State.Inv (s : State) : Prop where
  /-- The parameters are within their bounds (00_scope.md R7). -/
  params : s.cfg.wf
  /-- The frame memory keeps its canonical form. -/
  canonical : s.screen.fb.wf
  /-- Only pixels of the display are ever painted (20_memory.md R50). -/
  onDisplay : ∀ e ∈ s.screen.fb, e.1 % 65536 < s.cfg.dispW ∧ e.1 / 65536 < s.cfg.dispH
  /-- The bus is `Idle` between commands (10_state.md R29 a). -/
  busIdle : s.screen.bus = .idle
  /-- `STATUS` is a value the spec admits (10_state.md R27). -/
  status : statusLegal s.status
  /-- The adapter calls of the last input keep the adapter's protocol (20_memory.md R54 to R58). -/
  legal : traceLegal s.cfg s.trace
  /-- The response given last is the registers' present value (30_encoding.md R94). -/
  response : s.rsp = none ∨ s.rsp = some s.responseWord

/-! ### What a command leaves unchanged -/

/-- From `s` to `t` a command painted and did nothing else: no register, no parameter and no pending input changed, and
the response carries the unchanged registers (41_line_rasterizer.md, "None of these commands writes RES0, RES1, FG or
BG"). -/
abbrev OnlyPainted (s t : State) : Prop :=
  t = { s with screen := t.screen, trace := t.trace, rsp := some (s.status ++ s.res1 ++ s.res0) }

/-- From `s` to `t` the command with opcode byte `op` faulted with cause `c`: `STATUS` holds both, no other register, no
parameter and no pending input changed, and the response carries the new `STATUS` (60_exceptions.md R252). -/
abbrev FaultedWith (op : Byte) (c : Cause) (s t : State) : Prop :=
  t = { s with status := faultStatus op c, screen := t.screen, trace := t.trace,
               rsp := some (faultStatus op c ++ s.res1 ++ s.res0) }

/-- Every pixel outside the set is what it was: for every key of the frame memory that belongs to no pixel of the set,
reading it after gives what reading it before gave. -/
abbrev UnchangedOutside (s t : State) (inside : Nat → Nat → Prop) : Prop :=
  ∀ k, (∀ x y, inside x y → k ≠ pixelKey x y) → t.screen.fb.read k = s.screen.fb.read k

/-- The rectangle `w` wide and `h` high with its top-left pixel at `(x, y)`. -/
abbrev inRectangle (x y w h : Nat) (a b : Nat) : Prop := x ≤ a ∧ a < x + w ∧ y ≤ b ∧ b < y + h

/-! ### Pixels, lines, rings and glyphs -/

/-- The 5-bit red field (30_encoding.md R96). -/
def redField (px : Pixel) : Nat := (px.extractLsb' 11 5).toNat

/-- The 6-bit green field (30_encoding.md R96). -/
def greenField (px : Pixel) : Nat := (px.extractLsb' 5 6).toNat

/-- The 5-bit blue field (30_encoding.md R96). -/
def blueField (px : Pixel) : Nat := (px.extractLsb' 0 5).toNat

/-- The data words a list of adapter calls streams, in order (20_memory.md R55, R56). -/
def dataWords : List DpaCall → List Pixel
  | [] => []
  | .writeDataWord v :: calls => v :: dataWords calls
  | .repeatDataWord v n :: calls => List.replicate (repeatLength n) v ++ dataWords calls
  | _ :: calls => dataWords calls

/-- `m` at step `i` of a line, in closed form (41_line_rasterizer.md R161). -/
def lineMinor (d : LineDir) (i : Nat) : Nat := i * d.dmin / d.dmaj

/-- `D` at step `i` of a line, in closed form (41_line_rasterizer.md R161). -/
def lineRemainder (d : LineDir) (i : Nat) : Nat := i * d.dmin % d.dmaj

/-- `alpha` at step `i` of a line, in closed form (41_line_rasterizer.md R161). -/
def lineAlpha (d : LineDir) (i : Nat) : Nat := 63 * lineRemainder d i / d.dmaj

/-- The line's pixel at step `i`, in closed form (41_line_rasterizer.md R161). -/
def lineNear (d : LineDir) (x0 y0 : Nat) (i : Nat) : Int × Int := linePixel d x0 y0 i (lineMinor d i)

/-- Its neighbour, one minor step further (41_line_rasterizer.md R154). -/
def lineFar (d : LineDir) (x0 y0 : Nat) (i : Nat) : Int × Int :=
  neighbour (lineNear d x0 y0 i).1 (lineNear d x0 y0 i).2 d.steep d.smin

/-- A position of the display (20_memory.md R50). -/
abbrev pixelOnDisplay (c : Config) (p : Int × Int) : Prop :=
  0 ≤ p.1 ∧ p.1 < c.dispW ∧ 0 ≤ p.2 ∧ p.2 < c.dispH

/-- The pair of step `i` of a line, in closed form (41_line_rasterizer.md R160, R161). -/
def lineStep (c : Config) (fg bg : Pixel) (d : LineDir) (x0 y0 : Nat) (i : Nat) : Paint :=
  linePair c fg bg d x0 y0 i (lineRemainder d i) (lineMinor d i)

/-- The ring paints the pixels at offsets of these greater and lesser sizes (42_ring_rasterizer.md R187). -/
abbrev ringCovers (ri ro x y : Nat) : Prop := rowInLoop ro y ∧ rowFirst ri y ≤ x ∧ x ≤ rowLast ro y

/-- A span of a ring: the operands of `EmitSpan` (42_ring_rasterizer.md R185). -/
structure RingSpan where
  /-- The orientation: along a row, else along a column. -/
  horizontal : Bool
  /-- The coordinate on the other axis. -/
  fixed : Int
  /-- The centre's coordinate on the span's axis. -/
  centre : Int
  /-- The side of the centre, 1 or -1. -/
  sign : Int
  /-- The first distance from the centre. -/
  fromD : Nat
  /-- The last distance from the centre. -/
  toD : Nat
  /-- The row whose luminances the span has. -/
  row : Nat
deriving DecidableEq, Repr

/-- What painting a span does (42_ring_rasterizer.md R185). -/
def RingSpan.paint (c : Config) (fg bg : Pixel) (ri ro : Nat) (sp : RingSpan) : Paint :=
  emitSpan c fg bg ri ro sp.horizontal sp.fixed sp.centre sp.sign sp.fromD sp.toD sp.row

/-- The pixel of a span at distance `d` from the centre (42_ring_rasterizer.md R185). -/
def RingSpan.pixelAt (sp : RingSpan) (d : Nat) : Int × Int :=
  if sp.horizontal then (sp.centre + sp.sign * d, sp.fixed) else (sp.fixed, sp.centre + sp.sign * d)

/-- A span whose two ends, and so all of it, lie on the display. -/
abbrev RingSpan.onDisplay (c : Config) (sp : RingSpan) : Prop :=
  pixelOnDisplay c (sp.pixelAt sp.fromD) ∧ pixelOnDisplay c (sp.pixelAt sp.toD)

/-- The spans of one orientation in row `y`: on both sides of `centre`, along the line `y` beyond `mid` and, but for row 0,
along its mirror image; none where the first distance lies beyond the last (42_ring_rasterizer.md R180). -/
def ringSideSpans (horizontal : Bool) (mid centre first last y : Nat) : List RingSpan :=
  if first ≤ last then
    (mirrorSigns y).flatMap fun mirror => [1, -1].map fun side =>
      { horizontal := horizontal, fixed := mid + mirror * y, centre := centre, sign := side, fromD := first,
        toD := last, row := y }
  else []

/-- The spans of row `y` in the order of their emission: the horizontal ones, then the vertical ones
(42_ring_rasterizer.md R180). -/
def ringRowSpans (cx cy ri ro y : Nat) : List RingSpan :=
  ringSideSpans true cy cx (rowFirst ri y) (rowLast ro y) y
    ++ ringSideSpans false cx cy (rowFirstVertical ri y) (rowLast ro y) y

/-- The spans of a ring in the order of their emission: those of the rows 0, 1, … until the loop ends
(42_ring_rasterizer.md R180). -/
def ringSpans (cx cy ri ro : Nat) : List RingSpan :=
  ((List.range (ro + 1)).takeWhile fun y => decide (rowInLoop ro y)).flatMap (ringRowSpans cx cy ri ro)

/-- The tokens a glyph streams before its loop ends: those before the terminator, the first token too long for the pixels
left, or the end of glyph memory (44_glyph_decoder.md R223). -/
def glyphTaken : (bytes : List Byte) → (rem : Nat) → List Token
  | [], _ => []
  | b :: rest, rem =>
    if tokenOf b = .terminator ∨ rem < (tokenOf b).pixels then []
    else tokenOf b :: glyphTaken rest (rem - (tokenOf b).pixels)

/-- The alphas of the pixels some tokens stand for, in the order they are streamed (30_encoding.md R99). -/
def tokenAlphas (ts : List Token) : List Nat := ts.flatMap fun t => List.replicate t.pixels t.alpha

/-- The alphas of the pixels a glyph's tokens stand for, up to the terminator; none where no terminator comes
(30_encoding.md R99). -/
def glyphAlphas : List Byte → Option (List Nat)
  | [] => none
  | b :: rest =>
    if tokenOf b = .terminator then some []
    else (glyphAlphas rest).map fun as => List.replicate (tokenOf b).pixels (tokenOf b).alpha ++ as

/-- How many pixels a glyph's tokens stand for, up to the terminator or the end of glyph memory
(30_encoding.md R99). -/
def glyphLength : List Byte → Nat
  | [] => 0
  | b :: rest => if tokenOf b = .terminator then 0 else (tokenOf b).pixels + glyphLength rest

/-- Commands whose meaning paints (20_memory.md R50). -/
def paints : Instr → Bool
  | .fill _ _ _ _ _ => true
  | .line _ _ _ _ _ _ => true
  | .ring _ _ _ _ => true
  | .glyph _ _ _ => true
  | .pair _ _ _ _ => true
  | .nop => false
  | .sqrt _ => false
  | .mulch _ _ => false
  | .mulpx _ _ => false
  | .blendch _ _ _ => false
  | .blendpx _ _ _ => false
  | .unitvec _ => false
  | .setfg _ => false
  | .setbg _ => false

end Sys2Proof.Machine
end

