-- ==== Sys2Proof/Certificates/Slice0/Obligations.lean ====
section
/-! DEFINITION. The statements about the model, written from the numbered rules of spec/. They are for the provers. -/

open Sys2Proof Sys2Proof.Machine

/-! ### Encoding (30_encoding.md) -/

/-- 30_encoding.md sections 1 and 3: decoding the encoding of any command gives it back, with every operand slot at every
value. -/
def Obligations.DecodeOfEncodeIsTheCommand : Prop :=
  ∀ i : Instr, decode (encode i) = .ok i

/-- 30_encoding.md sections 1 and 3: a word that decodes is the encoding of the command it decodes to, so every bit of a
word is accounted for. -/
def Obligations.EncodeOfDecodeIsTheWord : Prop :=
  ∀ (w : CommandWord) (i : Instr), decode w = .ok i → encode i = w

/-- 30_encoding.md section 5: `w & mask = match` holds exactly for the words of a row's command. -/
def Obligations.TableRowsMatchExactlyTheirCommands : Prop :=
  ∀ (w : CommandWord) (r : TableRow), r ∈ opcodeTable →
    (w &&& r.mask = r.pat ↔ ∃ i, decode w = .ok i ∧ i.opcode = r.op)

/-- 30_encoding.md section 1, 60_exceptions.md section 2: an illegal opcode is reported whatever the other bits are, and
a word with a listed opcode that is not well formed is `ReservedNonzero`, never `IllegalOpcode`. -/
def Obligations.DecodeErrorsInFixedOrder : Prop :=
  ∀ w : CommandWord,
    ((∀ r ∈ opcodeTable, opByte w ≠ r.op) → decode w = .error .illegalOpcode) ∧
    (∀ r ∈ opcodeTable, opByte w = r.op → w &&& r.mask ≠ r.pat → decode w = .error .reservedNonzero)

/-- Words of 95_test_vectors.md decode to the commands printed beside them. -/
def Obligations.PrintedWordsDecode : Prop :=
  decode 0x010000000F4200000000000000000000#128 = .ok (.sqrt 3906) ∧
  decode 0x08000000008000000000000000000000#128 = .ok (.unitvec 128) ∧
  decode 0x10000000F80000000000000000000000#128 = .ok (.setfg 0xF800) ∧
  decode 0x200000000002000300040002F8000000#128 = .ok (.fill 2 3 4 2 0xF800) ∧
  decode 0x2100000000080008FFA800F100020005#128 = .ok (.line 8 8 0xFFA8 241 2 5) ∧
  decode 0x22000000000500050001000200000000#128 = .ok (.ring 5 5 1 2) ∧
  decode 0x23000000000300020002000000000000#128 = .ok (.glyph 3 2 2) ∧
  decode 0x24000000000500050003001400000000#128 = .ok (.pair 5 5 3 20)

/-! ### Taking an input (20_memory.md section 5, 60_exceptions.md section 2, 70_reset_and_hazards.md section 1) -/

/-- 20_memory.md section 5: a word presented to a block that is not halted, which decodes, is executed: the step is that
command's meaning, in the state without the word. The list of words to come is the model's choice (log entry 6). -/
def Obligations.StepRunsTheDecodedCommand : Prop :=
  ∀ (s : State) (w : CommandWord) (rest : List HostInput) (i : Instr),
    s.inbox = .command w :: rest → s.halted = false → decode w = .ok i → step s = exec i { s with inbox := rest }

/-- 30_encoding.md section 1, 60_exceptions.md section 2: a word that does not decode faults with cause 1 or 2, the trace
is empty, and only `STATUS` changes. -/
def Obligations.StepFaultsOnAWordThatDoesNotDecode : Prop :=
  ∀ (s : State) (w : CommandWord) (rest : List HostInput) (e : DecodeError),
    s.inbox = .command w :: rest → s.halted = false → decode w = .error e →
      step s = .next { s with
        inbox := rest, status := faultStatus (opByte w) (causeOf e), trace := [],
        rsp := some (faultStatus (opByte w) (causeOf e) ++ s.res1 ++ s.res0) }

/-- R253: a halted block discards every word, legal or not: no register changes, no adapter call is made, and the
response carries the frozen registers. -/
def Obligations.HaltedBlockDiscardsEveryWord : Prop :=
  ∀ (s : State) (w : CommandWord) (rest : List HostInput),
    s.inbox = .command w :: rest → s.halted = true →
      step s = .next { s with inbox := rest, trace := [], rsp := some (s.status ++ s.res1 ++ s.res0) }

/-- R94: every command word the block accepts, halted or not, decodable or not, produces one response, the registers'
values after the command. -/
def Obligations.EveryWordIsAnswered : Prop :=
  ∀ (s : State) (w : CommandWord) (rest : List HostInput), s.inbox = .command w :: rest →
    ∃ t, step s = .next t ∧ t.inbox = rest ∧ t.rsp = some (t.status ++ t.res1 ++ t.res0)

/-- 60_exceptions.md section 2, 70_reset_and_hazards.md section 1: a halted block stays halted, with every register as it was, unless the input taken is a reset; a reset gives
every register its reset value and leaves the frame memory as it is. That a reset is an input taken between two commands,
and that a step with no input waits, is the model's choice (log entries 7 and 9). -/
def Obligations.OnlyResetLeavesTheHalt : Prop :=
  (∀ s t : State, s.halted = true → step s = .next t → (∀ rest, s.inbox ≠ .reset :: rest) →
    t.halted = true ∧ t.fg = s.fg ∧ t.bg = s.bg ∧ t.res0 = s.res0 ∧ t.res1 = s.res1 ∧ t.status = s.status ∧
      t.screen = s.screen) ∧
  (∀ (s : State) (rest : List HostInput), s.inbox = .reset :: rest →
    ∃ t, step s = .next t ∧ t.halted = false ∧ t.fg = 0xFFFF ∧ t.bg = 0 ∧ t.res0 = 0 ∧ t.res1 = 0 ∧ t.status = 0 ∧
      t.screen.fb = s.screen.fb ∧ t.screen.bus = .idle ∧ t.cfg = s.cfg ∧ t.inbox = rest)

/-- R30: the state after reset. The frame memory is `FB0`, of which nothing is known, and reset leaves `GMEM`
unchanged. -/
def Obligations.ResetStateIsAsStated : Prop :=
  State.reset.fg = 0xFFFF ∧ State.reset.bg = 0x0000 ∧ State.reset.res0 = 0x0000 ∧ State.reset.res1 = 0x0000 ∧
  State.reset.status = 0x0000 ∧ State.reset.screen.bus = .idle ∧
  (∀ x y, State.reset.shown x y = Config.fb0 x y) ∧
  (∀ s : State, s.resetBlock.cfg.gmem = s.cfg.gmem)

/-! ### The frame memory and the adapter (20_memory.md) -/

/-- 20_memory.md section 1: frame memories in canonical form that read the same are the same data. The canonical form is
the model's choice (log entry 4). -/
def Obligations.CanonicalMemoriesAreDeterminedByReads : Prop :=
  ∀ m m' : Memory, m.wf → m'.wf → (∀ k, m.read k = m'.read k) → m = m'

/-- R56: `repeatDataWord(v, count)` acts as 256 or `count` successive `writeDataWord(v)`. -/
def Obligations.RepeatIsSuccessiveWrites : Prop :=
  ∀ (c : Config) (d : Screen) (v : Pixel) (count : Byte),
    applyCall c d (.repeatDataWord v count)
      = applyTrace c d (List.replicate (if count = 0 then 256 else count.toNat) (.writeDataWord v))

/-- R59: `Stream(v, n)` is `n div 256` calls with count 0 and one call with the rest if there is one, nothing for 0, and
its effect is `n` writes of `v`. -/
def Obligations.StreamWritesItsCount : Prop :=
  (∀ v, stream v 0 = []) ∧
  (∀ v n, stream v n = List.replicate (n / 256) (.repeatDataWord v 0) ++
    (if n % 256 = 0 then [] else [.repeatDataWord v (BitVec.ofNat 8 (n % 256))])) ∧
  (∀ (c : Config) (d : Screen) (v : Pixel) (n : Nat),
    applyTrace c d (stream v n) = applyTrace c d (List.replicate n (.writeDataWord v)))

/-- 20_memory.md section 2: `OpenRegion` opens a Region that is not inverted and lies inside the display, and otherwise calls `idle()` and
raises `RegionRange`. -/
def Obligations.OpenRegionChecksTheRegion : Prop :=
  ∀ (c : Config) (xa ya xb yb : Int),
    ((0 ≤ xa ∧ xa ≤ xb ∧ xb < c.dispW ∧ 0 ≤ ya ∧ ya ≤ yb ∧ yb < c.dispH) →
      openRegion c xa ya xb yb
        = { calls := [.beginRegion xa.toNat ya.toNat xb.toNat yb.toNat], cause := none }) ∧
    (¬ (0 ≤ xa ∧ xa ≤ xb ∧ xb < c.dispW ∧ 0 ≤ ya ∧ ya ≤ yb ∧ yb < c.dispH) →
      openRegion c xa ya xb yb = { calls := [.idle], cause := some .regionRange })

/-- 20_memory.md sections 2 and 5: the bus and the frame memory after a command are its trace applied to what they were
before. That the state keeps the trace is the model's choice (log entry 8). -/
def Obligations.ScreenIsTheTraceApplied : Prop :=
  ∀ (i : Instr) (s t : State), exec i s = .next t → t.screen = applyTrace s.cfg s.screen t.trace

/-! ### Whole-machine rules (10_state.md, 60_exceptions.md) -/

/-- 10_state.md sections 2 and 5: `FG` is written only by SETFG, `BG` only by SETBG, `RES1` only by UNITVEC, `RES0` only
by the compositor commands and UNITVEC, and no command changes the parameters or takes a further input. -/
def Obligations.RegistersAreWrittenOnlyByTheirCommands : Prop :=
  ∀ (i : Instr) (s t : State), exec i s = .next t →
    (t.fg = s.fg ∨ ∃ c, i = .setfg c ∧ t.fg = c) ∧
    (t.bg = s.bg ∨ ∃ c, i = .setbg c ∧ t.bg = c) ∧
    (t.res1 = s.res1 ∨ ∃ a, i = .unitvec a) ∧
    (t.res0 = s.res0 ∨ (∃ a, i = .unitvec a) ∨ (∃ n, i = .sqrt n) ∨ (∃ p a, i = .mulch p a) ∨
      (∃ p a, i = .mulpx p a) ∨ (∃ f b a, i = .blendch f b a) ∨ (∃ f b a, i = .blendpx f b a)) ∧
    t.cfg = s.cfg ∧ t.inbox = s.inbox

/-- 60_exceptions.md section 2: a command that changes `STATUS` has taken fault entry: the opcode, the cause and `FAULT` are in `STATUS`, the
reserved bits are 0, and `FG`, `BG`, `RES0` and `RES1` are unchanged, the response carries them, and the bus is
`Idle` if it was. -/
def Obligations.FaultEntryWritesOnlyStatus : Prop :=
  ∀ (i : Instr) (s t : State), exec i s = .next t → t.status ≠ s.status →
    ∃ c : Cause, t.status = i.opcode ++ c.code ++ 0b000#3 ++ 0b1#1 ∧
      t.fg = s.fg ∧ t.bg = s.bg ∧ t.res0 = s.res0 ∧ t.res1 = s.res1 ∧
      t.rsp = some (t.status ++ s.res1 ++ s.res0) ∧ (s.screen.bus = .idle → t.screen.bus = .idle)

/-- 10_state.md section 7 and 20_memory.md section 1: the frame memory is write-only for the block. Two states that
differ only in it give the same registers, trace, response and remaining inputs. -/
def Obligations.FrameMemoryIsNeverRead : Prop :=
  ∀ (s : State) (fb : Memory) (t : State), step s = .next t →
    ∃ t', step { s with screen := { s.screen with fb := fb } } = .next t' ∧
      { t' with screen := t.screen } = t ∧ t'.screen.bus = t.screen.bus

/-- 20_memory.md section 2: every command's trace keeps the adapter's protocol: Regions are opened only while the bus is
`Idle` and only inside the display, words go only into an open Region and never more than it has pixels, `sendCommand`
is never called, and the bus is left `Idle`. -/
def Obligations.EveryTraceIsLegal : Prop :=
  ∀ (i : Instr) (s t : State), exec i s = .next t → traceLegal s.cfg t.trace

/-- R58: no trace of the block contains `sendCommand`. -/
def Obligations.SendCommandIsNeverCalled : Prop :=
  ∀ (s t : State), step s = .next t → s.inbox ≠ [] → ∀ op args, DpaCall.sendCommand op args ∉ t.trace

/-- 41_line_rasterizer.md section 3, 42_ring_rasterizer.md section 4, 44_glyph_decoder.md section 1: a paint command that
passes decode makes at least one adapter call, its last call is `idle()`, and it leaves the bus `Idle`, faulting or not,
whatever the bus was. That nothing was painted is read as no call having been made (log entry 10). -/
def Obligations.PaintCommandsEndWithIdle : Prop :=
  ∀ (i : Instr) (s t : State), paints i = true → i.wellFormed = true → exec i s = .next t →
    t.trace.getLast? = some .idle ∧ t.screen.bus = .idle

/-- Every step keeps the invariant: parameters in bounds, frame memory canonical and inside the display, bus `Idle`,
`STATUS` a legal value, the last trace legal, the last response the registers' values. The canonical form, and that the
state keeps trace and response, are the model's choice (log entries 4 and 8). -/
def Obligations.EveryStepKeepsTheInvariant : Prop :=
  ∀ s t : State, s.Inv → step s = .next t → t.Inv

/-- 70_reset_and_hazards.md section 1: the state after reset has the invariant. Its trace and response are the model's
choice (log entry 8). -/
def Obligations.ResetHasTheInvariant : Prop := State.reset.Inv

/-! ### Control commands (45_control.md) -/

/-- R240: NOP reads and writes no state and makes no adapter call; its only effect is its response. Its word is the
all-zero word, any other bit below 120 set is `ReservedNonzero`, and after reset it answers 0. -/
def Obligations.NopOnlyAnswers : Prop :=
  (∀ s : State, exec .nop s = .next { s with trace := [], rsp := some (s.status ++ s.res1 ++ s.res0) }) ∧
  encode .nop = 0 ∧
  (∀ w : CommandWord, opByte w = 0x00 → w ≠ 0 → decode w = .error .reservedNonzero) ∧
  (∃ t, step (State.reset.withFetchWord 128 0) = .next t ∧ t.rsp = some 0x000000000000#48)

/-- 45_control.md: SETFG writes `FG` only, with an empty trace, for every 16-bit value. -/
def Obligations.SetfgWritesOnlyFg : Prop :=
  ∀ (colour : Pixel) (s : State),
    exec (.setfg colour) s
      = .next { s with fg := colour, trace := [], rsp := some (s.status ++ s.res1 ++ s.res0) }

/-- 45_control.md: SETBG writes `BG` only, with an empty trace, for every 16-bit value. -/
def Obligations.SetbgWritesOnlyBg : Prop :=
  ∀ (colour : Pixel) (s : State),
    exec (.setbg colour) s
      = .next { s with bg := colour, trace := [], rsp := some (s.status ++ s.res1 ++ s.res0) }

/-! ### Compositor (40_compositor.md) -/

/-- 40_compositor.md section 2: SQRT of an operand up to 4095 leaves the floor of its square root in `RES0`, 0 to 63, and
changes nothing else but the trace, which is empty, and the response. -/
def Obligations.SqrtGivesTheFloorSquareRoot : Prop :=
  ∀ (n : Word) (s : State), n.toNat ≤ 4095 →
    Nat.sqrt n.toNat ≤ 63 ∧
    exec (.sqrt n) s = .next { s with
      res0 := BitVec.ofNat 16 (Nat.sqrt n.toNat), trace := [],
      rsp := some (s.status ++ s.res1 ++ BitVec.ofNat 16 (Nat.sqrt n.toNat)) }

/-- 40_compositor.md section 3: MULCH of two channels leaves `((p * p) div 4) * a` whole in `RES0`, at most 62496. -/
def Obligations.MulchGivesTheExactProduct : Prop :=
  ∀ (p a : Word) (s : State), p.toNat ≤ 63 → a.toNat ≤ 63 →
    ∃ r : Word, r.toNat = p.toNat * p.toNat / 4 * a.toNat ∧ r.toNat ≤ 62496 ∧
      exec (.mulch p a) s = .next { s with res0 := r, trace := [], rsp := some (s.status ++ s.res1 ++ r) }

/-- 40_compositor.md section 4: MULPX leaves in `RES0` the pixel itself for alpha 63 or more, and else the pixel whose
every lane `c`, widened to 6 bits, is `floor(sqrt((((c * c) div 4) * alpha) >> 4))`; red and blue lose their low bit. -/
def Obligations.MulpxScalesEachLane : Prop :=
  ∀ (px : Pixel) (alpha : Word) (s : State),
    ∃ r : Pixel,
      (63 ≤ alpha.toNat → r = px) ∧
      (alpha.toNat < 63 →
        redField r = Nat.sqrt (2 * redField px * (2 * redField px) / 4 * alpha.toNat / 16) / 2 ∧
        greenField r = Nat.sqrt (greenField px * greenField px / 4 * alpha.toNat / 16) ∧
        blueField r = Nat.sqrt (2 * blueField px * (2 * blueField px) / 4 * alpha.toNat / 16) / 2) ∧
      exec (.mulpx px alpha) s = .next { s with res0 := r, trace := [], rsp := some (s.status ++ s.res1 ++ r) }

/-- 40_compositor.md section 5: BLENDCH of three values up to 63 leaves in `RES0` one square root of the shifted sum of
both contributions, at most 62: no short-circuit at channel level. -/
def Obligations.BlendchSharesOneSquareRoot : Prop :=
  ∀ (f b a : Word) (s : State), f.toNat ≤ 63 → b.toNat ≤ 63 → a.toNat ≤ 63 →
    ∃ r : Word,
      r.toNat = Nat.sqrt ((f.toNat * f.toNat / 4 * a.toNat + b.toNat * b.toNat / 4 * (63 - a.toNat)) / 16) ∧
      r.toNat ≤ 62 ∧
      exec (.blendch f b a) s = .next { s with res0 := r, trace := [], rsp := some (s.status ++ s.res1 ++ r) }

/-- 40_compositor.md section 6: BLENDPX leaves in `RES0`: over the sentinel background 0, what MULPX gives; else the
foreground for alpha 63 or more, the background for alpha 0, and between them the lanes blended with one square root
each. -/
def Obligations.BlendpxBlendsEachLane : Prop :=
  ∀ (fg bg : Pixel) (alpha : Word) (s : State),
    ∃ r : Pixel,
      (bg = 0 → ∃ t, exec (.mulpx fg alpha) s = .next t ∧ t.res0 = r) ∧
      (bg ≠ 0 → 63 ≤ alpha.toNat → r = fg) ∧
      (bg ≠ 0 → alpha.toNat = 0 → r = bg) ∧
      (bg ≠ 0 → 0 < alpha.toNat → alpha.toNat < 63 →
        redField r = Nat.sqrt ((2 * redField fg * (2 * redField fg) / 4 * alpha.toNat
          + 2 * redField bg * (2 * redField bg) / 4 * (63 - alpha.toNat)) / 16) / 2 ∧
        greenField r = Nat.sqrt ((greenField fg * greenField fg / 4 * alpha.toNat
          + greenField bg * greenField bg / 4 * (63 - alpha.toNat)) / 16) ∧
        blueField r = Nat.sqrt ((2 * blueField fg * (2 * blueField fg) / 4 * alpha.toNat
          + 2 * blueField bg * (2 * blueField bg) / 4 * (63 - alpha.toNat)) / 16) / 2) ∧
      exec (.blendpx fg bg alpha) s = .next { s with res0 := r, trace := [], rsp := some (s.status ++ s.res1 ++ r) }

/-- 30_encoding.md sections 1 and 2: an operand out of the range of its kind makes SQRT, MULCH, BLENDCH and PAIR fault
with `OperandRange`, cause 3, with an empty trace and nothing changed but `STATUS`. That the meaning makes this check, and
not the decoder, is read from the spec (log entry 12). -/
def Obligations.OperandOutOfRangeFaults : Prop :=
  ∀ (i : Instr) (s : State), i.wellFormed = false →
    exec i s = .next { s with
      status := i.opcode ++ 3#4 ++ 0b000#3 ++ 0b1#1, trace := [],
      rsp := some ((i.opcode ++ 3#4 ++ 0b000#3 ++ 0b1#1 : Word) ++ s.res1 ++ s.res0) }

/-- R131: over the sentinel background the general blend and the pure multiply paint the same pixel. -/
def Obligations.SentinelPathEqualsTheGeneralPath : Prop :=
  ∀ (fg : Pixel) (alpha : Nat), 1 ≤ alpha → alpha ≤ 62 →
    pack (blendch (expR fg) 0 alpha) (blendch (expG fg) 0 alpha) (blendch (expB fg) 0 alpha) = mulpx fg alpha

/-- R124: `scale(c, a)` is the square root of the product shifted by 4; it lies in 0 to 62, never falls in either
argument, and is 0 when either is. -/
def Obligations.ScaleIsMonotoneAndBounded : Prop :=
  ∀ c a : Nat, c ≤ 63 → a ≤ 63 →
    scale c a = isqrt6 (mulch c a >>> 4) ∧ scale c a ≤ 62 ∧ scale c 0 = 0 ∧ scale 0 a = 0 ∧
    (∀ c', c ≤ c' → c' ≤ 63 → scale c a ≤ scale c' a) ∧ (∀ a', a ≤ a' → a' ≤ 63 → scale c a ≤ scale c a')

/-- 40_compositor.md section 1: packing the lanes of a pixel gives the pixel back, and the lanes are the fields of
30_encoding.md section 4, red and blue doubled. -/
def Obligations.PackOfLanesIsThePixel : Prop :=
  ∀ px : Pixel, pack (expR px) (expG px) (expB px) = px ∧
    expR px = 2 * redField px ∧ expG px = greenField px ∧ expB px = 2 * blueField px

/-- 95_test_vectors.md S1, 90_conflicts.md C7: blending a colour with itself dims every lane that is not 0 by one
step. -/
def Obligations.SelfBlendDimsByOneStep : Prop :=
  ∀ (p : Pixel) (alpha : Nat), 1 ≤ alpha → alpha ≤ 62 → p ≠ 0 →
    redField (blendpx p p alpha) = redField p - 1 ∧
    greenField (blendpx p p alpha) = greenField p - 1 ∧
    blueField (blendpx p p alpha) = blueField p - 1

/-! ### Sine table (43_sine_table.md) -/

/-- 43_sine_table.md section 4: UNITVEC leaves `to16(dx)` in `RES0` and `to16(dy)` in `RES1`, where with `th` the angle
20 degrees further round, modulo a turn of 288 steps, `(dx, dy) = (-S(th), S(th + 72))`, and changes nothing else but
the trace, which is empty, and the response. `S` runs the table forwards in even quadrants, backwards in odd ones, and
is negative in the second half turn. -/
def Obligations.UnitvecGivesTheDirection : Prop :=
  ∀ (angle : Word) (s : State),
    let th := (angle.toNat + 16) % 288
    let Q := fun idx : Nat => ((s.cfg.sine[min idx 69]!).toNat : Int)
    let S := fun t : Nat =>
      if t < 72 then Q t else if t < 144 then Q (144 - t) else if t < 216 then -Q (t - 144) else -Q (288 - t)
    exec (.unitvec angle) s = .next { s with
      res0 := BitVec.ofInt 16 (-S th), res1 := BitVec.ofInt 16 (S ((th + 72) % 288)), trace := [],
      rsp := some (s.status ++ BitVec.ofInt 16 (S ((th + 72) % 288)) ++ BitVec.ofInt 16 (-S th)) }

/-- 43_sine_table.md section 3: the full-circle sine changes sign half a turn on, lies in -255 to 255, and
is symmetric about the quarter turn for every table whose entry 0 is 0. -/
def Obligations.SineSymmetries : Prop :=
  ∀ (c : Config) (t : Nat), t < 288 →
    fullSine c ((t + 144) % 288) = -fullSine c t ∧
    (c.sine[0] = 0 → t ≤ 144 → fullSine c (144 - t) = fullSine c t) ∧
    -255 ≤ fullSine c t ∧ fullSine c t ≤ 255

/-- 43_sine_table.md section 4: angles a whole turn of 288 steps apart give the same results when both fit 16 bits. -/
def Obligations.UnitvecIsPeriodic : Prop :=
  ∀ (a b : Word) (s : State), b.toNat = a.toNat + 288 → exec (.unitvec a) s = exec (.unitvec b) s

/-! ### Line rasterizer (41_line_rasterizer.md) -/

/-- 41_line_rasterizer.md section 1: a FILL inside the display opens its rectangle, streams `w * h` words of its colour
and releases the bus; exactly the pixels of the rectangle take the colour; no register changes. -/
def Obligations.FillPaintsItsRectangle : Prop :=
  ∀ (x y w h : Word) (colour : Pixel) (s : State), s.cfg.wf →
    0 < w.toNat → 0 < h.toNat → x.toNat + w.toNat ≤ s.cfg.dispW → y.toNat + h.toNat ≤ s.cfg.dispH →
    ∃ t, exec (.fill x y w h colour) s = .next t ∧ OnlyPainted s t ∧
      t.trace = .beginRegion x.toNat y.toNat (x.toNat + w.toNat - 1) (y.toNat + h.toNat - 1)
        :: stream colour (w.toNat * h.toNat) ++ [.idle] ∧
      t.screen.bus = .idle ∧
      (∀ a b, inRectangle x.toNat y.toNat w.toNat h.toNat a b → t.pixel a b = some colour) ∧
      UnchangedOutside s t (inRectangle x.toNat y.toNat w.toNat h.toNat)

/-- 41_line_rasterizer.md section 1: a FILL of zero width or height makes one `idle()`, paints nothing and does not
fault; any other that reaches past the display makes one `idle()`, paints nothing and faults with `RegionRange`, the sums
being exact. -/
def Obligations.FillThatPaintsNothing : Prop :=
  ∀ (x y w h : Word) (colour : Pixel) (s : State),
    ∃ t, exec (.fill x y w h colour) s = .next t ∧
      (w.toNat = 0 ∨ h.toNat = 0 →
        OnlyPainted s t ∧ t.trace = [.idle] ∧ t.screen = { s.screen with bus := .idle }) ∧
      (w.toNat ≠ 0 → h.toNat ≠ 0 → (s.cfg.dispW < x.toNat + w.toNat ∨ s.cfg.dispH < y.toNat + h.toNat) →
        FaultedWith 0x20 .regionRange s t ∧ t.trace = [.idle] ∧ t.screen = { s.screen with bus := .idle })

/-- 41_line_rasterizer.md section 1: FILL streams exactly as many words as its Region has pixels. -/
def Obligations.FillStreamsOneWordForEachPixel : Prop :=
  ∀ (c : Config) (x y w h : Nat) (colour : Pixel), (fillPaint c x y w h colour).cause = none → w ≠ 0 → h ≠ 0 →
    dataWords (fillPaint c x y w h colour).calls = List.replicate (w * h) colour ∧
    (fillPaint c x y w h colour).calls.head? = some (.beginRegion x y (x + w - 1) (y + h - 1))

/-- 41_line_rasterizer.md section 2: a PAIR inside the display paints exactly its pixel with the blend of weight
`63 - min(alpha, 63)` and its neighbour, on the side `dir` names, with the blend of weight `min(alpha, 63)`, in one
Region, lower coordinate first; no register changes. -/
def Obligations.PairPaintsTwoPixels : Prop :=
  ∀ (x y dir alpha : Word) (s : State) (nx ny : Nat), s.cfg.wf →
    ((dir = 0 ∧ nx = x.toNat + 1 ∧ ny = y.toNat) ∨ (dir = 1 ∧ nx + 1 = x.toNat ∧ ny = y.toNat) ∨
      (dir = 2 ∧ nx = x.toNat ∧ ny = y.toNat + 1) ∨ (dir = 3 ∧ nx = x.toNat ∧ ny + 1 = y.toNat)) →
    x.toNat < s.cfg.dispW → nx < s.cfg.dispW → y.toNat < s.cfg.dispH → ny < s.cfg.dispH →
    let near := blendpx s.fg s.bg (63 - min alpha.toNat 63)
    let far := blendpx s.fg s.bg (min alpha.toNat 63)
    ∃ t, exec (.pair x y dir alpha) s = .next t ∧ OnlyPainted s t ∧
      t.trace = [.beginRegion (min x.toNat nx) (min y.toNat ny) (max x.toNat nx) (max y.toNat ny),
        .writeDataWord (if dir = 0 ∨ dir = 2 then near else far),
        .writeDataWord (if dir = 0 ∨ dir = 2 then far else near), .idle] ∧
      t.screen.bus = .idle ∧
      t.pixel x.toNat y.toNat = some near ∧ t.pixel nx ny = some far ∧
      UnchangedOutside s t fun a b => (a = x.toNat ∧ b = y.toNat) ∨ (a = nx ∧ b = ny)

/-- 41_line_rasterizer.md section 2: a PAIR with `dir` up to 3, one of whose pixels is off the display, makes one `idle()`,
paints nothing and faults with `RegionRange`. -/
def Obligations.PairOffTheDisplayFaults : Prop :=
  ∀ (x y dir alpha : Word) (s : State), dir.toNat ≤ 3 →
    (¬ pixelOnDisplay s.cfg (x.toNat, y.toNat) ∨
      ¬ pixelOnDisplay s.cfg (neighbour x.toNat y.toNat (dir = 0 ∨ dir = 1) (if dir = 0 ∨ dir = 2 then 1 else -1))) →
    ∃ t, exec (.pair x y dir alpha) s = .next t ∧ FaultedWith 0x24 .regionRange s t ∧
      t.trace = [.idle] ∧ t.screen = { s.screen with bus := .idle }

/-- R161: the loop of LINE computes the closed forms: at step `i` the minor offset is `(i * dmin) div dmaj`, the
remainder `(i * dmin) mod dmaj`, and the alpha at most 62, so that the line is the pairs of the steps `minExtent` to
`maxExtent` in closed form. -/
def Obligations.LineLoopHasItsClosedForm : Prop :=
  ∀ (c : Config) (fg bg : Pixel) (x0 y0 : Nat) (dx dy : Int) (minE maxE : Nat), (lineDir dx dy).dmaj ≠ 0 →
    linePaint c fg bg x0 y0 dx dy minE maxE
      = (Paint.forEach (lineStep c fg bg (lineDir dx dy) x0 y0) (List.range' minE (maxE + 1 - minE))).orIdle ∧
    (∀ i, lineRemainder (lineDir dx dy) i < (lineDir dx dy).dmaj ∧ lineAlpha (lineDir dx dy) i ≤ 62)

/-- 41_line_rasterizer.md section 3: a LINE all of whose pairs lie on the display paints, for each step from `minExtent`
to `maxExtent`, the line's pixel with weight `63 - alpha` and its neighbour with weight `alpha`, and no other pixel; no
register changes. -/
def Obligations.LinePaintsItsPairs : Prop :=
  ∀ (x0 y0 dx dy minE maxE : Word) (s : State), s.cfg.wf →
    let d := lineDir dx.toInt dy.toInt
    (dx ≠ 0 ∨ dy ≠ 0) → minE.toNat ≤ maxE.toNat →
    (∀ i, minE.toNat ≤ i → i ≤ maxE.toNat →
      pixelOnDisplay s.cfg (lineNear d x0.toNat y0.toNat i) ∧ pixelOnDisplay s.cfg (lineFar d x0.toNat y0.toNat i)) →
    ∃ t, exec (.line x0 y0 dx dy minE maxE) s = .next t ∧ OnlyPainted s t ∧
      t.trace = (List.range' minE.toNat (maxE.toNat + 1 - minE.toNat)).flatMap
        (fun i => (lineStep s.cfg s.fg s.bg d x0.toNat y0.toNat i).calls) ∧
      t.screen.bus = .idle ∧
      (∀ i, minE.toNat ≤ i → i ≤ maxE.toNat →
        t.pixel (lineNear d x0.toNat y0.toNat i).1.toNat (lineNear d x0.toNat y0.toNat i).2.toNat
          = some (blendpx s.fg s.bg (63 - lineAlpha d i)) ∧
        t.pixel (lineFar d x0.toNat y0.toNat i).1.toNat (lineFar d x0.toNat y0.toNat i).2.toNat
          = some (blendpx s.fg s.bg (lineAlpha d i))) ∧
      UnchangedOutside s t fun a b => ∃ i, minE.toNat ≤ i ∧ i ≤ maxE.toNat ∧
        (((a : Int), (b : Int)) = lineNear d x0.toNat y0.toNat i ∨
          ((a : Int), (b : Int)) = lineFar d x0.toNat y0.toNat i)

/-- 41_line_rasterizer.md section 3: a LINE of zero direction, or with `minExtent > maxExtent`, makes one `idle()` and
nothing else; no register changes. -/
def Obligations.LineThatPaintsNothing : Prop :=
  ∀ (x0 y0 dx dy minE maxE : Word) (s : State), (dx = 0 ∧ dy = 0) ∨ maxE.toNat < minE.toNat →
    ∃ t, exec (.line x0 y0 dx dy minE maxE) s = .next t ∧ OnlyPainted s t ∧
      t.trace = [.idle] ∧ t.screen = { s.screen with bus := .idle }

/-- 60_exceptions.md section 2, 41_line_rasterizer.md section 3: a LINE whose pair of step `j` is the first to leave the
display has painted the pairs before it, and then calls `idle()` and faults with `RegionRange`. -/
def Obligations.LineKeepsThePairsBeforeItsFault : Prop :=
  ∀ (x0 y0 dx dy minE maxE : Word) (s : State) (j : Nat),
    let d := lineDir dx.toInt dy.toInt
    (dx ≠ 0 ∨ dy ≠ 0) → minE.toNat ≤ j → j ≤ maxE.toNat →
    (∀ i, minE.toNat ≤ i → i < j →
      pixelOnDisplay s.cfg (lineNear d x0.toNat y0.toNat i) ∧ pixelOnDisplay s.cfg (lineFar d x0.toNat y0.toNat i)) →
    ¬ (pixelOnDisplay s.cfg (lineNear d x0.toNat y0.toNat j) ∧ pixelOnDisplay s.cfg (lineFar d x0.toNat y0.toNat j)) →
    ∃ t, exec (.line x0 y0 dx dy minE maxE) s = .next t ∧ FaultedWith 0x21 .regionRange s t ∧
      t.trace = (List.range' minE.toNat (j - minE.toNat)).flatMap
        (fun i => (lineStep s.cfg s.fg s.bg d x0.toNat y0.toNat i).calls) ++ [.idle] ∧
      t.screen = applyTrace s.cfg s.screen t.trace ∧ t.screen.bus = .idle

/-! ### Ring rasterizer (42_ring_rasterizer.md) -/

/-- 42_ring_rasterizer.md section 2: the closed forms of the tracker, the largest `X` with `X * X + y * y <= r * r` and the
decision variable, agree with the midpoint-circle recurrence advanced row by row, and lie in their stated ranges. The arithmetic is the
spec's own decision, and the search that finds `X` is the model's (log entry 15). -/
def Obligations.TrackerMatchesItsClosedForm : Prop :=
  ∀ r y : Nat, r ≤ 65535 → y ≤ r →
    ringX r y = Nat.sqrt (r * r - y * y) ∧ ringX r y ≤ r ∧ ringE r y ≤ 2 * ringX r y ∧ ringLum r y ≤ 62 ∧
    (trackerAt r y).x = ringX r y ∧ (trackerAt r y).e = -(ringE r y : Int)

/-- 42_ring_rasterizer.md section 5: a span of the distances `from..to` streams exactly one word for each of its pixels. -/
def Obligations.SpanStreamsOneWordForEachPixel : Prop :=
  ∀ (col : Nat → Pixel) (sign : Int) (a b : Nat), a ≤ b → (dataWords (spanWords col sign a b)).length = b - a + 1

/-- 42_ring_rasterizer.md section 5: the words of a span painted by RING are the colours of its pixels in the cursor's
order, the middle ones being `FG`. -/
def Obligations.SpanWordsAreThePixelColours : Prop :=
  ∀ (fg bg : Pixel) (ri ro y a b : Nat), ri ≤ 65535 → ro ≤ 65535 → rowInLoop ro y → rowFirst ri y ≤ a → y ≤ a → a ≤ b →
    b = rowLast ro y →
    dataWords (spanWords (ringColour fg bg ri ro y) 1 a b)
      = (List.range' a (b - a + 1)).map (ringColour fg bg ri ro y) ∧
    dataWords (spanWords (ringColour fg bg ri ro y) (-1) a b)
      = ((List.range' a (b - a + 1)).map (ringColour fg bg ri ro y)).reverse ∧
    (∀ x, a < x → x < b → ringColour fg bg ri ro y x = fg)

/-- 42_ring_rasterizer.md sections 1 and 5: a RING that lies on the display with its margin of one pixel emits the spans of
the rows 0, 1, … in order, in each row the horizontal ones before the vertical ones; so it paints the pixel at offset
`(u, v)` exactly when the loop reaches the row of the lesser of `|u|`, `|v|` and the greater lies in that row's span, with
the blend of weight `L`, and paints no other pixel; no register changes. -/
def Obligations.RingPaintsExactlyItsPixels : Prop :=
  ∀ (cx cy ri ro : Word) (s : State), s.cfg.wf → ri.toNat ≤ ro.toNat →
    ro.toNat + 1 ≤ cx.toNat → cx.toNat + ro.toNat + 1 < s.cfg.dispW →
    ro.toNat + 1 ≤ cy.toNat → cy.toNat + ro.toNat + 1 < s.cfg.dispH →
    ∃ t, exec (.ring cx cy ri ro) s = .next t ∧ OnlyPainted s t ∧
      t.trace = (ringSpans cx.toNat cy.toNat ri.toNat ro.toNat).flatMap
        (fun sp => (sp.paint s.cfg s.fg s.bg ri.toNat ro.toNat).calls) ∧
      t.screen.bus = .idle ∧
      (∀ u v : Int, ringCovers ri.toNat ro.toNat (max u.natAbs v.natAbs) (min u.natAbs v.natAbs) →
        t.pixel (cx.toNat + u).toNat (cy.toNat + v).toNat
          = some (blendpx s.fg s.bg (ringL ri.toNat ro.toNat (max u.natAbs v.natAbs) (min u.natAbs v.natAbs)))) ∧
      UnchangedOutside s t fun a b =>
        let u := (a : Int) - cx.toNat
        let v := (b : Int) - cy.toNat
        ringCovers ri.toNat ro.toNat (max u.natAbs v.natAbs) (min u.natAbs v.natAbs)

/-- 42_ring_rasterizer.md sections 4 and 6, 60_exceptions.md section 2: a RING that is not empty and does not lie on the
display with its margin of one pixel faults with `RegionRange` in row 0: its calls are those of the spans of row 0 (right,
left, down, up) before the first that leaves the display, which stay painted, and then `idle()`. -/
def Obligations.RingOffTheDisplayFaults : Prop :=
  ∀ (cx cy ri ro : Word) (s : State), ri.toNat ≤ ro.toNat →
    ¬ (ro.toNat + 1 ≤ cx.toNat ∧ cx.toNat + ro.toNat + 1 < s.cfg.dispW ∧
      ro.toNat + 1 ≤ cy.toNat ∧ cy.toNat + ro.toNat + 1 < s.cfg.dispH) →
    let spans := ringRowSpans cx.toNat cy.toNat ri.toNat ro.toNat 0
    ∃ t, exec (.ring cx cy ri ro) s = .next t ∧ FaultedWith 0x22 .regionRange s t ∧
      (∃ sp ∈ spans, ¬ sp.onDisplay s.cfg) ∧
      t.trace = (spans.takeWhile fun sp => decide (sp.onDisplay s.cfg)).flatMap
        (fun sp => (sp.paint s.cfg s.fg s.bg ri.toNat ro.toNat).calls) ++ [.idle] ∧
      t.screen = applyTrace s.cfg s.screen t.trace ∧ t.screen.bus = .idle

/-- 42_ring_rasterizer.md sections 4 and 6: with an inner radius above the outer one RING makes one `idle()` and nothing
else; no register changes. -/
def Obligations.RingThatPaintsNothing : Prop :=
  ∀ (cx cy ri ro : Word) (s : State), ro.toNat < ri.toNat →
    ∃ t, exec (.ring cx cy ri ro) s = .next t ∧ OnlyPainted s t ∧
      t.trace = [.idle] ∧ t.screen = { s.screen with bus := .idle }

/-- 42_ring_rasterizer.md sections 3 and 6: on the axes the ring is full from `ri + 1` to `ro`, the pixel at `ro + 1` has
luminance 0, and every luminance is at most 63; no pixel of the hole, whose row `y` reaches to `RingX(ri, y)`, is ever
painted. -/
def Obligations.RingThicknessOnTheAxes : Prop :=
  ∀ ri ro : Nat, ri ≤ ro → ro ≤ 65535 →
    (∀ x, ri < x → x ≤ ro → ringL ri ro x 0 = 63) ∧ ringL ri ro (ro + 1) 0 = 0 ∧
    rowFirst ri 0 = ri + 1 ∧ rowLast ro 0 = ro + 1 ∧ ¬ ringCovers ri ro 0 0 ∧
    (∀ x y, y ≤ ri → x ≤ ringX ri y → ¬ ringCovers ri ro x y) ∧
    (∀ x y, ringL ri ro x y ≤ 63)

/-! ### Glyph decoder (44_glyph_decoder.md) -/

/-- R224: a run token of length 0 (`0x40`, `0x80`) streams nothing, makes no adapter call and counts 0. -/
def Obligations.EmptyRunMakesNoCall : Prop :=
  ∀ (fg : Pixel) (b : Byte) (rest : List Byte) (rem : Nat), b = 0x40 ∨ b = 0x80 →
    (tokenOf b).words fg = [] ∧ (tokenOf b).pixels = 0 ∧ glyphLoop fg (b :: rest) rem = glyphLoop fg rest rem

/-- 44_glyph_decoder.md section 1: a well-formed glyph on the display, whose tokens stand for exactly `width * height`
pixels, opens its rectangle, makes the calls of its tokens in order and releases the bus; it paints its rectangle row by
row with the paint colour scaled by the tokens' alphas, and no other pixel; no register changes, and `BG` plays no
part. -/
def Obligations.GlyphPaintsItsTokens : Prop :=
  ∀ (x y addr : Word) (s : State) (width height : Nat) (as : List Nat), s.cfg.wf →
    memRead16 s.cfg addr.toNat = some width → memRead16 s.cfg (addr.toNat + 2) = some height →
    0 < width → 0 < height → x.toNat + width ≤ s.cfg.dispW → y.toNat + height ≤ s.cfg.dispH →
    glyphAlphas (s.cfg.gmem.drop (addr.toNat + 4)) = some as → as.length = width * height →
    ∃ t, exec (.glyph x y addr) s = .next t ∧ OnlyPainted s t ∧ t.screen.bus = .idle ∧
      t.trace = .beginRegion x.toNat y.toNat (x.toNat + width - 1) (y.toNat + height - 1)
        :: (glyphTaken (s.cfg.gmem.drop (addr.toNat + 4)) (width * height)).flatMap (Token.words s.fg) ++ [.idle] ∧
      dataWords t.trace = as.map (mulpx s.fg) ∧
      (∀ i (h : i < as.length), t.pixel (x.toNat + i % width) (y.toNat + i / width) = some (mulpx s.fg as[i])) ∧
      UnchangedOutside s t (inRectangle x.toNat y.toNat width height)

/-- 44_glyph_decoder.md section 2, 60_exceptions.md section 1: a glyph whose tokens stand for too many pixels faults with
`GlyphOverrun`, one terminated with pixels left with `GlyphUnderrun`, one that runs off glyph memory with
`GlyphMemRange`. In each case the calls are `beginRegion`, those of the tokens before the fault, and `idle()`; the pixels
of those tokens stay painted, in the Region's order, and every other pixel, the tail of the rectangle too, is as it was;
the bus is left `Idle`. -/
def Obligations.MalformedTokensFault : Prop :=
  ∀ (x y addr : Word) (s : State) (width height : Nat), s.cfg.wf →
    memRead16 s.cfg addr.toNat = some width → memRead16 s.cfg (addr.toNat + 2) = some height →
    0 < width → 0 < height → x.toNat + width ≤ s.cfg.dispW → y.toNat + height ≤ s.cfg.dispH →
    let tokens := s.cfg.gmem.drop (addr.toNat + 4)
    let taken := glyphTaken tokens (width * height)
    let as := tokenAlphas taken
    ∃ t, exec (.glyph x y addr) s = .next t ∧
      t.trace = .beginRegion x.toNat y.toNat (x.toNat + width - 1) (y.toNat + height - 1)
        :: taken.flatMap (Token.words s.fg) ++ [.idle] ∧
      t.screen.bus = .idle ∧ dataWords t.trace = as.map (mulpx s.fg) ∧
      (∀ i (h : i < as.length), t.pixel (x.toNat + i % width) (y.toNat + i / width) = some (mulpx s.fg as[i])) ∧
      (UnchangedOutside s t fun a b => ∃ i < as.length, a = x.toNat + i % width ∧ b = y.toNat + i / width) ∧
      (width * height < glyphLength tokens → FaultedWith 0x23 .glyphOverrun s t) ∧
      (glyphLength tokens < width * height → glyphAlphas tokens ≠ none → FaultedWith 0x23 .glyphUnderrun s t) ∧
      (glyphLength tokens ≤ width * height → glyphAlphas tokens = none → FaultedWith 0x23 .glyphMemRange s t)

/-- 44_glyph_decoder.md section 1, 60_exceptions.md section 2: before any token is read, a header outside glyph memory
faults with `GlyphMemRange`, else a zero width or height with `GlyphHeader`, else a rectangle past the display with
`RegionRange`, each with one `idle()` and nothing painted. -/
def Obligations.GlyphHeaderFaultsInOrder : Prop :=
  ∀ (x y addr : Word) (s : State),
    ∃ t, exec (.glyph x y addr) s = .next t ∧
      (s.cfg.gmemSize < addr.toNat + 4 →
        FaultedWith 0x23 .glyphMemRange s t ∧ t.trace = [.idle] ∧ t.screen = { s.screen with bus := .idle }) ∧
      (∀ width height, memRead16 s.cfg addr.toNat = some width → memRead16 s.cfg (addr.toNat + 2) = some height →
        (width = 0 ∨ height = 0 →
          FaultedWith 0x23 .glyphHeader s t ∧ t.trace = [.idle] ∧ t.screen = { s.screen with bus := .idle }) ∧
        (0 < width → 0 < height → (s.cfg.dispW < x.toNat + width ∨ s.cfg.dispH < y.toNat + height) →
          FaultedWith 0x23 .regionRange s t ∧ t.trace = [.idle] ∧ t.screen = { s.screen with bus := .idle }))
end

