-- ==== Sys2Proof/Laws/Memory.lean ====
section
/-! SUPPORT. The frame memory: what a write changes, and that it keeps the canonical form. -/

namespace Sys2Proof.Machine

/-- A pixel written reads as written, and every other key reads as before. -/
theorem Memory.read_write (m : Memory) (k j : Nat) (v : Pixel) :
    (m.write k v).read j = if j = k then some v else m.read j := by
  induction m with
  | nil => simp [Memory.write, Memory.read]
  | cons e m ih =>
    obtain ⟨k', v'⟩ := e
    simp only [Memory.write]
    split
    · simp [Memory.read]
    · split
      · subst k'
        by_cases h : j = k <;> simp [Memory.read, h]
      · rename_i hne
        by_cases h : j = k'
        · have hk : j ≠ k := fun e => hne (by omega)
          simp [Memory.read, h, show k' ≠ k from fun e => hne e.symm]
        · simp [Memory.read, h, ih]

/-- Every entry after a write is the one written or one that stood before. -/
theorem Memory.mem_write {m : Memory} {k : Nat} {v : Pixel} {e : Nat × Pixel} (h : e ∈ m.write k v) :
    e = (k, v) ∨ e ∈ m := by
  induction m with
  | nil => simpa [Memory.write] using h
  | cons a m ih =>
    simp only [Memory.write] at h
    split at h
    · simpa using h
    · split at h
      · rcases List.mem_cons.1 h with h | h
        · exact .inl h
        · exact .inr (List.mem_cons_of_mem _ h)
      · rcases List.mem_cons.1 h with h | h
        · exact .inr (h ▸ List.mem_cons_self ..)
        · exact (ih h).imp id (List.mem_cons_of_mem _)

/-- A write keeps the canonical form. -/
theorem Memory.write_wf {m : Memory} (hm : m.wf) (k : Nat) (v : Pixel) : (m.write k v).wf := by
  induction m with
  | nil => simp [Memory.write]
  | cons a m ih =>
    obtain ⟨hlt, hm'⟩ := List.pairwise_cons.1 hm
    simp only [Memory.write]
    split
    · refine List.pairwise_cons.2 ⟨fun e he => ?_, hm⟩
      rcases List.mem_cons.1 he with rfl | he
      · assumption
      · exact Nat.lt_trans ‹_› (hlt e he)
    · split
      · subst k
        exact List.pairwise_cons.2 ⟨hlt, hm'⟩
      · refine List.pairwise_cons.2 ⟨fun e he => ?_, ih hm'⟩
        rcases Memory.mem_write he with rfl | he
        · simp only; omega
        · exact hlt e he

/-- The frame memory of the state after reset has the canonical form. -/
theorem reset_memory_wf : State.reset.screen.fb.wf := List.Pairwise.nil

/-- Keys of the display's pixels determine the pixel. -/
theorem pixelKey_inj {x y x' y' : Nat} (hx : x < 65536) (hx' : x' < 65536) (h : pixelKey x y = pixelKey x' y') :
    x = x' ∧ y = y' := by
  unfold pixelKey at h; omega

@[simp] theorem pixelKey_mod {x y : Nat} (hx : x < 65536) : pixelKey x y % 65536 = x := by
  unfold pixelKey; omega

@[simp] theorem pixelKey_div {x y : Nat} (hx : x < 65536) : pixelKey x y / 65536 = y := by
  unfold pixelKey; omega

end Sys2Proof.Machine
end

