-- ==== Sys2Proof/Laws/Adapter.lean ====
section
/-! SUPPORT. The adapter: what a list of data words does to an open Region, and what one whole Region (opened, filled,
released) does to the screen. -/

namespace Sys2Proof.Machine

@[simp] theorem applyTrace_nil (c : Config) (d : Screen) : applyTrace c d [] = d := rfl

@[simp] theorem applyTrace_cons (c : Config) (d : Screen) (call : DpaCall) (calls : List DpaCall) :
    applyTrace c d (call :: calls) = applyTrace c (applyCall c d call) calls := rfl

@[simp] theorem applyTrace_append (c : Config) (d : Screen) (a b : List DpaCall) :
    applyTrace c d (a ++ b) = applyTrace c (applyTrace c d a) b := by
  simp [applyTrace]

@[simp] theorem applyCall_idle_bus (c : Config) (d : Screen) : (applyCall c d .idle).bus = .idle := rfl

@[simp] theorem applyCall_idle_fb (c : Config) (d : Screen) : (applyCall c d .idle).fb = d.fb := rfl

/-! ### Data words -/

/-- A call that streams data words. -/
def DpaCall.isData : DpaCall → Bool
  | .writeDataWord _ => true
  | .repeatDataWord _ _ => true
  | _ => false

@[simp] theorem dataWords_append (a b : List DpaCall) : dataWords (a ++ b) = dataWords a ++ dataWords b := by
  induction a with
  | nil => rfl
  | cons x a ih => cases x <;> simp [dataWords, ih]

theorem repeatLength_zero : repeatLength 0#8 = 256 := rfl

theorem repeatLength_ofNat {n : Nat} (h0 : 0 < n) (h : n < 256) : repeatLength (BitVec.ofNat 8 n) = n := by
  have hn : BitVec.ofNat 8 n ≠ 0#8 := fun e => by
    have := congrArg BitVec.toNat e
    rw [BitVec.toNat_ofNat, Nat.mod_eq_of_lt h] at this
    exact absurd this (by simp; omega)
  simp only [repeatLength, hn, if_false, BitVec.toNat_ofNat]
  exact Nat.mod_eq_of_lt h

/-- The words of `n div 256` calls with count 0. -/
theorem dataWords_replicate_zero (v : Pixel) (n : Nat) :
    dataWords (List.replicate n (.repeatDataWord v 0)) = List.replicate (n * 256) v := by
  induction n with
  | zero => rfl
  | succ n ih =>
    simp only [List.replicate_succ, dataWords, ih, List.replicate_append_replicate]
    congr 1
    have : repeatLength 0 = 256 := rfl
    omega

/-- `Stream(v, n)` streams `n` words `v` (20_memory.md R59). -/
@[simp] theorem dataWords_stream (v : Pixel) (n : Nat) : dataWords (stream v n) = List.replicate n v := by
  unfold stream
  rw [dataWords_append, dataWords_replicate_zero]
  split
  · rw [dataWords, dataWords, repeatLength_ofNat (by omega) (by omega), List.append_nil,
      List.replicate_append_replicate]
    congr 1; omega
  · rw [dataWords, List.append_nil]
    congr 1; omega

theorem isData_stream (v : Pixel) (n : Nat) : ∀ call ∈ stream v n, call.isData = true := by
  intro call h
  unfold stream at h
  rcases List.mem_append.1 h with h | h
  · rw [(List.mem_replicate.1 h).2]; rfl
  · split at h
    · rw [List.mem_singleton.1 h]; rfl
    · cases h

/-- A list of words handed over one after another. -/
def Screen.writeList (ws : List Pixel) (d : Screen) : Screen := ws.foldl (fun d v => d.writeWord v) d

@[simp] theorem Screen.writeList_nil (d : Screen) : d.writeList [] = d := rfl

@[simp] theorem Screen.writeList_cons (d : Screen) (v : Pixel) (ws : List Pixel) :
    d.writeList (v :: ws) = (d.writeWord v).writeList ws := rfl

theorem Screen.writeList_append (d : Screen) (a b : List Pixel) :
    d.writeList (a ++ b) = (d.writeList a).writeList b := by
  simp [Screen.writeList]

theorem Screen.writeWords_eq_writeList (v : Pixel) (n : Nat) (d : Screen) :
    d.writeWords v n = d.writeList (List.replicate n v) := by
  induction n generalizing d with
  | zero => rfl
  | succ n ih => simp [Screen.writeWords, List.replicate_succ, ih]

/-- Calls that only stream data words do what their words do, one after another (20_memory.md R55, R56). -/
theorem applyTrace_data (c : Config) (d : Screen) (calls : List DpaCall) (h : ∀ call ∈ calls, call.isData = true) :
    applyTrace c d calls = d.writeList (dataWords calls) := by
  induction calls generalizing d with
  | nil => rfl
  | cons call calls ih =>
    have hc := h call (List.mem_cons_self ..)
    have hr := fun d' => ih d' fun x hx => h x (List.mem_cons_of_mem _ hx)
    cases call <;> simp_all [DpaCall.isData, dataWords, applyCall, Screen.writeWords_eq_writeList,
      Screen.writeList_append]

/-! ### Filling a Region -/

/-- The key of the `p`-th pixel of a Region in the cursor's order, its width being `w` (20_memory.md R55). -/
def regionKey (x0 y0 w p : Nat) : Nat := pixelKey (x0 + p % w) (y0 + p / w)

/-- The bus with the cursor at the `p`-th pixel of a Region, wrapping at its end (20_memory.md R55). -/
def regionBus (x0 y0 w h p : Nat) : Bus :=
  .active x0 y0 (x0 + w - 1) (y0 + h - 1) (x0 + p % w) (y0 + p % (w * h) / w)

theorem nextCursor_region {x0 y0 w h p : Nat} (hw : 0 < w) (hh : 0 < h) (hp : p < w * h) :
    nextCursor x0 y0 (x0 + w - 1) (y0 + h - 1) (x0 + p % w) (y0 + p / w)
      = (x0 + (p + 1) % w, y0 + (p + 1) % (w * h) / w) := by
  have hm := Nat.mod_lt p hw
  have hdm := Nat.div_add_mod p w
  have hdiv : p / w < h := Nat.div_lt_of_lt_mul hp
  unfold nextCursor
  by_cases h1 : p % w + 1 < w
  · have e : p + 1 = w * (p / w) + (p % w + 1) := by omega
    have e1 : (p + 1) % w = p % w + 1 := by
      rw [e, Nat.mul_add_mod, Nat.mod_eq_of_lt h1]
    have e2 : (p + 1) / w = p / w := by
      rw [e, Nat.mul_add_div hw, Nat.div_eq_of_lt h1, Nat.add_zero]
    have hlt : p + 1 < w * h := by
      have : w * (p / w) + w ≤ w * h := by
        rw [← Nat.mul_succ]; exact Nat.mul_le_mul_left _ hdiv
      omega
    rw [if_pos (by omega), e1, Nat.mod_eq_of_lt hlt, e2]; rfl
  · have hmw : p % w = w - 1 := by omega
    have e : p + 1 = w * (p / w + 1) := by rw [Nat.mul_succ]; omega
    have e1 : (p + 1) % w = 0 := by rw [e, Nat.mul_mod_right]
    rw [if_neg (by omega), e1]
    by_cases h2 : p / w + 1 < h
    · have hlt : p + 1 < w * h := by rw [e]; exact Nat.mul_lt_mul_of_pos_left h2 hw
      rw [if_pos (by omega), Nat.mod_eq_of_lt hlt, e, Nat.mul_div_cancel_left _ hw]; rfl
    · have : p / w + 1 = h := by omega
      rw [if_neg (by omega), e, this, Nat.mod_self, Nat.zero_div]; rfl

/-- One word written at the `p`-th pixel of a Region. -/
theorem writeWord_region {x0 y0 w h p : Nat} (hw : 0 < w) (hh : 0 < h) (hp : p < w * h) (d : Screen) (v : Pixel)
    (hb : d.bus = regionBus x0 y0 w h p) :
    d.writeWord v = { bus := regionBus x0 y0 w h (p + 1), fb := d.fb.write (regionKey x0 y0 w p) v } := by
  obtain ⟨b, fb⟩ := d
  simp only at hb
  subst hb
  simp only [Screen.writeWord, regionBus, Nat.mod_eq_of_lt hp, nextCursor_region hw hh hp, regionKey]

/-- What a list of words, no more than the pixels left, does to an open Region with its cursor at the `p`-th pixel: the
frame memory afterwards is the words written at the Region's pixels in order. -/
theorem writeList_region {x0 y0 w h : Nat} (hw : 0 < w) (hh : 0 < h) (ws : List Pixel) (p : Nat) (d : Screen)
    (hb : d.bus = regionBus x0 y0 w h p) (hlen : p + ws.length ≤ w * h) :
    (d.writeList ws).bus = regionBus x0 y0 w h (p + ws.length) ∧
    (d.fb.wf → (d.writeList ws).fb.wf) ∧
    (∀ e ∈ (d.writeList ws).fb, e ∈ d.fb ∨ ∃ i, i < ws.length ∧ e.1 = regionKey x0 y0 w (p + i)) ∧
    (∀ k, (∀ i, i < ws.length → k ≠ regionKey x0 y0 w (p + i)) → (d.writeList ws).fb.read k = d.fb.read k) ∧
    (x0 + w ≤ 65536 → ∀ i (hi : i < ws.length), (d.writeList ws).fb.read (regionKey x0 y0 w (p + i)) = some ws[i]) := by
  induction ws generalizing p d with
  | nil => exact ⟨by simpa using hb, id, fun e he => .inl he, fun _ _ => rfl, fun _ i hi => absurd hi (by simp)⟩
  | cons v ws ih =>
    simp only [List.length_cons] at hlen
    have hp : p < w * h := by omega
    have hd := writeWord_region hw hh hp d v hb
    obtain ⟨ib, iw, im, ik, ir⟩ := ih (p + 1) (d.writeWord v) (by rw [hd]) (by omega)
    rw [Screen.writeList_cons]
    refine ⟨by rw [ib, List.length_cons]; congr 1; omega, fun hwf => iw (by rw [hd]; exact Memory.write_wf hwf _ _),
      fun e he => ?_, fun k hk => ?_, fun hx i hi => ?_⟩
    · rcases im e he with h' | ⟨i, hi, h'⟩
      · rw [hd] at h'
        rcases Memory.mem_write h' with h' | h'
        · exact .inr ⟨0, by simp, by rw [h']; rfl⟩
        · exact .inl h'
      · exact .inr ⟨i + 1, by simpa using hi, by rw [h']; congr 1; omega⟩
    · rw [ik k fun i hi => by have := hk (i + 1) (by simpa using hi); rwa [show p + 1 + i = p + (i + 1) by omega], hd,
        Memory.read_write, if_neg (by simpa using hk 0 (by simp))]
    · cases i with
      | zero =>
        rw [ik _ fun i hi => ?_, hd]
        · simp [Memory.read_write]
        · intro e
          have hmod := Nat.mod_lt (p + 0) hw
          have hmod' := Nat.mod_lt (p + 1 + i) hw
          obtain ⟨h1, h2⟩ := pixelKey_inj (by omega) (by omega) e
          have a := Nat.div_add_mod (p + 0) w
          have b := Nat.div_add_mod (p + 1 + i) w
          have h3 : (p + 0) / w = (p + 1 + i) / w := by omega
          rw [h3] at a
          omega
      | succ i =>
        have := ir hx i (by simpa using hi)
        rw [show p + (i + 1) = p + 1 + i by omega, this]
        rfl

/-- One whole Region: opened, streamed into with no more words than it has pixels, and released. -/
theorem applyTrace_region {c : Config} {x0 y0 w h : Nat} (hw : 0 < w) (hh : 0 < h) (hx : x0 + w ≤ c.dispW)
    (hy : y0 + h ≤ c.dispH) (body : List DpaCall) (hd : ∀ call ∈ body, call.isData = true)
    (hlen : (dataWords body).length ≤ w * h) (d : Screen) :
    let d' := applyTrace c d (.beginRegion x0 y0 (x0 + w - 1) (y0 + h - 1) :: body ++ [.idle])
    d'.bus = .idle ∧
    (d.fb.wf → d'.fb.wf) ∧
    (∀ e ∈ d'.fb, e ∈ d.fb ∨ ∃ i, i < (dataWords body).length ∧ e.1 = regionKey x0 y0 w i) ∧
    (∀ k, (∀ i, i < (dataWords body).length → k ≠ regionKey x0 y0 w i) → d'.fb.read k = d.fb.read k) ∧
    (x0 + w ≤ 65536 → ∀ i (hi : i < (dataWords body).length),
      d'.fb.read (regionKey x0 y0 w i) = some (dataWords body)[i]) := by
  have hr : regionOnDisplay c x0 y0 ((x0 + w - 1 : Nat) : Int) ((y0 + h - 1 : Nat) : Int) := by
    unfold regionOnDisplay; omega
  intro d'
  have hd' : d' = applyCall c
      (Screen.writeList (dataWords body) { d with bus := .active x0 y0 (x0 + w - 1) (y0 + h - 1) x0 y0 }) .idle := by
    simp only [d', applyTrace_append, applyTrace_cons, applyTrace_nil]
    rw [applyTrace_data c _ body hd]
    simp only [applyCall, if_pos hr]
  obtain ⟨_, hwf, hm, hk, hv⟩ := writeList_region (x0 := x0) (y0 := y0) hw hh (dataWords body) 0
    { d with bus := .active x0 y0 (x0 + w - 1) (y0 + h - 1) x0 y0 }
    (by simp [regionBus, Nat.mod_eq_of_lt, Nat.mul_pos hw hh]) (by omega)
  rw [hd']
  simp only [Nat.zero_add] at hm hk hv
  exact ⟨rfl, hwf, hm, hk, hv⟩

end Sys2Proof.Machine
end

