-- ==== Sys2Proof/Laws/Coding.lean ====
section
/-! SUPPORT. The fields of a packed command word, and the opcode table's rows. -/

namespace Sys2Proof

/-- A packed word as a number (30_encoding.md R91). -/
theorem packWord_toNat (op : Byte) (f0 f1 f2 f3 f4 f5 : Word) :
    (packWord op f0 f1 f2 f3 f4 f5).toNat = op.toNat * 2 ^ 120 + f0.toNat * 2 ^ 80 + f1.toNat * 2 ^ 64
      + f2.toNat * 2 ^ 48 + f3.toNat * 2 ^ 32 + f4.toNat * 2 ^ 16 + f5.toNat := by
  have h (m n : Nat) (a : BitVec m) (b : BitVec n) : (a ++ b).toNat = a.toNat * 2 ^ n + b.toNat := by
    rw [BitVec.toNat_append, ← Nat.shiftLeft_add_eq_or_of_lt b.isLt, Nat.shiftLeft_eq]
  simp only [packWord, h, BitVec.toNat_ofNat]
  omega

@[simp] theorem opByte_packWord (op : Byte) (f0 f1 f2 f3 f4 f5 : Word) :
    opByte (packWord op f0 f1 f2 f3 f4 f5) = op := by
  apply BitVec.eq_of_toNat_eq
  have := op.isLt
  rw [opByte, BitVec.extractLsb'_toNat, packWord_toNat, Nat.shiftRight_eq_div_pow]
  omega

@[simp] theorem rsvBits_packWord (op : Byte) (f0 f1 f2 f3 f4 f5 : Word) :
    rsvBits (packWord op f0 f1 f2 f3 f4 f5) = 0#24 := by
  apply BitVec.eq_of_toNat_eq
  have := op.isLt
  rw [rsvBits, BitVec.extractLsb'_toNat, packWord_toNat, Nat.shiftRight_eq_div_pow, BitVec.toNat_ofNat]
  omega

/-- The slots of a packed word are its operands, in slot order (30_encoding.md R91). -/
@[simp] theorem slot_packWord (op : Byte) (f0 f1 f2 f3 f4 f5 : Word) :
    slot (packWord op f0 f1 f2 f3 f4 f5) 0 = f0 ∧ slot (packWord op f0 f1 f2 f3 f4 f5) 1 = f1 ∧
    slot (packWord op f0 f1 f2 f3 f4 f5) 2 = f2 ∧ slot (packWord op f0 f1 f2 f3 f4 f5) 3 = f3 ∧
    slot (packWord op f0 f1 f2 f3 f4 f5) 4 = f4 ∧ slot (packWord op f0 f1 f2 f3 f4 f5) 5 = f5 := by
  refine ⟨?_, ?_, ?_, ?_, ?_, ?_⟩ <;>
  · apply BitVec.eq_of_toNat_eq
    have := op.isLt
    rw [slot, BitVec.extractLsb'_toNat, packWord_toNat, Nat.shiftRight_eq_div_pow]
    omega

/-- A word is packed from its fields (30_encoding.md R91). -/
theorem packWord_of_fields (w : CommandWord) (h : rsvBits w = 0#24) :
    packWord (opByte w) (slot w 0) (slot w 1) (slot w 2) (slot w 3) (slot w 4) (slot w 5) = w := by
  have hr := congrArg BitVec.toNat h
  have hw := w.isLt
  apply BitVec.eq_of_toNat_eq
  rw [rsvBits, BitVec.extractLsb'_toNat, Nat.shiftRight_eq_div_pow, BitVec.toNat_ofNat] at hr
  rw [packWord_toNat]
  simp only [opByte, slot, BitVec.extractLsb'_toNat, Nat.shiftRight_eq_div_pow]
  omega

/-- The reserved check of a command with `k` operands says that `rsv` and the slots from `k` on are zero. -/
theorem reservedZero_iff (w : CommandWord) (k : Nat) :
    reservedZero w k = true ↔ rsvBits w = 0#24 ∧ ∀ j ∈ [0, 1, 2, 3, 4, 5].drop k, slot w j = 0#16 := by
  simp [reservedZero]

/-- What the reserved check can answer (30_encoding.md R93). -/
theorem checkReserved_cases (w : CommandWord) (k : Nat) (i : Instr) :
    (reservedZero w k = true ∧ checkReserved w k i = .ok i) ∨
    (reservedZero w k = false ∧ checkReserved w k i = .error .reservedNonzero) := by
  unfold checkReserved
  cases h : reservedZero w k <;> simp

/-- No two rows of the opcode table overlap. -/
theorem opcodeTable_disjoint : opcodeTable.Pairwise fun r r' => r.op ≠ r'.op ∧ r.pat &&& r'.mask ≠ r'.pat := by
  decide

/-- A command's operands are in range exactly when its meaning's own check passes (30_encoding.md R92). -/
theorem wellFormed_sqrt (n : Word) : (Instr.sqrt n).wellFormed = Machine.inN12 n := rfl

theorem wellFormed_mulch (p a : Word) : (Instr.mulch p a).wellFormed = (Machine.inCH6 p && Machine.inCH6 a) := rfl

theorem wellFormed_blendch (f b a : Word) :
    (Instr.blendch f b a).wellFormed = (Machine.inCH6 f && Machine.inCH6 b && Machine.inCH6 a) := rfl

theorem wellFormed_pair (x y dir alpha : Word) : (Instr.pair x y dir alpha).wellFormed = Machine.inDIR dir := rfl

end Sys2Proof
end

