-- ==== Sys2Proof/Laws/Compositor.lean ====
section
/-! SUPPORT. The compositor's functions: the binary search is the floor of the square root, lanes stay in 6 bits, and
packing puts each lane in its field. -/

namespace Sys2Proof.Machine

/-- The search keeps `r * r <= n`, and each bit it drops would break it, so it ends at the floor of the square root
(40_compositor.md R122). -/
theorem isqrtFrom_eq_sqrt (k n r : Nat) (hd : 2 ^ k ∣ r) (hlo : r * r ≤ n) (hhi : n < (r + 2 ^ k) * (r + 2 ^ k)) :
    isqrtFrom k n r = Nat.sqrt n := by
  induction k generalizing r with
  | zero =>
    have h : r = Nat.sqrt n := Nat.eq_sqrt.2 ⟨hlo, by simpa using hhi⟩
    exact h
  | succ k ih =>
    obtain ⟨q, rfl⟩ := hd
    have hor : 2 ^ (k + 1) * q ||| 2 ^ k = 2 ^ (k + 1) * q + 2 ^ k :=
      (Nat.two_pow_add_eq_or_of_lt (Nat.pow_lt_pow_right (by omega) (by omega)) q).symm
    have hpow : 2 ^ (k + 1) = 2 ^ k + 2 ^ k := by rw [Nat.pow_succ]; omega
    simp only [isqrtFrom, hor]
    split
    · refine ih _ ⟨2 * q + 1, by rw [Nat.pow_succ]; ring⟩ ‹_› ?_
      rwa [Nat.add_assoc, ← hpow]
    · exact ih _ ⟨2 * q, by rw [Nat.pow_succ]; ring⟩ hlo (by omega)

/-- `isqrt6(n) = floor(sqrt(n))` on its domain (40_compositor.md R122). -/
theorem isqrt6_eq_sqrt {n : Nat} (h : n ≤ 4095) : isqrt6 n = Nat.sqrt n :=
  isqrtFrom_eq_sqrt 6 n 0 (by simp) (by simp) (by omega)

/-- `RingX(r, y) = floor(sqrt(r * r - y * y))` (42_ring_rasterizer.md R181). -/
theorem ringX_eq_sqrt {r : Nat} (h : r ≤ 65535) (y : Nat) : ringX r y = Nat.sqrt (r * r - y * y) := by
  have : r * r ≤ 65535 * 65535 := Nat.mul_le_mul h h
  exact isqrtFrom_eq_sqrt 16 _ 0 (by simp) (by simp) (by omega)

theorem mulch_le {p a : Nat} (hp : p ≤ 63) (ha : a ≤ 63) : mulch p a ≤ 62496 := by
  have h1 : p * p ≤ 63 * 63 := Nat.mul_le_mul hp hp
  have h2 : p * p / 4 ≤ 992 := by omega
  have := Nat.mul_le_mul h2 ha
  unfold mulch; omega

theorem mulch_le_of_alpha {p a : Nat} (hp : p ≤ 63) : mulch p a ≤ 992 * a := by
  have h1 : p * p ≤ 63 * 63 := Nat.mul_le_mul hp hp
  exact Nat.mul_le_mul_right a (by omega)

/-- `scale` in closed form (40_compositor.md R124). -/
theorem scale_eq_sqrt {c a : Nat} (hc : c ≤ 63) (ha : a ≤ 63) : scale c a = Nat.sqrt (c * c / 4 * a / 16) := by
  have := mulch_le hc ha
  rw [scale, Nat.shiftRight_eq_div_pow, isqrt6_eq_sqrt (by omega)]
  rfl

/-- `blendch` in closed form (40_compositor.md R128). -/
theorem blendch_eq_sqrt {f b a : Nat} (hf : f ≤ 63) (hb : b ≤ 63) (ha : a ≤ 63) :
    blendch f b a = Nat.sqrt ((f * f / 4 * a + b * b / 4 * (63 - a)) / 16) := by
  have h1 := mulch_le_of_alpha (a := a) hf
  have h2 := mulch_le_of_alpha (a := 63 - a) hb
  rw [blendch, Nat.shiftRight_eq_div_pow, isqrt6_eq_sqrt (by omega)]
  rfl

theorem sqrt_le_62 {n : Nat} (h : n ≤ 3968) : Nat.sqrt n ≤ 62 := by
  have := Nat.sqrt_lt (m := n) (n := 63)
  omega

theorem scale_le {c a : Nat} (hc : c ≤ 63) (ha : a ≤ 63) : scale c a ≤ 62 := by
  rw [scale_eq_sqrt hc ha]
  have := mulch_le hc ha
  unfold mulch at this
  exact sqrt_le_62 (by omega)

theorem blendch_le {f b a : Nat} (hf : f ≤ 63) (hb : b ≤ 63) (ha : a ≤ 63) : blendch f b a ≤ 62 := by
  rw [blendch_eq_sqrt hf hb ha]
  have h1 := mulch_le_of_alpha (a := a) hf
  have h2 := mulch_le_of_alpha (a := 63 - a) hb
  unfold mulch at h1 h2
  exact sqrt_le_62 (by omega)

/-! ### Lanes -/

/-- The red lane is twice the red field (40_compositor.md R121). -/
theorem expR_eq (px : Pixel) : expR px = 2 * redField px := by
  have h := px.isLt
  have e : ∀ n : Nat, n &&& 0x3E = 2 * (n / 2 % 32) := fun n => by
    have : n &&& 0x3E = (n % 64) &&& 0x3E := by
      apply Nat.eq_of_testBit_eq; intro i
      rw [Nat.testBit_and, Nat.testBit_and, show (64 : Nat) = 2 ^ 6 from rfl, Nat.testBit_mod_two_pow]
      by_cases hi : i < 6
      · simp [hi]
      · rw [show Nat.testBit 62 i = false from
          Nat.testBit_lt_two_pow (Nat.lt_of_lt_of_le (by omega : 62 < 2 ^ 6) (Nat.pow_le_pow_right (by omega) (by omega)))]
        simp
    rw [this]
    have hm : n % 64 < 64 := Nat.mod_lt _ (by omega)
    have : n / 2 % 32 = n % 64 / 2 := by omega
    rw [this]
    generalize n % 64 = m at hm
    revert m; decide
  rw [expR, e, redField, BitVec.extractLsb'_toNat, Nat.shiftRight_eq_div_pow, Nat.shiftRight_eq_div_pow]
  omega

/-- The green lane is the green field (40_compositor.md R121). -/
theorem expG_eq (px : Pixel) : expG px = greenField px := by
  rw [expG, greenField, BitVec.extractLsb'_toNat, show (0x3F : Nat) = 2 ^ 6 - 1 from rfl, Nat.and_two_pow_sub_one_eq_mod]

/-- The blue lane is twice the blue field (40_compositor.md R121). -/
theorem expB_eq (px : Pixel) : expB px = 2 * blueField px := by
  rw [expB, blueField, BitVec.extractLsb'_toNat, show (0x1F : Nat) = 2 ^ 5 - 1 from rfl,
    Nat.and_two_pow_sub_one_eq_mod, Nat.shiftLeft_eq, Nat.shiftRight_zero]
  omega

theorem redField_lt (px : Pixel) : redField px < 32 := (px.extractLsb' 11 5).isLt
theorem greenField_lt (px : Pixel) : greenField px < 64 := (px.extractLsb' 5 6).isLt
theorem blueField_lt (px : Pixel) : blueField px < 32 := (px.extractLsb' 0 5).isLt

theorem expR_le (px : Pixel) : expR px ≤ 63 := by have := redField_lt px; rw [expR_eq]; omega
theorem expG_le (px : Pixel) : expG px ≤ 63 := by have := greenField_lt px; rw [expG_eq]; omega
theorem expB_le (px : Pixel) : expB px ≤ 63 := by have := blueField_lt px; rw [expB_eq]; omega

/-- A packed pixel as a number (40_compositor.md R121). -/
theorem pack_toNat {r g b : Nat} (hr : r ≤ 63) (hg : g ≤ 63) (hb : b ≤ 63) :
    (pack r g b).toNat = r / 2 * 2048 + g * 32 + b / 2 := by
  rw [pack, BitVec.toNat_ofNat, Nat.shiftRight_eq_div_pow, Nat.shiftRight_eq_div_pow,
    ← Nat.shiftLeft_add_eq_or_of_lt (show g <<< 5 < 2 ^ 11 by rw [Nat.shiftLeft_eq]; omega),
    Nat.shiftLeft_eq, Nat.shiftLeft_eq]
  have e : r / 2 ^ 1 * 2 ^ 11 + g * 2 ^ 5 = (r / 2 ^ 1 * 2 ^ 6 + g) <<< 5 := by rw [Nat.shiftLeft_eq]; omega
  rw [e, ← Nat.shiftLeft_add_eq_or_of_lt (show b / 2 ^ 1 < 2 ^ 5 by omega), Nat.shiftLeft_eq]
  omega

/-- Each lane of a packed pixel is in its field, red and blue without their low bit (40_compositor.md R121). -/
theorem pack_fields {r g b : Nat} (hr : r ≤ 63) (hg : g ≤ 63) (hb : b ≤ 63) :
    redField (pack r g b) = r / 2 ∧ greenField (pack r g b) = g ∧ blueField (pack r g b) = b / 2 := by
  have h := pack_toNat hr hg hb
  simp only [redField, greenField, blueField, BitVec.extractLsb'_toNat, Nat.shiftRight_eq_div_pow, h]
  omega

/-- A pixel is determined by its three fields (30_encoding.md R96). -/
theorem pixel_eq_of_fields {p q : Pixel} (hr : redField p = redField q) (hg : greenField p = greenField q)
    (hb : blueField p = blueField q) : p = q := by
  have hp := p.isLt
  have hq := q.isLt
  apply BitVec.eq_of_toNat_eq
  simp only [redField, greenField, blueField, BitVec.extractLsb'_toNat, Nat.shiftRight_eq_div_pow] at hr hg hb
  omega

/-- At full weight a blend is the foreground, whatever the background (40_compositor.md R126, R130). -/
theorem blendpx_full (fg bg : Pixel) {alpha : Nat} (h : 63 ≤ alpha) : blendpx fg bg alpha = fg := by
  by_cases hb : bg = 0x0000#16 <;> simp [blendpx, mulpx, hb, h]

end Sys2Proof.Machine
end

