-- ==== Sys2Proof/Laws/Paint.lean ====
section
/-! SUPPORT. How a command's trace is built: sequencing, loops and `OpenRegion`; and the adapter's protocol: which traces
are legal, and that a legal trace keeps the screen well formed. -/

namespace Sys2Proof.Machine

/-! ### Sequencing -/

@[simp] theorem Paint.andThen_raised {p : Paint} {c : Cause} (h : p.cause = some c) (q : Unit → Paint) :
    p.andThen q = p := by simp [Paint.andThen, h]

theorem Paint.andThen_of_none {p : Paint} (h : p.cause = none) (q : Unit → Paint) :
    p.andThen q = { calls := p.calls ++ (q ()).calls, cause := (q ()).cause } := by simp [Paint.andThen, h]

@[simp] theorem Paint.nothing_andThen (q : Unit → Paint) : Paint.nothing.andThen q = q () := by
  simp [Paint.andThen, Paint.nothing]

@[simp] theorem Paint.emit_andThen (calls : List DpaCall) (q : Unit → Paint) :
    (Paint.emit calls).andThen q = { calls := calls ++ (q ()).calls, cause := (q ()).cause } := rfl

@[simp] theorem Paint.raise_andThen (c : Cause) (q : Unit → Paint) : (Paint.raise c).andThen q = Paint.raise c := rfl

@[simp] theorem Paint.emit_calls (calls : List DpaCall) : (Paint.emit calls).calls = calls := rfl
@[simp] theorem Paint.emit_cause (calls : List DpaCall) : (Paint.emit calls).cause = none := rfl
@[simp] theorem Paint.raise_calls (c : Cause) : (Paint.raise c).calls = [.idle] := rfl
@[simp] theorem Paint.raise_cause (c : Cause) : (Paint.raise c).cause = some c := rfl
@[simp] theorem Paint.nothing_calls : Paint.nothing.calls = [] := rfl
@[simp] theorem Paint.nothing_cause : Paint.nothing.cause = none := rfl

/-- What `p` and then `q` can do: `p` alone if it raised, else the calls of both and whatever `q` raised. -/
theorem Paint.andThen_cases (p : Paint) (q : Unit → Paint) :
    (∃ c, p.cause = some c ∧ p.andThen q = p) ∨
    (p.cause = none ∧ (p.andThen q).calls = p.calls ++ (q ()).calls ∧ (p.andThen q).cause = (q ()).cause) := by
  cases h : p.cause with
  | some c => exact .inl ⟨c, rfl, Paint.andThen_raised h q⟩
  | none => exact .inr ⟨rfl, by simp [Paint.andThen_of_none h], by simp [Paint.andThen_of_none h]⟩

theorem Paint.andThen_assoc (p : Paint) (q r : Unit → Paint) :
    (p.andThen q).andThen r = p.andThen fun _ => (q ()).andThen r := by
  obtain ⟨pc, pr⟩ := p
  cases pr with
  | some c => rfl
  | none => cases h : (q ()).cause <;> simp [Paint.andThen, h]

/-- A loop none of whose turns raises makes the calls of its turns, in order. -/
theorem Paint.forEach_of_none {α : Type} (f : α → Paint) (xs : List α) (h : ∀ x ∈ xs, (f x).cause = none) :
    Paint.forEach f xs = { calls := xs.flatMap fun x => (f x).calls, cause := none } := by
  induction xs with
  | nil => rfl
  | cons x xs ih =>
    rw [Paint.forEach, Paint.andThen_of_none (h x (List.mem_cons_self ..)),
      ih fun y hy => h y (List.mem_cons_of_mem _ hy)]
    simp

/-- A loop whose first raising turn is `x` makes the calls of the turns before it, then those of `x`, and stops. -/
theorem Paint.forEach_of_some {α : Type} (f : α → Paint) (xs ys : List α) (x : α) (c : Cause)
    (h : ∀ y ∈ xs, (f y).cause = none) (hx : (f x).cause = some c) :
    Paint.forEach f (xs ++ x :: ys) = { calls := (xs.flatMap fun y => (f y).calls) ++ (f x).calls, cause := some c } := by
  induction xs with
  | nil =>
    rw [List.nil_append, Paint.forEach, Paint.andThen_raised hx]
    rw [List.flatMap_nil, List.nil_append, ← hx]
  | cons y xs ih =>
    rw [List.cons_append, Paint.forEach, Paint.andThen_of_none (h y (List.mem_cons_self ..)),
      ih fun z hz => h z (List.mem_cons_of_mem _ hz)]
    simp

/-- What `orIdle` can do: one `idle()` where nothing was done, and nothing where a call was made. -/
theorem Paint.orIdle_cases (p : Paint) :
    (p = Paint.nothing ∧ p.orIdle = Paint.emit [.idle]) ∨ (p ≠ Paint.nothing ∧ p.orIdle = p) := by
  obtain ⟨calls, cause⟩ := p
  cases calls with
  | nil =>
    cases cause with
    | none => exact .inl ⟨rfl, rfl⟩
    | some c => exact .inr ⟨by simp [Paint.nothing], rfl⟩
  | cons a l => exact .inr ⟨by simp [Paint.nothing], rfl⟩

/-- `OpenRegion` and what follows it (20_memory.md R60): a Region of the display is opened and the rest goes on; any other
makes one `idle()` and raises `RegionRange`. -/
theorem openRegion_andThen (c : Config) (xa ya xb yb : Int) (q : Unit → Paint) :
    (openRegion c xa ya xb yb).andThen q =
      if regionOnDisplay c xa ya xb yb then
        { calls := .beginRegion xa.toNat ya.toNat xb.toNat yb.toNat :: (q ()).calls, cause := (q ()).cause }
      else Paint.raise .regionRange := by
  unfold openRegion
  split <;> simp

/-! ### Legal traces -/

theorem protocolRun_append (c : Config) (m : Option Nat) (a b : List DpaCall) :
    protocolRun c m (a ++ b) = (protocolRun c m a).bind fun m' => protocolRun c m' b := by
  induction a generalizing m with
  | nil => rfl
  | cons x a ih =>
    simp only [List.cons_append, protocolRun]
    cases protocolCall c m x with
    | none => rfl
    | some m' => exact ih m'

/-- Two legal traces one after the other are legal. -/
theorem traceLegal_append {c : Config} {a b : List DpaCall} (ha : traceLegal c a) (hb : traceLegal c b) :
    traceLegal c (a ++ b) := by
  unfold traceLegal at *
  rw [protocolRun_append, ha]; exact hb

/-- Data words, no more than the Region has pixels left, keep the protocol. -/
theorem protocolRun_data (c : Config) (body : List DpaCall) (hd : ∀ call ∈ body, call.isData = true) (k : Nat)
    (hk : (dataWords body).length ≤ k) :
    protocolRun c (some k) body = some (some (k - (dataWords body).length)) := by
  induction body generalizing k with
  | nil => rfl
  | cons call body ih =>
    have hc := hd call (List.mem_cons_self ..)
    have hr := ih fun x hx => hd x (List.mem_cons_of_mem _ hx)
    cases call with
    | writeDataWord v =>
      simp only [dataWords, List.length_cons] at hk ⊢
      rw [protocolRun, protocolCall, if_pos (by omega)]
      simp only
      rw [hr _ (by omega)]
      congr 2; omega
    | repeatDataWord v n =>
      simp only [dataWords, List.length_append, List.length_replicate] at hk ⊢
      rw [protocolRun, protocolCall, if_pos (by omega)]
      simp only
      rw [hr _ (by omega)]
      congr 2; omega
    | beginRegion _ _ _ _ => cases hc
    | sendCommand _ _ => cases hc
    | idle => cases hc

/-- One whole Region is a legal trace. -/
theorem traceLegal_region {c : Config} {x0 y0 x1 y1 : Nat} (hr : regionOnDisplay c x0 y0 x1 y1) (body : List DpaCall)
    (hd : ∀ call ∈ body, call.isData = true) (hlen : (dataWords body).length ≤ (x1 - x0 + 1) * (y1 - y0 + 1)) :
    traceLegal c (.beginRegion x0 y0 x1 y1 :: body ++ [.idle]) := by
  unfold traceLegal
  rw [List.cons_append, protocolRun, protocolCall, if_pos hr]
  simp only
  rw [protocolRun_append, protocolRun_data c body hd _ hlen]
  rfl

theorem traceLegal_idle (c : Config) : traceLegal c [.idle] := rfl

theorem traceLegal_nil (c : Config) : traceLegal c [] := rfl

/-- A part that is legal, followed by another unless it raised. -/
theorem traceLegal_andThen {c : Config} {p : Paint} {q : Unit → Paint} (hp : traceLegal c p.calls)
    (hq : traceLegal c (q ()).calls) : traceLegal c (p.andThen q).calls := by
  rcases Paint.andThen_cases p q with ⟨_, _, h⟩ | ⟨_, h, _⟩
  · rwa [h]
  · rw [h]; exact traceLegal_append hp hq

/-- A loop of legal parts. -/
theorem traceLegal_forEach {α : Type} {c : Config} {f : α → Paint} (xs : List α)
    (h : ∀ x ∈ xs, traceLegal c (f x).calls) : traceLegal c (Paint.forEach f xs).calls := by
  induction xs with
  | nil => exact traceLegal_nil c
  | cons x xs ih =>
    exact traceLegal_andThen (h x (List.mem_cons_self ..)) (ih fun y hy => h y (List.mem_cons_of_mem _ hy))

theorem traceLegal_orIdle {c : Config} {p : Paint} (h : traceLegal c p.calls) : traceLegal c p.orIdle.calls := by
  rcases Paint.orIdle_cases p with ⟨_, e⟩ | ⟨_, e⟩ <;> rw [e]
  · exact traceLegal_idle c
  · exact h

/-! ### What legal traces keep -/

/-- Every painted pixel lies on the display (20_memory.md R50). -/
abbrev fbOnDisplay (c : Config) (m : Memory) : Prop := ∀ e ∈ m, e.1 % 65536 < c.dispW ∧ e.1 / 65536 < c.dispH

/-- The bus state the protocol's bookkeeping stands for: `Idle`, or an open Region on the display with the cursor at the
pixel after the words streamed so far. -/
def busAgrees (c : Config) (b : Bus) : Option Nat → Prop
  | none => b = .idle
  | some k => ∃ x0 y0 w h p, 0 < w ∧ 0 < h ∧ x0 + w ≤ c.dispW ∧ y0 + h ≤ c.dispH ∧ p + k = w * h ∧
      b = regionBus x0 y0 w h p

/-- Words no more than the Region has pixels left keep the bookkeeping, the canonical form and the display's bounds. -/
theorem writeList_keeps {c : Config} (hc : c.wf) {d : Screen} {k : Nat} (hb : busAgrees c d.bus (some k))
    (hw : d.fb.wf) (ho : fbOnDisplay c d.fb) (ws : List Pixel) (hk : ws.length ≤ k) :
    busAgrees c (d.writeList ws).bus (some (k - ws.length)) ∧ (d.writeList ws).fb.wf ∧
      fbOnDisplay c (d.writeList ws).fb := by
  obtain ⟨x0, y0, w, h, p, hw0, hh0, hx, hy, hpk, hbus⟩ := hb
  obtain ⟨ib, iw, im, -, -⟩ := writeList_region hw0 hh0 ws p d hbus (by omega)
  refine ⟨⟨x0, y0, w, h, p + ws.length, hw0, hh0, hx, hy, by omega, ib⟩, iw hw, fun e he => ?_⟩
  rcases im e he with he | ⟨i, hi, he⟩
  · exact ho e he
  · have hm := Nat.mod_lt (p + i) hw0
    have hdv : (p + i) / w < h := Nat.div_lt_of_lt_mul (by omega)
    have hW := hc.2.1
    rw [he, regionKey, pixelKey_mod (by omega), pixelKey_div (by omega)]
    omega

/-- One call that keeps the protocol keeps the bookkeeping, the canonical form and the display's bounds. -/
theorem protocolCall_keeps {c : Config} (hc : c.wf) {d : Screen} {m m' : Option Nat} {call : DpaCall}
    (hcall : protocolCall c m call = some m') (hb : busAgrees c d.bus m) (hw : d.fb.wf) (ho : fbOnDisplay c d.fb) :
    busAgrees c (applyCall c d call).bus m' ∧ (applyCall c d call).fb.wf ∧ fbOnDisplay c (applyCall c d call).fb := by
  cases call with
  | idle =>
    have : m' = none := by cases m <;> simpa [protocolCall] using hcall.symm
    subst this
    exact ⟨rfl, hw, ho⟩
  | sendCommand _ _ => cases m <;> simp [protocolCall] at hcall
  | beginRegion x0 y0 x1 y1 =>
    cases m with
    | some k => simp [protocolCall] at hcall
    | none =>
      simp only [protocolCall] at hcall
      split at hcall
      · rename_i hr
        have e : m' = some ((x1 - x0 + 1) * (y1 - y0 + 1)) := by simpa using hcall.symm
        subst e
        simp only [applyCall, if_pos hr]
        unfold regionOnDisplay at hr
        refine ⟨⟨x0, y0, x1 - x0 + 1, y1 - y0 + 1, 0, by omega, by omega, by omega, by omega, by omega, ?_⟩, hw, ho⟩
        simp only [regionBus, Nat.zero_mod, Nat.zero_div, Nat.add_zero]
        congr 1 <;> omega
      · cases hcall
  | writeDataWord v =>
    cases m with
    | none => simp [protocolCall] at hcall
    | some k =>
      simp only [protocolCall] at hcall
      split at hcall
      · obtain rfl : m' = some (k - 1) := by simpa using hcall.symm
        exact writeList_keeps hc hb hw ho [v] (by simpa)
      · cases hcall
  | repeatDataWord v n =>
    cases m with
    | none => simp [protocolCall] at hcall
    | some k =>
      simp only [protocolCall] at hcall
      split at hcall
      · obtain rfl : m' = some (k - repeatLength n) := by simpa using hcall.symm
        have := writeList_keeps hc hb hw ho (List.replicate (repeatLength n) v) (by simpa)
        simpa [applyCall, Screen.writeWords_eq_writeList] using this
      · cases hcall

theorem protocolRun_keeps {c : Config} (hc : c.wf) (calls : List DpaCall) {d : Screen} {m m' : Option Nat}
    (h : protocolRun c m calls = some m') (hb : busAgrees c d.bus m) (hw : d.fb.wf) (ho : fbOnDisplay c d.fb) :
    busAgrees c (applyTrace c d calls).bus m' ∧ (applyTrace c d calls).fb.wf ∧
      fbOnDisplay c (applyTrace c d calls).fb := by
  induction calls generalizing d m with
  | nil =>
    obtain rfl : m = m' := by simpa [protocolRun] using h
    exact ⟨hb, hw, ho⟩
  | cons call calls ih =>
    rw [protocolRun] at h
    cases hcall : protocolCall c m call with
    | none => simp [hcall] at h
    | some m1 =>
      simp only [hcall] at h
      obtain ⟨h1, h2, h3⟩ := protocolCall_keeps hc hcall hb hw ho
      exact ih h h1 h2 h3

/-- A legal trace, from an `Idle` bus, leaves the bus `Idle`, the frame memory canonical and only pixels of the display
painted. -/
theorem traceLegal_keeps {c : Config} (hc : c.wf) {calls : List DpaCall} (h : traceLegal c calls) {d : Screen}
    (hb : d.bus = .idle) (hw : d.fb.wf) (ho : fbOnDisplay c d.fb) :
    (applyTrace c d calls).bus = .idle ∧ (applyTrace c d calls).fb.wf ∧ fbOnDisplay c (applyTrace c d calls).fb :=
  protocolRun_keeps hc calls h hb hw ho

end Sys2Proof.Machine
end

