-- ==== Sys2Proof/Laws/PerInstr.lean ====
section
/-! SUPPORT. Statements about every command as syntax, one lemma for each constructor. -/

/-- The encoding of a command carries its opcode, which is a row of the opcode table, and no reserved bit
(30_encoding.md R91, R95). -/
def Sys2Proof.Laws.Coded.Statement (i : Sys2Proof.Instr) : Prop :=
  Sys2Proof.opByte (Sys2Proof.encode i) = i.opcode ∧ Sys2Proof.rsvBits (Sys2Proof.encode i) = 0#24 ∧
    i.opcode ∈ Sys2Proof.opcodeTable.map (·.op)

namespace Sys2Proof.Laws

theorem Coded.nop : Coded.Statement (.nop) :=
  ⟨opByte_packWord .., rsvBits_packWord .., by simp only [Instr.opcode]; decide⟩

theorem Coded.sqrt (n : Word) : Coded.Statement (.sqrt n) :=
  ⟨opByte_packWord .., rsvBits_packWord .., by simp only [Instr.opcode]; decide⟩

theorem Coded.mulch (p a : Word) : Coded.Statement (.mulch p a) :=
  ⟨opByte_packWord .., rsvBits_packWord .., by simp only [Instr.opcode]; decide⟩

theorem Coded.mulpx (px alpha : Word) : Coded.Statement (.mulpx px alpha) :=
  ⟨opByte_packWord .., rsvBits_packWord .., by simp only [Instr.opcode]; decide⟩

theorem Coded.blendch (f b a : Word) : Coded.Statement (.blendch f b a) :=
  ⟨opByte_packWord .., rsvBits_packWord .., by simp only [Instr.opcode]; decide⟩

theorem Coded.blendpx (fg bg alpha : Word) : Coded.Statement (.blendpx fg bg alpha) :=
  ⟨opByte_packWord .., rsvBits_packWord .., by simp only [Instr.opcode]; decide⟩

theorem Coded.unitvec (angle : Word) : Coded.Statement (.unitvec angle) :=
  ⟨opByte_packWord .., rsvBits_packWord .., by simp only [Instr.opcode]; decide⟩

theorem Coded.setfg (colour : Word) : Coded.Statement (.setfg colour) :=
  ⟨opByte_packWord .., rsvBits_packWord .., by simp only [Instr.opcode]; decide⟩

theorem Coded.setbg (colour : Word) : Coded.Statement (.setbg colour) :=
  ⟨opByte_packWord .., rsvBits_packWord .., by simp only [Instr.opcode]; decide⟩

theorem Coded.fill (x y w h colour : Word) : Coded.Statement (.fill x y w h colour) :=
  ⟨opByte_packWord .., rsvBits_packWord .., by simp only [Instr.opcode]; decide⟩

theorem Coded.line (x0 y0 dx dy minExtent maxExtent : Word) : Coded.Statement (.line x0 y0 dx dy minExtent maxExtent) :=
  ⟨opByte_packWord .., rsvBits_packWord .., by simp only [Instr.opcode]; decide⟩

theorem Coded.ring (cx cy ri ro : Word) : Coded.Statement (.ring cx cy ri ro) :=
  ⟨opByte_packWord .., rsvBits_packWord .., by simp only [Instr.opcode]; decide⟩

theorem Coded.glyph (x y addr : Word) : Coded.Statement (.glyph x y addr) :=
  ⟨opByte_packWord .., rsvBits_packWord .., by simp only [Instr.opcode]; decide⟩

theorem Coded.pair (x y dir alpha : Word) : Coded.Statement (.pair x y dir alpha) :=
  ⟨opByte_packWord .., rsvBits_packWord .., by simp only [Instr.opcode]; decide⟩

end Sys2Proof.Laws
end

