-- ==== Sys2Proof/Laws/Spans.lean ====
section
/-! SUPPORT. The loops of RING and GLYPH, said once as lists: RING's spans in their order, and the calls of a glyph's
tokens up to the end of its loop. -/

namespace Sys2Proof.Machine

/-- A loop over two lists one after the other. -/
theorem Paint.forEach_append {α : Type} (f : α → Paint) (xs ys : List α) :
    Paint.forEach f (xs ++ ys) = (Paint.forEach f xs).andThen fun _ => Paint.forEach f ys := by
  induction xs with
  | nil => rw [List.nil_append, Paint.forEach, Paint.nothing_andThen]
  | cons x xs ih => rw [List.cons_append, Paint.forEach, Paint.forEach, ih, Paint.andThen_assoc]

/-- A loop of loops runs over all their turns, in order. -/
theorem Paint.forEach_flatMap {α β : Type} (f : β → Paint) (g : α → List β) (xs : List α) :
    Paint.forEach f (xs.flatMap g) = Paint.forEach (fun x => Paint.forEach f (g x)) xs := by
  induction xs with
  | nil => rfl
  | cons x xs ih => rw [List.flatMap_cons, Paint.forEach_append, ih, Paint.forEach]

/-- What painting a span can do (42_ring_rasterizer.md R185): a span of the display is one whole Region; any other makes
one `idle()` and raises `RegionRange`. -/
theorem RingSpan.paint_cases (c : Config) (fg bg : Pixel) (ri ro : Nat) (sp : RingSpan) :
    (∃ x0 y0 x1 y1 : Nat, regionOnDisplay c x0 y0 x1 y1 ∧ sp.paint c fg bg ri ro =
      { calls := .beginRegion x0 y0 x1 y1 :: spanWords (ringColour fg bg ri ro sp.row) sp.sign sp.fromD sp.toD ++ [.idle],
        cause := none }) ∨
    sp.paint c fg bg ri ro = Paint.raise .regionRange := by
  have region (xa ya xb yb : Int) (q : List DpaCall) :
      (∃ x0 y0 x1 y1 : Nat, regionOnDisplay c x0 y0 x1 y1 ∧ (openRegion c xa ya xb yb).andThen (fun _ => Paint.emit q)
        = { calls := .beginRegion x0 y0 x1 y1 :: q, cause := none }) ∨
      (openRegion c xa ya xb yb).andThen (fun _ => Paint.emit q) = Paint.raise .regionRange := by
    rw [openRegion_andThen]
    split
    · rename_i h
      exact .inl ⟨xa.toNat, ya.toNat, xb.toNat, yb.toNat, by unfold regionOnDisplay at *; omega, rfl⟩
    · exact .inr rfl
  cases h : sp.horizontal with
  | true => simpa [RingSpan.paint, emitSpan, h] using region ..
  | false => simpa [RingSpan.paint, emitSpan, h] using region ..

/-- One orientation of a row, as its list of spans. -/
theorem forEach_ringSideSpans (f : RingSpan → Paint) (horizontal : Bool) (mid centre first last y : Nat) :
    Paint.forEach f (ringSideSpans horizontal mid centre first last y) =
      if first ≤ last then
        Paint.forEach (fun mirror : Int => Paint.forEach (fun side : Int => f
          { horizontal := horizontal, fixed := mid + mirror * y, centre := centre, sign := side, fromD := first,
            toD := last, row := y }) [1, -1]) (mirrorSigns y)
      else Paint.nothing := by
  unfold ringSideSpans
  split
  · rw [Paint.forEach_flatMap]; rfl
  · rfl

/-- The vertical spans of a row begin no nearer than its horizontal ones. -/
theorem rowFirst_le_rowFirstVertical (ri y : Nat) : rowFirst ri y ≤ rowFirstVertical ri y := by
  unfold rowFirstVertical; split <;> omega

/-- A row of RING is its list of spans (42_ring_rasterizer.md R180). -/
theorem ringRow_eq_spans (c : Config) (fg bg : Pixel) (cx cy ri ro y : Nat) :
    ringRow c fg bg cx cy ri ro y = Paint.forEach (RingSpan.paint c fg bg ri ro) (ringRowSpans cx cy ri ro y) := by
  rw [ringRowSpans, Paint.forEach_append, forEach_ringSideSpans, forEach_ringSideSpans]
  have := rowFirst_le_rowFirstVertical ri y
  unfold ringRow
  split
  · rfl
  · rw [if_neg (by omega), Paint.nothing_andThen]

/-- RING's loop is the spans of its rows, up to the first row at which its condition fails. -/
theorem ringLoop_eq_spans (c : Config) (fg bg : Pixel) (cx cy ri ro k y : Nat) :
    ringLoop c fg bg cx cy ri ro k y = Paint.forEach (RingSpan.paint c fg bg ri ro)
      (((List.range' y k).takeWhile fun y => decide (rowInLoop ro y)).flatMap (ringRowSpans cx cy ri ro)) := by
  induction k generalizing y with
  | zero => rfl
  | succ k ih =>
    rw [ringLoop, List.range'_succ, List.takeWhile_cons]
    by_cases h : rowInLoop ro y
    · rw [if_pos h, if_pos (by simpa using h), List.flatMap_cons, Paint.forEach_append, ih, ringRow_eq_spans]
    · rw [if_neg h, if_neg (by simpa using h)]; rfl

/-- RING is its list of spans, painted in order until one leaves the display (42_ring_rasterizer.md R180, R183). -/
theorem ringPaint_eq_spans (c : Config) (fg bg : Pixel) (cx cy ri ro : Nat) :
    ringPaint c fg bg cx cy ri ro
      = (Paint.forEach (RingSpan.paint c fg bg ri ro) (ringSpans cx cy ri ro)).orIdle := by
  rw [ringPaint, ringLoop_eq_spans, ringSpans, List.range_eq_range']

/-- What a glyph's token loop calls: the calls of the tokens taken, then `idle()`, whether it faults or not
(44_glyph_decoder.md R222, R223). -/
theorem glyphLoop_calls (fg : Pixel) (bytes : List Byte) (rem : Nat) :
    (glyphLoop fg bytes rem).calls = (glyphTaken bytes rem).flatMap (Token.words fg) ++ [.idle] := by
  induction bytes generalizing rem with
  | nil => rfl
  | cons b rest ih =>
    simp only [glyphLoop, glyphTaken]
    by_cases ht : tokenOf b = .terminator
    · rw [if_pos ht, if_pos (show tokenOf b = .terminator ∨ _ from .inl ht)]; split <;> rfl
    · by_cases hr : rem < (tokenOf b).pixels
      · rw [if_neg ht, if_pos hr, if_pos (.inr hr)]; rfl
      · rw [if_neg ht, if_neg hr, if_neg (by tauto), Paint.emit_andThen, List.flatMap_cons, List.append_assoc, ← ih]

/-- The words a token streams: as many as the pixels it stands for, in its colour (44_glyph_decoder.md R223). -/
theorem dataWords_tokenWords (fg : Pixel) (t : Token) :
    dataWords (t.words fg) = List.replicate t.pixels (mulpx fg t.alpha) := by
  cases t <;> simp [Token.words, Token.pixels, Token.alpha, dataWords]

/-- The words of some tokens are their pixels' colours, in order. -/
theorem dataWords_tokens (fg : Pixel) (ts : List Token) :
    dataWords (ts.flatMap (Token.words fg)) = (tokenAlphas ts).map (mulpx fg) := by
  induction ts with
  | nil => rfl
  | cons t ts ih => simpa [tokenAlphas, dataWords_tokenWords] using ih

/-- The tokens taken stand for no more pixels than were left. -/
theorem glyphTaken_length (bytes : List Byte) (rem : Nat) : (tokenAlphas (glyphTaken bytes rem)).length ≤ rem := by
  induction bytes generalizing rem with
  | nil => exact Nat.zero_le _
  | cons b rest ih =>
    rw [glyphTaken]
    split
    · exact Nat.zero_le _
    · rename_i h
      have := ih (rem - (tokenOf b).pixels)
      simp only [tokenAlphas, List.flatMap_cons, List.length_append, List.length_replicate] at this ⊢
      omega

end Sys2Proof.Machine
end

