-- ==== Sys2Proof/Laws/State.lean ====
section
/-! SUPPORT. One lemma for each field of State under each shared update, so that no proof unfolds a record update. -/

namespace Sys2Proof.Machine

@[simp] theorem State.enterFault_fg (s : State) (op : Byte) (c : Cause) :
    (s.enterFault op c).fg = s.fg := rfl
@[simp] theorem State.enterFault_bg (s : State) (op : Byte) (c : Cause) :
    (s.enterFault op c).bg = s.bg := rfl
@[simp] theorem State.enterFault_res0 (s : State) (op : Byte) (c : Cause) :
    (s.enterFault op c).res0 = s.res0 := rfl
@[simp] theorem State.enterFault_res1 (s : State) (op : Byte) (c : Cause) :
    (s.enterFault op c).res1 = s.res1 := rfl
@[simp] theorem State.enterFault_status (s : State) (op : Byte) (c : Cause) :
    (s.enterFault op c).status = faultStatus op c := rfl
@[simp] theorem State.enterFault_screen (s : State) (op : Byte) (c : Cause) :
    (s.enterFault op c).screen = s.screen := rfl
@[simp] theorem State.enterFault_cfg (s : State) (op : Byte) (c : Cause) :
    (s.enterFault op c).cfg = s.cfg := rfl
@[simp] theorem State.enterFault_inbox (s : State) (op : Byte) (c : Cause) :
    (s.enterFault op c).inbox = s.inbox := rfl
@[simp] theorem State.enterFault_trace (s : State) (op : Byte) (c : Cause) :
    (s.enterFault op c).trace = s.trace := rfl
@[simp] theorem State.enterFault_rsp (s : State) (op : Byte) (c : Cause) :
    (s.enterFault op c).rsp = s.rsp := rfl

@[simp] theorem State.respond_fg (s : State) :
    (s.respond).fg = s.fg := rfl
@[simp] theorem State.respond_bg (s : State) :
    (s.respond).bg = s.bg := rfl
@[simp] theorem State.respond_res0 (s : State) :
    (s.respond).res0 = s.res0 := rfl
@[simp] theorem State.respond_res1 (s : State) :
    (s.respond).res1 = s.res1 := rfl
@[simp] theorem State.respond_status (s : State) :
    (s.respond).status = s.status := rfl
@[simp] theorem State.respond_screen (s : State) :
    (s.respond).screen = s.screen := rfl
@[simp] theorem State.respond_cfg (s : State) :
    (s.respond).cfg = s.cfg := rfl
@[simp] theorem State.respond_inbox (s : State) :
    (s.respond).inbox = s.inbox := rfl
@[simp] theorem State.respond_trace (s : State) :
    (s.respond).trace = s.trace := rfl
@[simp] theorem State.respond_rsp (s : State) :
    (s.respond).rsp = some s.responseWord := rfl

@[simp] theorem State.withTrace_fg (s : State) (calls : List DpaCall) :
    (s.withTrace calls).fg = s.fg := rfl
@[simp] theorem State.withTrace_bg (s : State) (calls : List DpaCall) :
    (s.withTrace calls).bg = s.bg := rfl
@[simp] theorem State.withTrace_res0 (s : State) (calls : List DpaCall) :
    (s.withTrace calls).res0 = s.res0 := rfl
@[simp] theorem State.withTrace_res1 (s : State) (calls : List DpaCall) :
    (s.withTrace calls).res1 = s.res1 := rfl
@[simp] theorem State.withTrace_status (s : State) (calls : List DpaCall) :
    (s.withTrace calls).status = s.status := rfl
@[simp] theorem State.withTrace_screen (s : State) (calls : List DpaCall) :
    (s.withTrace calls).screen = applyTrace s.cfg s.screen calls := rfl
@[simp] theorem State.withTrace_cfg (s : State) (calls : List DpaCall) :
    (s.withTrace calls).cfg = s.cfg := rfl
@[simp] theorem State.withTrace_inbox (s : State) (calls : List DpaCall) :
    (s.withTrace calls).inbox = s.inbox := rfl
@[simp] theorem State.withTrace_trace (s : State) (calls : List DpaCall) :
    (s.withTrace calls).trace = calls := rfl
@[simp] theorem State.withTrace_rsp (s : State) (calls : List DpaCall) :
    (s.withTrace calls).rsp = s.rsp := rfl

@[simp] theorem State.finish_fg (s : State) :
    (s.finish).fg = s.fg := rfl
@[simp] theorem State.finish_bg (s : State) :
    (s.finish).bg = s.bg := rfl
@[simp] theorem State.finish_res0 (s : State) :
    (s.finish).res0 = s.res0 := rfl
@[simp] theorem State.finish_res1 (s : State) :
    (s.finish).res1 = s.res1 := rfl
@[simp] theorem State.finish_status (s : State) :
    (s.finish).status = s.status := rfl
@[simp] theorem State.finish_screen (s : State) :
    (s.finish).screen = s.screen := rfl
@[simp] theorem State.finish_cfg (s : State) :
    (s.finish).cfg = s.cfg := rfl
@[simp] theorem State.finish_inbox (s : State) :
    (s.finish).inbox = s.inbox := rfl
@[simp] theorem State.finish_trace (s : State) :
    (s.finish).trace = [] := rfl
@[simp] theorem State.finish_rsp (s : State) :
    (s.finish).rsp = some s.responseWord := rfl

@[simp] theorem State.decodeFault_fg (s : State) (op : Byte) (c : Cause) :
    (s.decodeFault op c).fg = s.fg := rfl
@[simp] theorem State.decodeFault_bg (s : State) (op : Byte) (c : Cause) :
    (s.decodeFault op c).bg = s.bg := rfl
@[simp] theorem State.decodeFault_res0 (s : State) (op : Byte) (c : Cause) :
    (s.decodeFault op c).res0 = s.res0 := rfl
@[simp] theorem State.decodeFault_res1 (s : State) (op : Byte) (c : Cause) :
    (s.decodeFault op c).res1 = s.res1 := rfl
@[simp] theorem State.decodeFault_status (s : State) (op : Byte) (c : Cause) :
    (s.decodeFault op c).status = faultStatus op c := rfl
@[simp] theorem State.decodeFault_screen (s : State) (op : Byte) (c : Cause) :
    (s.decodeFault op c).screen = s.screen := rfl
@[simp] theorem State.decodeFault_cfg (s : State) (op : Byte) (c : Cause) :
    (s.decodeFault op c).cfg = s.cfg := rfl
@[simp] theorem State.decodeFault_inbox (s : State) (op : Byte) (c : Cause) :
    (s.decodeFault op c).inbox = s.inbox := rfl
@[simp] theorem State.decodeFault_trace (s : State) (op : Byte) (c : Cause) :
    (s.decodeFault op c).trace = [] := rfl
@[simp] theorem State.decodeFault_rsp (s : State) (op : Byte) (c : Cause) :
    (s.decodeFault op c).rsp = some (faultStatus op c ++ s.res1 ++ s.res0) := rfl

@[simp] theorem State.setRes0_fg (s : State) (v : Word) :
    (s.setRes0 v).fg = s.fg := rfl
@[simp] theorem State.setRes0_bg (s : State) (v : Word) :
    (s.setRes0 v).bg = s.bg := rfl
@[simp] theorem State.setRes0_res0 (s : State) (v : Word) :
    (s.setRes0 v).res0 = v := rfl
@[simp] theorem State.setRes0_res1 (s : State) (v : Word) :
    (s.setRes0 v).res1 = s.res1 := rfl
@[simp] theorem State.setRes0_status (s : State) (v : Word) :
    (s.setRes0 v).status = s.status := rfl
@[simp] theorem State.setRes0_screen (s : State) (v : Word) :
    (s.setRes0 v).screen = s.screen := rfl
@[simp] theorem State.setRes0_cfg (s : State) (v : Word) :
    (s.setRes0 v).cfg = s.cfg := rfl
@[simp] theorem State.setRes0_inbox (s : State) (v : Word) :
    (s.setRes0 v).inbox = s.inbox := rfl
@[simp] theorem State.setRes0_trace (s : State) (v : Word) :
    (s.setRes0 v).trace = s.trace := rfl
@[simp] theorem State.setRes0_rsp (s : State) (v : Word) :
    (s.setRes0 v).rsp = s.rsp := rfl

@[simp] theorem State.resetBlock_fg (s : State) :
    (s.resetBlock).fg = 0xFFFF#16 := rfl
@[simp] theorem State.resetBlock_bg (s : State) :
    (s.resetBlock).bg = 0x0000#16 := rfl
@[simp] theorem State.resetBlock_res0 (s : State) :
    (s.resetBlock).res0 = 0x0000#16 := rfl
@[simp] theorem State.resetBlock_res1 (s : State) :
    (s.resetBlock).res1 = 0x0000#16 := rfl
@[simp] theorem State.resetBlock_status (s : State) :
    (s.resetBlock).status = 0x0000#16 := rfl
@[simp] theorem State.resetBlock_screen (s : State) :
    (s.resetBlock).screen = { s.screen with bus := .idle } := rfl
@[simp] theorem State.resetBlock_cfg (s : State) :
    (s.resetBlock).cfg = s.cfg := rfl
@[simp] theorem State.resetBlock_inbox (s : State) :
    (s.resetBlock).inbox = s.inbox := rfl
@[simp] theorem State.resetBlock_trace (s : State) :
    (s.resetBlock).trace = [.idle] := rfl
@[simp] theorem State.resetBlock_rsp (s : State) :
    (s.resetBlock).rsp = none := rfl

@[simp] theorem State.withFetchWord_fg (s : State) (nbits w : Nat) :
    (s.withFetchWord nbits w).fg = s.fg := rfl
@[simp] theorem State.withFetchWord_bg (s : State) (nbits w : Nat) :
    (s.withFetchWord nbits w).bg = s.bg := rfl
@[simp] theorem State.withFetchWord_res0 (s : State) (nbits w : Nat) :
    (s.withFetchWord nbits w).res0 = s.res0 := rfl
@[simp] theorem State.withFetchWord_res1 (s : State) (nbits w : Nat) :
    (s.withFetchWord nbits w).res1 = s.res1 := rfl
@[simp] theorem State.withFetchWord_status (s : State) (nbits w : Nat) :
    (s.withFetchWord nbits w).status = s.status := rfl
@[simp] theorem State.withFetchWord_screen (s : State) (nbits w : Nat) :
    (s.withFetchWord nbits w).screen = s.screen := rfl
@[simp] theorem State.withFetchWord_cfg (s : State) (nbits w : Nat) :
    (s.withFetchWord nbits w).cfg = s.cfg := rfl
@[simp] theorem State.withFetchWord_inbox (s : State) (nbits w : Nat) :
    (s.withFetchWord nbits w).inbox = .command (BitVec.ofNat 128 (w % 2 ^ nbits)) :: s.inbox := rfl
@[simp] theorem State.withFetchWord_trace (s : State) (nbits w : Nat) :
    (s.withFetchWord nbits w).trace = s.trace := rfl
@[simp] theorem State.withFetchWord_rsp (s : State) (nbits w : Nat) :
    (s.withFetchWord nbits w).rsp = s.rsp := rfl

/-! ### The end of a paint command -/

@[simp] theorem State.responseWord_withTrace (s : State) (calls : List DpaCall) :
    (s.withTrace calls).responseWord = s.responseWord := rfl

@[simp] theorem State.responseWord_enterFault (s : State) (op : Byte) (c : Cause) :
    (s.enterFault op c).responseWord = faultStatus op c ++ s.res1 ++ s.res0 := rfl

theorem State.finishPaint_of_none (s : State) (op : Byte) (p : Paint) (h : p.cause = none) :
    s.finishPaint op p = (s.withTrace p.calls).respond := by
  simp [State.finishPaint, h]

theorem State.finishPaint_of_some (s : State) (op : Byte) (p : Paint) (c : Cause) (h : p.cause = some c) :
    s.finishPaint op p = ((s.withTrace p.calls).enterFault op c).respond := by
  simp [State.finishPaint, h]

@[simp] theorem State.finishPaint_fg (s : State) (op : Byte) (p : Paint) :
    (s.finishPaint op p).fg = s.fg := by
  unfold State.finishPaint; split <;> rfl
@[simp] theorem State.finishPaint_bg (s : State) (op : Byte) (p : Paint) :
    (s.finishPaint op p).bg = s.bg := by
  unfold State.finishPaint; split <;> rfl
@[simp] theorem State.finishPaint_res0 (s : State) (op : Byte) (p : Paint) :
    (s.finishPaint op p).res0 = s.res0 := by
  unfold State.finishPaint; split <;> rfl
@[simp] theorem State.finishPaint_res1 (s : State) (op : Byte) (p : Paint) :
    (s.finishPaint op p).res1 = s.res1 := by
  unfold State.finishPaint; split <;> rfl
@[simp] theorem State.finishPaint_screen (s : State) (op : Byte) (p : Paint) :
    (s.finishPaint op p).screen = applyTrace s.cfg s.screen p.calls := by
  unfold State.finishPaint; split <;> rfl
@[simp] theorem State.finishPaint_cfg (s : State) (op : Byte) (p : Paint) :
    (s.finishPaint op p).cfg = s.cfg := by
  unfold State.finishPaint; split <;> rfl
@[simp] theorem State.finishPaint_inbox (s : State) (op : Byte) (p : Paint) :
    (s.finishPaint op p).inbox = s.inbox := by
  unfold State.finishPaint; split <;> rfl
@[simp] theorem State.finishPaint_trace (s : State) (op : Byte) (p : Paint) :
    (s.finishPaint op p).trace = p.calls := by
  unfold State.finishPaint; split <;> rfl

/-- The response of a paint command is the registers' value after it (30_encoding.md R94). -/
@[simp] theorem State.finishPaint_rsp (s : State) (op : Byte) (p : Paint) :
    (s.finishPaint op p).rsp = some (s.finishPaint op p).responseWord := by
  unfold State.finishPaint; split <;> rfl

theorem State.finishPaint_status (s : State) (op : Byte) (p : Paint) :
    (s.finishPaint op p).status = match p.cause with | none => s.status | some c => faultStatus op c := by
  unfold State.finishPaint; split <;> simp_all

end Sys2Proof.Machine
end

