-- ==== Sys2Proof/Laws/Step.lean ====
section
/-! SUPPORT. What a meaning and a step can do, said once: one lemma for each meaning, and one inversion lemma for the
step. -/

namespace Sys2Proof.Machine

/-- What a compositor command can do (40_compositor.md R120). -/
theorem compositorCommand_cases (op : Byte) (ok : Bool) (v : Word) (s : State) :
    (ok = true ∧ compositorCommand op ok v s = .next (s.setRes0 v).finish) ∨
    (ok = false ∧ compositorCommand op ok v s = .next (s.decodeFault op .operandRange)) := by
  cases ok
  · exact .inr ⟨rfl, rfl⟩
  · exact .inl ⟨rfl, rfl⟩

/-- What any meaning can do: end without an adapter call after writing registers of its own, fault on its operands, or
paint a trace that depends on the parameters and the two colours alone. -/
theorem exec_cases (i : Instr) (s : State) :
    (∃ fg bg res0 res1, exec i s = .next ({ s with fg := fg, bg := bg, res0 := res0, res1 := res1 } : State).finish) ∨
    exec i s = .next (s.decodeFault i.opcode .operandRange) ∨
    (∃ p : Config → Pixel → Pixel → Paint, paints i = true ∧
      ∀ s', exec i s' = .next (s'.finishPaint i.opcode (p s'.cfg s'.fg s'.bg))) := by
  have comp (op : Byte) (ok : Bool) (v : Word) (h : exec i s = compositorCommand op ok v s) (hop : op = i.opcode) :
      (∃ fg bg res0 res1, exec i s = .next ({ s with fg := fg, bg := bg, res0 := res0, res1 := res1 } : State).finish) ∨
      exec i s = .next (s.decodeFault i.opcode .operandRange) := by
    rcases compositorCommand_cases op ok v s with ⟨_, e⟩ | ⟨_, e⟩
    · exact .inl ⟨s.fg, s.bg, v, s.res1, h.trans e⟩
    · exact .inr (h.trans (hop ▸ e))
  cases i with
  | nop => exact .inl ⟨s.fg, s.bg, s.res0, s.res1, rfl⟩
  | sqrt n => rw [← or_assoc]; exact .inl (comp _ _ _ rfl rfl)
  | mulch p a => rw [← or_assoc]; exact .inl (comp _ _ _ rfl rfl)
  | mulpx px alpha => rw [← or_assoc]; exact .inl (comp _ _ _ rfl rfl)
  | blendch f b a => rw [← or_assoc]; exact .inl (comp _ _ _ rfl rfl)
  | blendpx fg bg alpha => rw [← or_assoc]; exact .inl (comp _ _ _ rfl rfl)
  | unitvec angle =>
    exact .inl ⟨s.fg, s.bg, to16 (unitDx s.cfg angle), to16 (unitDy s.cfg angle), rfl⟩
  | setfg colour => exact .inl ⟨colour, s.bg, s.res0, s.res1, rfl⟩
  | setbg colour => exact .inl ⟨s.fg, colour, s.res0, s.res1, rfl⟩
  | fill x y w h colour =>
    exact .inr (.inr ⟨fun c _ _ => fillPaint c (zext16 x) (zext16 y) (zext16 w) (zext16 h) colour, rfl, fun _ => rfl⟩)
  | line x0 y0 dx dy minE maxE =>
    exact .inr (.inr ⟨fun c fg bg => linePaint c fg bg (zext16 x0) (zext16 y0) (sext16 dx) (sext16 dy) (zext16 minE)
      (zext16 maxE), rfl, fun _ => rfl⟩)
  | ring cx cy ri ro =>
    exact .inr (.inr ⟨fun c fg bg => ringPaint c fg bg (zext16 cx) (zext16 cy) (zext16 ri) (zext16 ro), rfl,
      fun _ => rfl⟩)
  | glyph x y addr =>
    exact .inr (.inr ⟨fun c fg _ => glyphPaint c fg (zext16 x) (zext16 y) (zext16 addr), rfl, fun _ => rfl⟩)
  | pair x y dir alpha =>
    cases h : inDIR dir with
    | false => exact .inr (.inl (by simp [exec, execPair, h]))
    | true =>
      exact .inr (.inr ⟨fun c fg bg => pairPaint c fg bg (zext16 x) (zext16 y) (zext16 dir) (zext16 alpha), rfl,
        fun s' => by simp [exec, execPair, h]⟩)

/-- What a step can do (20_memory.md R70, 30_encoding.md R93, 60_exceptions.md R253, 70_reset_and_hazards.md R280): wait
with no input; reset; discard a word while halted; fault on a word that does not decode; or execute a command. -/
theorem step_cases (s : State) :
    (s.inbox = [] ∧ step s = .next s) ∨
    (∃ rest, s.inbox = .reset :: rest ∧ step s = .next ({ s with inbox := rest } : State).resetBlock) ∨
    (∃ w rest, s.inbox = .command w :: rest ∧ s.halted = true ∧
      step s = .next ({ s with inbox := rest } : State).finish) ∨
    (∃ w rest e, s.inbox = .command w :: rest ∧ s.halted = false ∧ decode w = .error e ∧
      step s = .next (({ s with inbox := rest } : State).decodeFault (opByte w) (causeOf e))) ∨
    (∃ w rest i, s.inbox = .command w :: rest ∧ s.halted = false ∧ decode w = .ok i ∧
      step s = exec i { s with inbox := rest }) := by
  have hh (rest : List HostInput) : ({ s with inbox := rest } : State).halted = s.halted := rfl
  cases hi : s.inbox with
  | nil => exact .inl ⟨rfl, by simp [step, State.takeInput, hi]⟩
  | cons inp rest =>
    cases inp with
    | reset => exact .inr (.inl ⟨rest, rfl, by simp [step, State.takeInput, hi]⟩)
    | command w =>
      cases hs : s.halted with
      | true => exact .inr (.inr (.inl ⟨w, rest, rfl, rfl, by simp [step, State.takeInput, State.acceptWord, hi, hh, hs]⟩))
      | false =>
        cases hd : decode w with
        | error e =>
          exact .inr (.inr (.inr (.inl ⟨w, rest, e, rfl, rfl, hd,
            by simp [step, State.takeInput, State.acceptWord, hi, hh, hs, hd]⟩)))
        | ok i =>
          exact .inr (.inr (.inr (.inr ⟨w, rest, i, rfl, rfl, hd,
            by simp [step, State.takeInput, State.acceptWord, hi, hh, hs, hd]⟩)))

end Sys2Proof.Machine
end

