-- ==== Sys2Proof/Tests/Slice0.lean ====
section
/-! SUPPORT. Tests of the model against 95_test_vectors.md, each expected value from there or worked out by hand from the
rule named, and for every obligation with hypotheses a named state and operands that meet all of them. -/

namespace Sys2Proof.Tests

open Sys2Proof Sys2Proof.Machine

/-- The parameters of the small states: a 16 by 16 display, the given glyph memory, the default sine table. -/
def smallConfig (gmem : List Byte) : Config :=
  { dispW := 16, dispH := 16, gmem := gmem, sine := Config.defaultSine }

/-- The state after reset of a block with a 16 by 16 display and the given glyph memory. -/
def small (gmem : List Byte) : State := { State.reset with cfg := smallConfig gmem }

/-- The glyph memory of vector Y1. -/
def gmemY1 : List Byte :=
  [0xEE, 0xEE, 0x04, 0x00, 0x03, 0x00, 0x42, 0x20, 0x82, 0x3F, 0x40, 0x00, 0x81, 0x44, 0xC0, 0xFF]

/-- The small state with the glyph memory of vector Y1. -/
def base : State := small gmemY1

/-- The small state with the colours of vectors P9 and G9. -/
def coloured : State := { base with fg := 0xF800, bg := 0x001F }

/-- The small state halted by vector F4. -/
def haltedState : State := { base with status := 0x2041 }

/-- The state with one input presented. -/
def presenting (w : CommandWord) (s : State) : State := { s with inbox := [.command w] }

/-- The next state, the state itself where there is none. -/
def next (o : Host.Outcome State Fault Refusal) (s : State) : State :=
  match o with
  | .next t => t
  | _ => s

/-- The trace and the response of a command. -/
def shows (i : Instr) (s : State) : List DpaCall × Option ResponseWord :=
  ((next (exec i s) s).trace, (next (exec i s) s).rsp)

/-! ### Operand ranges (30_encoding.md R92) -/

theorem test_wellFormed_sqrt : (Instr.sqrt 4095).wellFormed = true ∧ (Instr.sqrt 4096).wellFormed = false := by decide

theorem test_wellFormed_mulch :
    (Instr.mulch 63 63).wellFormed = true ∧ (Instr.mulch 64 1).wellFormed = false ∧
    (Instr.mulch 1 64).wellFormed = false := by decide

theorem test_wellFormed_blendch :
    (Instr.blendch 63 63 63).wellFormed = true ∧ (Instr.blendch 64 0 0).wellFormed = false ∧
    (Instr.blendch 0 64 0).wellFormed = false ∧ (Instr.blendch 10 50 64).wellFormed = false := by decide

theorem test_wellFormed_pair :
    (Instr.pair 5 5 3 1000).wellFormed = true ∧ (Instr.pair 5 5 4 10).wellFormed = false := by decide

/-! ### Decoding: the words of 95_test_vectors.md -/

/-- X1. -/
theorem test_decode_nop : decode 0x00000000000000000000000000000000 = .ok .nop := by decide

/-- 2.1. -/
theorem test_decode_sqrt : decode 0x010000000F4200000000000000000000 = .ok (.sqrt 3906) := by decide

/-- 2.1. -/
theorem test_decode_mulch : decode 0x02000000004000010000000000000000 = .ok (.mulch 64 1) := by decide

/-- 2.1. -/
theorem test_decode_mulpx : decode 0x03000000FFFF00200000000000000000 = .ok (.mulpx 0xFFFF 32) := by decide

/-- 2.1. -/
theorem test_decode_blendch : decode 0x04000000000A00320014000000000000 = .ok (.blendch 10 50 20) := by decide

/-- 2.1. -/
theorem test_decode_blendpx : decode 0x05000000F800001F0020000000000000 = .ok (.blendpx 0xF800 0x001F 32) := by decide

/-- 2.2. -/
theorem test_decode_unitvec : decode 0x08000000008000000000000000000000 = .ok (.unitvec 128) := by decide

/-- X2. -/
theorem test_decode_setfg : decode 0x10000000F80000000000000000000000 = .ok (.setfg 0xF800) := by decide

/-- X3. -/
theorem test_decode_setbg : decode 0x11000000001F00000000000000000000 = .ok (.setbg 0x001F) := by decide

/-- F1. -/
theorem test_decode_fill : decode 0x200000000002000300040002F8000000 = .ok (.fill 2 3 4 2 0xF800) := by decide

/-- L2: `dx` is -88. -/
theorem test_decode_line : decode 0x2100000000080008FFA800F100020005 = .ok (.line 8 8 0xFFA8 241 2 5) := by decide

/-- G1. -/
theorem test_decode_ring : decode 0x22000000000500050001000200000000 = .ok (.ring 5 5 1 2) := by decide

/-- Y1. -/
theorem test_decode_glyph : decode 0x23000000000300020002000000000000 = .ok (.glyph 3 2 2) := by decide

/-- P4. -/
theorem test_decode_pair : decode 0x24000000000500050003001400000000 = .ok (.pair 5 5 3 20) := by decide

/-- X4, X5: an illegal opcode wins over reserved bits. -/
theorem test_decode_illegal :
    decode 0x06000000000000000000000000000000 = .error .illegalOpcode ∧
    decode 0xFF000001000000000000000000000005 = .error .illegalOpcode := by decide

/-- X6, X7, F7. -/
theorem test_decode_reserved :
    decode 0x00000001000000000000000000000000 = .error .reservedNonzero ∧
    decode 0x01000000138800070000000000000000 = .error .reservedNonzero ∧
    decode 0x200000000000000000010001FFFF0001 = .error .reservedNonzero := by decide

/-- F6: PIXEL is a FILL of one pixel (30_encoding.md R103). -/
theorem test_pseudo_pixel :
    (pseudoPixel 15 15 0x07E0).map encode = [0x20000000000F000F0001000107E00000] := by decide

/-- F5 on a 16 by 16 display, and no CLEAR on a display 65536 wide (30_encoding.md R103). -/
theorem test_pseudo_clear :
    (pseudoClear 16 16 0).map (·.map encode) = some [0x20000000000000000010001000000000] ∧
    pseudoClear 65536 16 0 = none := by decide

/-- L2 from its text (30_encoding.md R102), with a comment after it. -/
theorem test_assemble_line :
    assembleLine "LINE 8, 8, -88, 241, 2, 5 ; pointer".toList = some (.line 8 8 0xFFA8 241 2 5) ∧
    wordDigits (encode (.line 8 8 0xFFA8 241 2 5)) = "2100000000080008FFA800F100020005".toList := by decide

/-- F1 from its text, and a line with an operand missing. -/
theorem test_assemble_fill :
    assembleLine "FILL 2, 3, 4, 2, 0xF800".toList = some (.fill 2 3 4 2 0xF800) ∧
    assembleLine "FILL 2, 3, 4, 2".toList = none := by decide

/-! ### One step of each command -/

/-- X1, and NOP changes no register. -/
theorem test_nop : shows .nop base = ([], some 0x000000000000) := by decide

theorem test_sqrt : shows (.sqrt 3906) base = ([], some 0x00000000003E) := by decide

theorem test_sqrt_out_of_range : shows (.sqrt 4096) base = ([], some 0x013100000000) := by decide

theorem test_mulch : shows (.mulch 63 63) base = ([], some 0x00000000F420) := by decide

theorem test_mulch_out_of_range : shows (.mulch 64 1) base = ([], some 0x023100000000) := by decide

theorem test_mulpx : shows (.mulpx 0xFFFF 32) base = ([], some 0x00000000AD95) := by decide

/-- S2: the short-circuit at alpha 63. -/
theorem test_mulpx_full : shows (.mulpx 0xABCD 63) base = ([], some 0x00000000ABCD) := by decide

theorem test_blendch : shows (.blendch 10 50 20) base = ([], some 0x000000000029) := by decide

theorem test_blendch_out_of_range : shows (.blendch 10 50 64) base = ([], some 0x043100000000) := by decide

theorem test_blendpx : shows (.blendpx 0xF800 0x001F 32) base = ([], some 0x00000000A815) := by decide

/-- S1: a colour blended with itself is dimmed by one step. -/
theorem test_blendpx_self : shows (.blendpx 0x1234 0x1234 20) base = ([], some 0x000000000A13) := by decide

theorem test_unitvec : shows (.unitvec 128) base = ([], some 0x0000FF010000) := by decide

/-- S4. -/
theorem test_unitvec_turn : shows (.unitvec 288) base = ([], some 0x000000F1FFA8) := by decide

theorem test_setfg : (next (exec (.setfg 0xF800) base) base).fg = 0xF800 ∧
    shows (.setfg 0xF800) base = ([], some 0x000000000000) := by decide

theorem test_setbg : (next (exec (.setbg 0x001F) base) base).bg = 0x001F ∧
    shows (.setbg 0x001F) base = ([], some 0x000000000000) := by decide

/-- F1, and the pixel at (5, 4). -/
theorem test_fill :
    shows (.fill 2 3 4 2 0xF800) base
      = ([.beginRegion 2 3 5 4, .repeatDataWord 0xF800 8, .idle], some 0x000000000000) ∧
    (next (exec (.fill 2 3 4 2 0xF800) base) base).pixel 5 4 = some 0xF800 ∧
    (next (exec (.fill 2 3 4 2 0xF800) base) base).pixel 6 4 = none := by decide

/-- F4. -/
theorem test_fill_off : shows (.fill 14 0 4 1 0xFFFF) base = ([.idle], some 0x204100000000) := by decide

/-- P9: a true blend. -/
theorem test_pair :
    shows (.pair 5 5 0 21) coloured
      = ([.beginRegion 5 5 6 5, .writeDataWord 0xC811, .writeDataWord 0x8819, .idle], some 0x000000000000) := by decide

/-- P7 and P8. -/
theorem test_pair_faults :
    shows (.pair 0 5 1 10) base = ([.idle], some 0x244100000000) ∧
    shows (.pair 5 5 4 10) base = ([], some 0x243100000000) := by decide

/-- L3: vertical, upward. -/
theorem test_line :
    shows (.line 8 8 0 0xFF01 3 4) base
      = ([.beginRegion 8 5 9 5, .writeDataWord 0xFFFF, .writeDataWord 0x0000, .idle,
          .beginRegion 8 4 9 4, .writeDataWord 0xFFFF, .writeDataWord 0x0000, .idle], some 0x000000000000) := by decide

/-- The pixels of L1. -/
theorem test_line_pixels :
    let t := next (exec (.line 2 2 5 2 0 5) base) base
    t.pixel 3 2 = some 0xBE17 ∧ t.pixel 3 3 = some 0x9CF3 ∧ t.pixel 5 3 = some 0xDF1B ∧ t.pixel 7 5 = some 0x0000 := by
  decide

/-- G5: four pixels of luminance 0. -/
theorem test_ring :
    shows (.ring 5 5 0 0) base
      = ([.beginRegion 6 5 6 5, .writeDataWord 0x0000, .idle, .beginRegion 4 5 4 5, .writeDataWord 0x0000, .idle,
          .beginRegion 5 6 5 6, .writeDataWord 0x0000, .idle, .beginRegion 5 4 5 4, .writeDataWord 0x0000, .idle],
        some 0x000000000000) := by decide

/-- The pixels of G9. -/
theorem test_ring_pixels :
    let t := next (exec (.ring 8 8 1 2) coloured) coloured
    t.pixel 7 6 = some 0xC811 ∧ t.pixel 7 7 = some 0xF800 ∧ t.pixel 11 8 = some 0x001F ∧ t.pixel 8 8 = none := by
  decide

/-- The numbers of spans of G1 and G2, and the order of G1's first four: right, left, down, up. -/
theorem test_ring_spans :
    (ringSpans 5 5 1 2).length = 12 ∧ (ringSpans 8 8 3 5).length = 32 ∧
    ((ringSpans 5 5 1 2).take 4).map (fun sp => sp.pixelAt sp.toD) = [(8, 5), (2, 5), (5, 8), (5, 2)] := by decide

/-- Y1, and the pixels at its corners. -/
theorem test_glyph :
    let t := next (exec (.glyph 3 2 2) base) base
    t.pixel 5 2 = some 0xAD95 ∧ t.pixel 6 2 = some 0xFFFF ∧ t.pixel 3 3 = some 0xFFFF ∧ t.pixel 6 4 = some 0x0000 := by
  decide

/-- Y3: the overrunning token is not streamed. -/
theorem test_glyph_overrun :
    shows (.glyph 0 0 0) (small [0x02, 0x00, 0x02, 0x00, 0x83, 0x82, 0xC0])
      = ([.beginRegion 0 0 1 1, .repeatDataWord 0xFFFF 3, .idle], some 0x235100000000) := by decide

/-! ### Steps -/

/-- X4: an illegal word, from the inbox. -/
theorem test_step_illegal :
    (next (step (presenting 0x06000000000000000000000000000000 base)) base).rsp = some 0x061100000000 := by decide

/-- X8: a halted block discards SETFG and answers with the frozen registers. -/
theorem test_step_halted :
    let t := next (step (presenting 0x10000000123400000000000000000000 { haltedState with res0 := 10 })) base
    t.rsp = some 0x20410000000A ∧ t.fg = 0xFFFF ∧ t.trace = [] := by decide

/-- 70_reset_and_hazards.md R280: RESET ends the halt with one `idle()`. -/
theorem test_step_reset :
    let t := next (step { haltedState with inbox := [.reset], res0 := 10 }) base
    t.status = 0 ∧ t.res0 = 0 ∧ t.trace = [.idle] ∧ t.rsp = none := by decide

/-- After reset the first word presented is executed. -/
theorem test_fetch_word :
    (next (step (base.withFetchWord 128 0x08000000008000000000000000000000)) base).rsp = some 0x0000FF010000 := by decide

/-! ### Witnesses: a state and operands that meet the hypotheses of each statement that has some -/

theorem witness_encodeOfDecode : decode 0x24000000000500050003001400000000 = .ok (.pair 5 5 3 20) :=
  test_decode_pair

/-- A word of the first row, a word of the last row, and a word of neither. -/
theorem witness_tableRows :
    ∃ r ∈ opcodeTable, ∃ r' ∈ opcodeTable, (encode .nop &&& r.mask = r.pat ∧ r.op = 0x00) ∧
      (encode (.pair 5 5 3 20) &&& r'.mask = r'.pat ∧ r'.op = 0x24) ∧ encode .nop &&& r'.mask ≠ r'.pat := by decide

theorem witness_decodeErrors :
    (∀ r ∈ opcodeTable, opByte 0xFF000001000000000000000000000005 ≠ r.op) ∧
    (∃ r ∈ opcodeTable, opByte 0x01000000138800070000000000000000 = r.op ∧
      0x01000000138800070000000000000000 &&& r.mask ≠ r.pat) := by decide

theorem witness_stepRuns :
    (presenting 0x200000000002000300040002F8000000 base).inbox = [.command 0x200000000002000300040002F8000000] ∧
    (presenting 0x200000000002000300040002F8000000 base).halted = false ∧
    decode 0x200000000002000300040002F8000000 = .ok (.fill 2 3 4 2 0xF800) := by decide

theorem witness_stepFaults :
    (presenting 0x06000000000000000000000000000000 base).inbox = [.command 0x06000000000000000000000000000000] ∧
    (presenting 0x06000000000000000000000000000000 base).halted = false ∧
    decode 0x06000000000000000000000000000000 = .error .illegalOpcode ∧
    decode 0x00000001000000000000000000000000 = .error .reservedNonzero := by decide

theorem witness_haltedBlock :
    (presenting 0x10000000123400000000000000000000 haltedState).inbox
      = [.command 0x10000000123400000000000000000000] ∧
    (presenting 0x10000000123400000000000000000000 haltedState).halted = true := by decide

theorem witness_everyWordIsAnswered : (presenting 0 base).inbox = .command 0 :: [] := rfl

/-- A halted block with a word presented, one with nothing presented, and one with a reset presented. -/
theorem witness_onlyReset :
    (haltedState.halted = true ∧ step haltedState = .next haltedState ∧ ∀ rest, haltedState.inbox ≠ .reset :: rest) ∧
    ((presenting 0 haltedState).halted = true ∧ (∃ t, step (presenting 0 haltedState) = .next t) ∧
      ∀ rest, (presenting 0 haltedState).inbox ≠ .reset :: rest) ∧
    { haltedState with inbox := [.reset] }.inbox = .reset :: [] :=
  ⟨⟨by decide, rfl, fun _ h => by cases h⟩, ⟨by decide, ⟨_, rfl⟩, fun _ h => by cases h⟩, rfl⟩

theorem witness_canonicalMemories :
    Memory.wf [(5, 1), (65541, 2)] ∧ ∀ k, Memory.read [(5, 1), (65541, 2)] k = Memory.read [(5, 1), (65541, 2)] k :=
  ⟨by decide, fun _ => rfl⟩

/-- The first and the last pixel and the whole display; one pixel past it, before it, and inverted. -/
theorem witness_openRegion :
    regionOnDisplay base.cfg 0 0 0 0 ∧ regionOnDisplay base.cfg 15 15 15 15 ∧ regionOnDisplay base.cfg 0 0 15 15 ∧
    ¬ regionOnDisplay base.cfg 0 0 16 15 ∧ ¬ regionOnDisplay base.cfg 0 (-1) 0 0 ∧
    ¬ regionOnDisplay base.cfg 1 0 0 0 := by decide

/-- A command that answers a next state, with calls in its trace. -/
theorem witness_execAnswers : ∃ t, exec (.fill 2 3 4 2 0xF800) base = .next t ∧ t.trace ≠ [] ∧
    t.screen ≠ base.screen := ⟨_, rfl, by decide, by decide⟩

/-- Each register written by one of its commands. -/
theorem witness_registers :
    (∃ t, exec (.setfg 0xF800) base = .next t ∧ t.fg ≠ base.fg) ∧
    (∃ t, exec (.setbg 0x001F) base = .next t ∧ t.bg ≠ base.bg) ∧
    (∃ t, exec (.unitvec 0) base = .next t ∧ t.res1 ≠ base.res1 ∧ t.res0 ≠ base.res0) ∧
    (∃ t, exec (.blendch 63 0 32) base = .next t ∧ t.res0 ≠ base.res0) :=
  ⟨⟨_, rfl, by decide⟩, ⟨_, rfl, by decide⟩, ⟨_, rfl, by decide, by decide⟩, ⟨_, rfl, by decide⟩⟩

theorem witness_faultEntry :
    (∃ t, exec (.fill 14 0 4 1 0xFFFF) base = .next t ∧ t.status ≠ base.status) ∧
    (∃ t, exec (.sqrt 4096) base = .next t ∧ t.status ≠ base.status) ∧ base.screen.bus = .idle :=
  ⟨⟨_, rfl, by decide⟩, ⟨_, rfl, by decide⟩, rfl⟩

theorem witness_frameMemory : ∃ t, step (presenting 0x24000000000500050003001400000000 base) = .next t ∧
    t.trace.length = 4 := ⟨_, rfl, by decide⟩

theorem witness_sendCommand : ∃ t, step (presenting 0x24000000000500050003001400000000 base) = .next t ∧
    (presenting 0x24000000000500050003001400000000 base).inbox ≠ [] := ⟨_, rfl, by decide⟩

theorem witness_paintCommands : paints (.ring 5 5 2 1) = true ∧ (Instr.ring 5 5 2 1).wellFormed = true ∧
    ∃ t, exec (.ring 5 5 2 1) base = .next t := ⟨rfl, rfl, _, rfl⟩

/-- The invariant holds of a small state that has painted and then faulted. -/
theorem witness_invariant :
    let s : State := { next (exec (.pair 5 5 0 20) base) base with status := 0x2041, rsp := none }
    s.Inv ∧ s.screen.fb ≠ [] ∧ ∃ t, step s = .next t :=
  ⟨⟨by decide, by decide, by decide, by decide, by decide, by decide, .inl rfl⟩, by decide, _, rfl⟩

theorem witness_nop : opByte 0x00000000000000000000000000000001 = 0x00 ∧
    (0x00000000000000000000000000000001 : CommandWord) ≠ 0 := by decide

theorem witness_sqrt : (0 : Word).toNat ≤ 4095 ∧ (4095 : Word).toNat ≤ 4095 := by decide

theorem witness_channels : (63 : Word).toNat ≤ 63 ∧ (0 : Word).toNat ≤ 63 := by decide

/-- The two cases of MULPX at the boundary, and the four of BLENDPX. -/
theorem witness_alphas :
    63 ≤ (63 : Word).toNat ∧ (62 : Word).toNat < 63 ∧ 0 < (1 : Word).toNat ∧ (0 : Word).toNat = 0 ∧
    (0x001F : Pixel) ≠ 0 := by decide

theorem witness_operandOutOfRange :
    (Instr.sqrt 4096).wellFormed = false ∧ (Instr.mulch 1 64).wellFormed = false ∧
    (Instr.blendch 0 64 0).wellFormed = false ∧ (Instr.pair 5 5 4 10).wellFormed = false := by decide

theorem witness_innerAlphas : (1 ≤ 1 ∧ 1 ≤ 62) ∧ (1 ≤ 62 ∧ 62 ≤ 62) ∧ (0x0001 : Pixel) ≠ 0 := by decide

theorem witness_scale : 62 ≤ 63 ∧ 62 ≤ 63 ∧ 63 ≤ 63 ∧ scale 62 62 < scale 63 63 := by decide

/-- The first and the last step of the turn, and the quarter turn. -/
theorem witness_sine : 0 < 288 ∧ 287 < 288 ∧ base.cfg.sine[0] = 0 ∧ 144 ≤ 144 ∧ fullSine base.cfg 72 = 255 := by decide

theorem witness_unitvecPeriod : (288 : Word).toNat = (0 : Word).toNat + 288 ∧
    (65535 : Word).toNat = (65247 : Word).toNat + 288 := by decide

/-- A FILL that ends at the last pixel. -/
theorem witness_fill :
    base.cfg.wf ∧ 0 < (4 : Word).toNat ∧ 0 < (2 : Word).toNat ∧ (12 : Word).toNat + (4 : Word).toNat ≤ base.cfg.dispW ∧
    (14 : Word).toNat + (2 : Word).toNat ≤ base.cfg.dispH := by decide

/-- A zero width, a zero height, one column too many, one row too many, and sums above 65535. -/
theorem witness_fillNothing :
    (0 : Word).toNat = 0 ∧ (4 : Word).toNat ≠ 0 ∧ base.cfg.dispW < (13 : Word).toNat + (4 : Word).toNat ∧
    base.cfg.dispH < (15 : Word).toNat + (2 : Word).toNat ∧
    base.cfg.dispW < (65535 : Word).toNat + (65535 : Word).toNat := by decide

theorem witness_fillStream : (fillPaint base.cfg 0 0 16 16 0x1234).cause = none ∧ (16 : Nat) ≠ 0 := by decide

/-- The four sides, each with the neighbour at the display's edge. -/
theorem witness_pair :
    base.cfg.wf ∧
    (((0 : Word) = 0 ∧ 15 = (14 : Word).toNat + 1 ∧ 0 = (0 : Word).toNat) ∧
      (14 : Word).toNat < base.cfg.dispW ∧ 15 < base.cfg.dispW ∧ (0 : Word).toNat < base.cfg.dispH) ∧
    (((1 : Word) = 1 ∧ 0 + 1 = (1 : Word).toNat ∧ 15 = (15 : Word).toNat) ∧
      (1 : Word).toNat < base.cfg.dispW ∧ 0 < base.cfg.dispW ∧ (15 : Word).toNat < base.cfg.dispH) ∧
    (((2 : Word) = 2 ∧ 0 = (0 : Word).toNat ∧ 15 = (14 : Word).toNat + 1) ∧
      (0 : Word).toNat < base.cfg.dispW ∧ (14 : Word).toNat < base.cfg.dispH ∧ 15 < base.cfg.dispH) ∧
    (((3 : Word) = 3 ∧ 15 = (15 : Word).toNat ∧ 0 + 1 = (1 : Word).toNat) ∧
      (15 : Word).toNat < base.cfg.dispW ∧ (1 : Word).toNat < base.cfg.dispH ∧ 0 < base.cfg.dispH) := by decide

/-- The pixel off the display, and its neighbour off it on each side. -/
theorem witness_pairOff :
    ¬ pixelOnDisplay base.cfg ((16 : Word).toNat, (5 : Word).toNat) ∧
    ¬ pixelOnDisplay base.cfg (neighbour (15 : Word).toNat (5 : Word).toNat true 1) ∧
    ¬ pixelOnDisplay base.cfg (neighbour (0 : Word).toNat (5 : Word).toNat true (-1)) ∧
    ¬ pixelOnDisplay base.cfg (neighbour (5 : Word).toNat (15 : Word).toNat false 1) ∧
    ¬ pixelOnDisplay base.cfg (neighbour (5 : Word).toNat (0 : Word).toNat false (-1)) := by decide

theorem witness_lineLoop : (lineDir (-88) 241).dmaj ≠ 0 ∧ (lineDir (-32768) 0).dmaj = 32768 := by decide

/-- L1, whose last pair ends at (7, 5). -/
theorem witness_line :
    let d := lineDir (5 : Word).toInt (2 : Word).toInt
    base.cfg.wf ∧ (5 : Word) ≠ 0 ∧ (0 : Word).toNat ≤ (5 : Word).toNat ∧
    ∀ i, (0 : Word).toNat ≤ i → i ≤ (5 : Word).toNat →
      pixelOnDisplay base.cfg (lineNear d (2 : Word).toNat (2 : Word).toNat i) ∧
      pixelOnDisplay base.cfg (lineFar d (2 : Word).toNat (2 : Word).toNat i) := by
  refine ⟨by decide, by decide, by decide, fun i _ h => ?_⟩
  exact (by decide : ∀ i ≤ 5, pixelOnDisplay base.cfg (lineNear (lineDir 5 2) 2 2 i) ∧
    pixelOnDisplay base.cfg (lineFar (lineDir 5 2) 2 2 i)) i h

theorem witness_lineNothing : ((0 : Word) = 0 ∧ (0 : Word) = 0) ∧ (2 : Word).toNat < (4 : Word).toNat := by decide

/-- L8: the pair of step 3 is the first that leaves the display. -/
theorem witness_lineFault :
    let d := lineDir (1 : Word).toInt (0 : Word).toInt
    (1 : Word) ≠ 0 ∧ (0 : Word).toNat ≤ 3 ∧ 3 ≤ (5 : Word).toNat ∧
    (∀ i, (0 : Word).toNat ≤ i → i < 3 →
      pixelOnDisplay base.cfg (lineNear d (13 : Word).toNat (4 : Word).toNat i) ∧
      pixelOnDisplay base.cfg (lineFar d (13 : Word).toNat (4 : Word).toNat i)) ∧
    ¬ (pixelOnDisplay base.cfg (lineNear d (13 : Word).toNat (4 : Word).toNat 3) ∧
      pixelOnDisplay base.cfg (lineFar d (13 : Word).toNat (4 : Word).toNat 3)) := by
  refine ⟨by decide, by decide, by decide, fun i _ h => ?_, by decide⟩
  exact (by decide : ∀ i < 3, pixelOnDisplay base.cfg (lineNear (lineDir 1 0) 13 4 i) ∧
    pixelOnDisplay base.cfg (lineFar (lineDir 1 0) 13 4 i)) i h

theorem witness_tracker : (65535 ≤ 65535 ∧ 0 ≤ 65535) ∧ (65535 ≤ 65535 ∧ 65535 ≤ 65535) ∧
    (trackerAt 5 2).x = 4 ∧ ringX 5 2 = 4 := by decide

/-- Row 0 of G2, whole, and row 4, a single pixel. -/
theorem witness_spans :
    (rowInLoop 5 0 ∧ rowFirst 3 0 ≤ 4 ∧ 0 ≤ 4 ∧ 4 ≤ 6 ∧ 6 = rowLast 5 0) ∧
    (rowInLoop 5 4 ∧ rowFirst 3 4 ≤ 4 ∧ 4 ≤ 4 ∧ 4 = rowLast 5 4) := by decide

/-- A ring whose margin reaches the display's last column and its first row, the first and the last pixel it covers on
the axis, and one in its hole. -/
theorem witness_ring :
    base.cfg.wf ∧ (3 : Word).toNat ≤ (6 : Word).toNat ∧
    (6 : Word).toNat + 1 ≤ (8 : Word).toNat ∧ (8 : Word).toNat + (6 : Word).toNat + 1 < base.cfg.dispW ∧
    (6 : Word).toNat + 1 ≤ (7 : Word).toNat ∧ (7 : Word).toNat + (6 : Word).toNat + 1 < base.cfg.dispH ∧
    ringCovers 3 6 7 0 ∧ ringCovers 3 6 4 0 ∧ ¬ ringCovers 3 6 3 0 := by decide

/-- On a 16 by 16 display, each side of the ring in turn the first to leave it: right, left, down, up. -/
theorem witness_ringOff :
    (1 : Word).toNat ≤ (2 : Word).toNat ∧
    (¬ (13 : Word).toNat + (2 : Word).toNat + 1 < base.cfg.dispW ∧
      ((ringRowSpans 13 8 1 2 0).takeWhile fun sp => decide (sp.onDisplay base.cfg)).length = 0) ∧
    (¬ (2 : Word).toNat + 1 ≤ (2 : Word).toNat ∧
      ((ringRowSpans 2 8 1 2 0).takeWhile fun sp => decide (sp.onDisplay base.cfg)).length = 1) ∧
    (¬ (13 : Word).toNat + (2 : Word).toNat + 1 < base.cfg.dispH ∧
      ((ringRowSpans 8 13 1 2 0).takeWhile fun sp => decide (sp.onDisplay base.cfg)).length = 2) ∧
    (¬ (2 : Word).toNat + 1 ≤ (2 : Word).toNat ∧
      ((ringRowSpans 8 2 1 2 0).takeWhile fun sp => decide (sp.onDisplay base.cfg)).length = 3) := by decide

theorem witness_ringNothing : (1 : Word).toNat < (2 : Word).toNat := by decide

theorem witness_ringThickness :
    0 ≤ 0 ∧ 0 ≤ 65535 ∧ 3 < 4 ∧ 4 ≤ 5 ∧ 3 ≤ 5 ∧ 5 ≤ 65535 ∧ (2 ≤ 3 ∧ 2 ≤ ringX 3 2) ∧ (3 ≤ 3 ∧ 0 ≤ ringX 3 3) := by decide

theorem witness_emptyRun : ((0x40 : Byte) = 0x40 ∨ (0x40 : Byte) = 0x80) ∧ tokenOf 0x80 = .opaqueRun 0 := by decide

/-- Y1, with its rectangle ending at the last pixel. -/
theorem witness_glyph :
    base.cfg.wf ∧ memRead16 base.cfg (2 : Word).toNat = some 4 ∧ memRead16 base.cfg ((2 : Word).toNat + 2) = some 3 ∧
    (12 : Word).toNat + 4 ≤ base.cfg.dispW ∧ (13 : Word).toNat + 3 ≤ base.cfg.dispH ∧
    glyphAlphas (base.cfg.gmem.drop ((2 : Word).toNat + 4)) = some [0, 0, 32, 63, 63, 63, 0, 63, 0, 0, 0, 0] := by decide

/-- The header that Y3, Y4 and Y5 share, and the tokens of each. -/
theorem witness_malformedTokens :
    (∀ g ∈ [[0x02, 0x00, 0x02, 0x00, 0x83, 0x82, 0xC0], [0x02, 0x00, 0x02, 0x00, 0x83, 0xC0],
        [0x02, 0x00, 0x02, 0x00, 0x84]],
      (small g).cfg.wf ∧ memRead16 (small g).cfg (0 : Word).toNat = some 2 ∧ memRead16 (small g).cfg ((0 : Word).toNat + 2) = some 2 ∧
      (14 : Word).toNat + 2 ≤ (small g).cfg.dispW ∧ (14 : Word).toNat + 2 ≤ (small g).cfg.dispH) ∧
    2 * 2 < glyphLength (([0x02, 0x00, 0x02, 0x00, 0x83, 0x82, 0xC0] : List Byte).drop 4) ∧
    (glyphLength (([0x02, 0x00, 0x02, 0x00, 0x83, 0xC0] : List Byte).drop 4) < 2 * 2 ∧
      glyphAlphas (([0x02, 0x00, 0x02, 0x00, 0x83, 0xC0] : List Byte).drop 4) ≠ none) ∧
    (glyphLength (([0x02, 0x00, 0x02, 0x00, 0x84] : List Byte).drop 4) ≤ 2 * 2 ∧
      glyphAlphas (([0x02, 0x00, 0x02, 0x00, 0x84] : List Byte).drop 4) = none) := by decide

/-- Y8, Y6 and Y7, and the header that ends at the last byte of glyph memory. -/
theorem witness_glyphHeader :
    (small [0x02, 0x00, 0x02, 0x00, 0x84, 0xC0]).cfg.gmemSize < (3 : Word).toNat + 4 ∧
    (memRead16 (small [0x00, 0x00, 0x02, 0x00]).cfg (0 : Word).toNat = some 0 ∧
      memRead16 (small [0x00, 0x00, 0x02, 0x00]).cfg ((0 : Word).toNat + 2) = some 2) ∧
    (memRead16 (small [0x02, 0x00, 0x02, 0x00, 0x84, 0xC0]).cfg (0 : Word).toNat = some 2 ∧
      memRead16 (small [0x02, 0x00, 0x02, 0x00, 0x84, 0xC0]).cfg ((0 : Word).toNat + 2) = some 2 ∧
      (small [0x02, 0x00, 0x02, 0x00, 0x84, 0xC0]).cfg.dispW < (15 : Word).toNat + 2) := by decide

end Sys2Proof.Tests
end

section
/-! The state after reset (10_state.md R30, 70_reset_and_hazards.md R281). -/

namespace Sys2Proof.Machine

/-- 70_reset_and_hazards.md R281: nothing has been painted in the state after reset. -/
@[simp] theorem State.reset_pixel (x y : Nat) : State.reset.pixel x y = none := rfl

/-- Where nothing has been painted, the display still holds the unknown `FB0`. -/
theorem State.shown_of_unpainted {s : State} {x y : Nat} (h : s.pixel x y = none) :
    s.shown x y = Config.fb0 x y := by
  simp [State.shown, h]

/-- Settles O11: the registers and the bus are fields of `State.reset`, every pixel of it is unpainted, and reset keeps
the parameters, glyph memory among them. -/
theorem resetStateIsAsStated : Obligations.ResetStateIsAsStated := by
  have hshown (x y : Nat) : State.reset.shown x y = Config.fb0 x y :=
    State.shown_of_unpainted (State.reset_pixel x y)
  have hgmem (s : State) : s.resetBlock.cfg.gmem = s.cfg.gmem :=
    congrArg Config.gmem s.resetBlock_cfg
  exact ⟨rfl, rfl, rfl, rfl, rfl, rfl, hshown, hgmem⟩

end Sys2Proof.Machine
end

section
/-! The adapter's calls (20_memory.md section 2): repeated words and `Stream` as successive single words, R56 and R59, and
the absence of `sendCommand` from every trace, R58. -/

namespace Sys2Proof.Machine

/-! ### Successive words -/

/-- `n` calls `writeDataWord(v)` write `v` to the screen `n` times (20_memory.md R55). -/
theorem applyTrace_replicate_writeDataWord (c : Config) (d : Screen) (v : Pixel) (n : Nat) :
    applyTrace c d (List.replicate n (.writeDataWord v)) = d.writeWords v n := by
  induction n generalizing d with
  | zero => rfl
  | succ n ih => rw [List.replicate_succ, applyTrace_cons, ih]; rfl

/-- Settles O13: both sides write `v` `repeatLength count` times. -/
theorem repeatIsSuccessiveWrites : Obligations.RepeatIsSuccessiveWrites := by
  intro c d v count
  rw [applyTrace_replicate_writeDataWord]
  rfl

/-- Settles O14: the calls are the definition of `stream`, and its effect is that of the `n` words it streams. -/
theorem streamWritesItsCount : Obligations.StreamWritesItsCount := by
  refine ⟨fun _ => rfl, fun v n => ?_, fun c d v n => ?_⟩
  · rw [stream, ite_not]
  · calc applyTrace c d (stream v n)
        = d.writeList (List.replicate n v) := by
          rw [applyTrace_data c d _ (isData_stream v n), dataWords_stream]
      _ = d.writeWords v n := (Screen.writeWords_eq_writeList v n d).symm
      _ = applyTrace c d (List.replicate n (.writeDataWord v)) :=
          (applyTrace_replicate_writeDataWord c d v n).symm

/-! ### Calls without `sendCommand` -/

/-- No call of the list is `sendCommand` (20_memory.md R58). -/
structure SendFree (calls : List DpaCall) : Prop where
  /-- Whatever its arguments, `sendCommand` is not among the calls. -/
  not_mem : ∀ op args, DpaCall.sendCommand op args ∉ calls

theorem sendFree_nil : SendFree [] := ⟨fun _ _ => List.not_mem_nil⟩

theorem sendFree_idle : SendFree [.idle] := ⟨fun _ _ => by simp⟩

theorem sendFree_append {a b : List DpaCall} (ha : SendFree a) (hb : SendFree b) : SendFree (a ++ b) :=
  ⟨fun op args h => (List.mem_append.1 h).elim (ha.not_mem op args) (hb.not_mem op args)⟩

theorem sendFree_data {calls : List DpaCall} (h : ∀ call ∈ calls, call.isData = true) : SendFree calls :=
  ⟨fun op args hm => Bool.false_ne_true (h (.sendCommand op args) hm)⟩

/-- Data words released by `idle()`, as every Region ends. -/
theorem sendFree_data_idle {calls : List DpaCall} (h : ∀ call ∈ calls, call.isData = true) :
    SendFree (calls ++ [.idle]) :=
  sendFree_append (sendFree_data h) sendFree_idle

theorem sendFree_andThen {p : Paint} {q : Unit → Paint} (hp : SendFree p.calls) (hq : SendFree (q ()).calls) :
    SendFree (p.andThen q).calls := by
  rcases Paint.andThen_cases p q with ⟨_, _, e⟩ | ⟨_, e, _⟩
  · rwa [e]
  · rw [e]; exact sendFree_append hp hq

theorem sendFree_forEach {α : Type} {f : α → Paint} (xs : List α) (h : ∀ x ∈ xs, SendFree (f x).calls) :
    SendFree (Paint.forEach f xs).calls := by
  induction xs with
  | nil => exact sendFree_nil
  | cons x xs ih =>
    obtain ⟨hx, hxs⟩ := List.forall_mem_cons.1 h
    exact sendFree_andThen hx (ih hxs)

theorem sendFree_orIdle {p : Paint} (h : SendFree p.calls) : SendFree p.orIdle.calls := by
  rcases Paint.orIdle_cases p with ⟨_, e⟩ | ⟨_, e⟩ <;> rw [e]
  · exact sendFree_idle
  · exact h

theorem sendFree_openRegion (c : Config) (xa ya xb yb : Int) : SendFree (openRegion c xa ya xb yb).calls := by
  unfold openRegion
  split
  · exact ⟨fun _ _ => by simp⟩
  · exact sendFree_idle

/-! ### The paint commands -/

theorem sendFree_fillPaint (c : Config) (x y w h : Nat) (colour : Pixel) :
    SendFree (fillPaint c x y w h colour).calls := by
  unfold fillPaint
  split
  · exact sendFree_idle
  · exact sendFree_andThen (sendFree_openRegion ..) (sendFree_data_idle (isData_stream _ _))

theorem sendFree_paintPair (c : Config) (fg bg : Pixel) (X Y : Int) (steep : Bool) (smin : Int) (alpha : Nat) :
    SendFree (paintPair c fg bg X Y steep smin alpha).calls := by
  refine sendFree_andThen (sendFree_openRegion ..) (sendFree_data_idle ?_)
  split <;> simp [DpaCall.isData]

theorem sendFree_lineLoop (c : Config) (fg bg : Pixel) (d : LineDir) (x0 y0 : Int) (minExtent k i D m : Nat) :
    SendFree (lineLoop c fg bg d x0 y0 minExtent k i D m).calls := by
  induction k generalizing i D m with
  | zero => exact sendFree_nil
  | succ k ih =>
    refine sendFree_andThen ?step ?rest
    case step =>
      split
      · exact sendFree_paintPair ..
      · exact sendFree_nil
    case rest => split <;> exact ih ..

theorem sendFree_linePaint (c : Config) (fg bg : Pixel) (x0 y0 : Nat) (dx dy : Int) (minExtent maxExtent : Nat) :
    SendFree (linePaint c fg bg x0 y0 dx dy minExtent maxExtent).calls := by
  refine sendFree_orIdle ?_
  split
  · exact sendFree_lineLoop ..
  · exact sendFree_nil

/-- A span is streamed as data words, whichever way the cursor runs (42_ring_rasterizer.md R186). -/
theorem isData_spanWords (col : Nat → Pixel) (sign : Int) (fromD toD : Nat) :
    ∀ call ∈ spanWords col sign fromD toD, call.isData = true := by
  have middle (v : Pixel) (n : Nat) : ∀ call ∈ (if 2 < n then stream v (n - 2) else []), call.isData = true := by
    split
    · exact isData_stream _ _
    · simp
  have last (n : Nat) : ∀ call ∈ (if 1 < n then [DpaCall.writeDataWord (col toD)] else []), call.isData = true := by
    split <;> simp [DpaCall.isData]
  have first : ∀ call ∈ [DpaCall.writeDataWord (col fromD)], call.isData = true := by simp [DpaCall.isData]
  simp only [spanWords]
  split
  · exact List.forall_mem_append.2 ⟨List.forall_mem_append.2 ⟨first, middle _ _⟩, last _⟩
  · exact List.forall_mem_append.2 ⟨List.forall_mem_append.2 ⟨last _, middle _ _⟩, first⟩

theorem sendFree_emitSpan (c : Config) (fg bg : Pixel) (ri ro : Nat) (horizontal : Bool) (fixed centre sign : Int)
    (fromD toD y : Nat) : SendFree (emitSpan c fg bg ri ro horizontal fixed centre sign fromD toD y).calls := by
  refine sendFree_andThen ?_ (sendFree_data_idle (isData_spanWords _ _ _ _))
  split <;> exact sendFree_openRegion ..

theorem sendFree_ringPaint (c : Config) (fg bg : Pixel) (cx cy ri ro : Nat) :
    SendFree (ringPaint c fg bg cx cy ri ro).calls := by
  rw [ringPaint_eq_spans]
  exact sendFree_orIdle (sendFree_forEach _ fun _ _ => sendFree_emitSpan ..)

theorem isData_tokenWords (fg : Pixel) (t : Token) : ∀ call ∈ t.words fg, call.isData = true := by
  cases t with
  | explicit a => simp [Token.words, DpaCall.isData]
  | transparent n => exact isData_stream _ _
  | opaqueRun n => exact isData_stream _ _
  | terminator => simp [Token.words]

theorem sendFree_glyphLoop (fg : Pixel) (bytes : List Byte) (rem : Nat) :
    SendFree (glyphLoop fg bytes rem).calls := by
  rw [glyphLoop_calls]
  refine sendFree_data_idle fun call hcall => ?_
  obtain ⟨t, _, ht⟩ := List.mem_flatMap.1 hcall
  exact isData_tokenWords fg t call ht

theorem sendFree_glyphPaint (c : Config) (fg : Pixel) (x y addr : Nat) :
    SendFree (glyphPaint c fg x y addr).calls := by
  unfold glyphPaint
  split
  · split
    · exact sendFree_idle
    · exact sendFree_andThen (sendFree_openRegion ..) (sendFree_glyphLoop ..)
  · exact sendFree_idle

/-! ### Every step -/

/-- The trace of a paint command is the list of its calls. -/
theorem trace_of_finishPaint {op : Byte} {p : Paint} {s t : State}
    (he : (.next (s.finishPaint op p) : Host.Outcome State Fault Refusal) = .next t) : t.trace = p.calls := by
  obtain rfl := Host.Outcome.next.inj he
  exact State.finishPaint_trace ..

/-- The trace a command can leave: none, or the calls of one of the five paint commands. -/
theorem exec_trace_cases {i : Instr} {s t : State} (he : exec i s = .next t) :
    t.trace = [] ∨
    (∃ x y w h colour, t.trace = (fillPaint s.cfg x y w h colour).calls) ∨
    (∃ x0 y0 dx dy minE maxE, t.trace = (linePaint s.cfg s.fg s.bg x0 y0 dx dy minE maxE).calls) ∨
    (∃ cx cy ri ro, t.trace = (ringPaint s.cfg s.fg s.bg cx cy ri ro).calls) ∨
    (∃ x y addr, t.trace = (glyphPaint s.cfg s.fg x y addr).calls) ∨
    (∃ x y dir alpha, t.trace = (pairPaint s.cfg s.fg s.bg x y dir alpha).calls) := by
  rcases exec_cases i s with ⟨_, _, _, _, e⟩ | e | ⟨_, hpaints, _⟩
  · obtain rfl := Host.Outcome.next.inj (e.symm.trans he)
    exact .inl (State.finish_trace _)
  · obtain rfl := Host.Outcome.next.inj (e.symm.trans he)
    exact .inl (State.decodeFault_trace ..)
  · cases i with
    | fill => exact .inr (.inl ⟨_, _, _, _, _, trace_of_finishPaint he⟩)
    | line => exact .inr (.inr (.inl ⟨_, _, _, _, _, _, trace_of_finishPaint he⟩))
    | ring => exact .inr (.inr (.inr (.inl ⟨_, _, _, _, trace_of_finishPaint he⟩)))
    | glyph => exact .inr (.inr (.inr (.inr (.inl ⟨_, _, _, trace_of_finishPaint he⟩))))
    | pair x y dir alpha =>
      cases hdir : inDIR dir with
      | true =>
        rw [exec, execPair, if_pos hdir] at he
        exact .inr (.inr (.inr (.inr (.inr ⟨_, _, _, _, trace_of_finishPaint he⟩))))
      | false =>
        rw [exec, execPair, if_neg (by simp [hdir])] at he
        obtain rfl := Host.Outcome.next.inj he
        exact .inl (State.decodeFault_trace ..)
    | _ => cases hpaints

theorem sendFree_exec {i : Instr} {s t : State} (he : exec i s = .next t) : SendFree t.trace := by
  rcases exec_trace_cases he with
    e | ⟨_, _, _, _, _, e⟩ | ⟨_, _, _, _, _, _, e⟩ | ⟨_, _, _, _, e⟩ | ⟨_, _, _, e⟩ | ⟨_, _, _, _, e⟩ <;> rw [e]
  · exact sendFree_nil
  · exact sendFree_fillPaint ..
  · exact sendFree_linePaint ..
  · exact sendFree_ringPaint ..
  · exact sendFree_glyphPaint ..
  · exact sendFree_paintPair ..

/-- Settles O21: reset calls only `idle()`, a discarded or rejected word leaves an empty trace, and no command's trace
holds `sendCommand`. -/
theorem sendCommandIsNeverCalled : Obligations.SendCommandIsNeverCalled := by
  intro s t hstep hinput
  suffices SendFree t.trace from this.not_mem
  rcases step_cases s with ⟨hempty, _⟩ | ⟨_, _, e⟩ | ⟨_, _, _, _, e⟩ | ⟨_, _, _, _, _, _, e⟩ | ⟨_, _, _, _, _, _, e⟩
  · exact absurd hempty hinput
  · obtain rfl := Host.Outcome.next.inj (e.symm.trans hstep)
    exact sendFree_idle
  · obtain rfl := Host.Outcome.next.inj (e.symm.trans hstep)
    exact sendFree_nil
  · obtain rfl := Host.Outcome.next.inj (e.symm.trans hstep)
    exact sendFree_nil
  · exact sendFree_exec (e.symm.trans hstep)

end Sys2Proof.Machine
end

section
/-! The response of an accepted command word (30_encoding.md section 2, R94). -/

namespace Sys2Proof.Machine

/-- 30_encoding.md R94: every command, faulting or not, ends with its response and takes no further input. -/
theorem exec_answers (i : Instr) (s : State) :
    ∃ t, exec i s = .next t ∧ t.inbox = s.inbox ∧ t.rsp = some t.responseWord := by
  rcases exec_cases i s with ⟨_, _, _, _, e⟩ | e | ⟨_, _, e⟩
  · exact ⟨_, e, State.finish_inbox _, State.finish_rsp _⟩
  · exact ⟨_, e, State.decodeFault_inbox .., State.decodeFault_rsp ..⟩
  · exact ⟨_, e s, State.finishPaint_inbox .., State.finishPaint_rsp ..⟩

/-- Settles O9: a word presented is discarded by a halted block, faults because it does not decode, or is executed, and
each of the three ends with the response. -/
theorem everyWordIsAnswered : Obligations.EveryWordIsAnswered := by
  intro s w rest hinbox
  rcases step_cases s with
    ⟨hempty, _⟩ | ⟨_, hreset, _⟩ | ⟨_, _, htaken, _, e⟩ | ⟨_, _, _, htaken, _, _, e⟩ | ⟨_, _, i, htaken, _, _, e⟩
  · cases hinbox.symm.trans hempty
  · cases hinbox.symm.trans hreset
  all_goals cases hinbox.symm.trans htaken
  · exact ⟨_, e, State.finish_inbox _, State.finish_rsp _⟩
  · exact ⟨_, e, State.decodeFault_inbox .., State.decodeFault_rsp ..⟩
  · rw [e]
    exact exec_answers i { s with inbox := rest }

end Sys2Proof.Machine
end

section
/-! The compositor's scale and its sentinel path (40_compositor.md R124, R131): a lane or an alpha of 0 contributes
nothing to the square root, and every step up to the root is monotone. -/

namespace Sys2Proof.Machine

/-! ### A contribution of zero -/

@[simp] theorem mulch_zero_left (a : Nat) : mulch 0 a = 0 := by simp [mulch]

@[simp] theorem mulch_zero_right (p : Nat) : mulch p 0 = 0 := Nat.mul_zero _

@[simp] theorem isqrt6_zero : isqrt6 0 = 0 := by decide

@[simp] theorem scale_zero_left (a : Nat) : scale 0 a = 0 := by simp [scale]

@[simp] theorem scale_zero_right (c : Nat) : scale c 0 = 0 := by simp [scale]

/-- Blending a lane over 0 only scales it, because both share the shift by 4 (40_compositor.md R131). -/
@[simp] theorem blendch_zero_background (f a : Nat) : blendch f 0 a = scale f a := by simp [blendch, scale]

/-! ### Monotonicity -/

theorem mulch_mono {p p' a a' : Nat} (hp : p ≤ p') (ha : a ≤ a') : mulch p a ≤ mulch p' a' :=
  Nat.mul_le_mul (Nat.div_le_div_right (Nat.mul_le_mul hp hp)) ha

/-- The binary search is monotone on its domain, because it is the floor of the square root (40_compositor.md R122). -/
theorem isqrt6_mono {m n : Nat} (h : m ≤ n) (hn : n ≤ 4095) : isqrt6 m ≤ isqrt6 n := by
  rw [isqrt6_eq_sqrt (h.trans hn), isqrt6_eq_sqrt hn]
  exact Nat.sqrt_le_sqrt h

/-- The shift by 4 brings every product of two channels into the domain of `isqrt6` (40_compositor.md R124). -/
theorem mulch_shifted_le {p a : Nat} (hp : p ≤ 63) (ha : a ≤ 63) : mulch p a >>> 4 ≤ 4095 := by
  have := mulch_le hp ha
  rw [Nat.shiftRight_eq_div_pow]
  omega

theorem scale_mono {c c' a a' : Nat} (hc : c ≤ c') (ha : a ≤ a') (hc' : c' ≤ 63) (ha' : a' ≤ 63) :
    scale c a ≤ scale c' a' := by
  have hshift : mulch c a >>> 4 ≤ mulch c' a' >>> 4 := by
    simp only [Nat.shiftRight_eq_div_pow]
    exact Nat.div_le_div_right (mulch_mono hc ha)
  exact isqrt6_mono hshift (mulch_shifted_le hc' ha')

/-! ### The statements -/

/-- Below full weight `mulpx` scales each lane (40_compositor.md R126). -/
theorem mulpx_of_lt {px : Pixel} {alpha : Nat} (h : alpha < 63) :
    mulpx px alpha = pack (scale (expR px) alpha) (scale (expG px) alpha) (scale (expB px) alpha) :=
  if_neg (Nat.not_le.2 h)

/-- Settles O34: lane by lane, the blend over 0 is the scaling that MULPX does below full weight. -/
theorem sentinelPathEqualsTheGeneralPath : Obligations.SentinelPathEqualsTheGeneralPath := by
  intro fg alpha _ hhi
  rw [mulpx_of_lt (by omega)]
  simp only [blendch_zero_background]

/-- Settles O35: the formula is the definition of `scale`, and both monotonicities are instances of `scale_mono`. -/
theorem scaleIsMonotoneAndBounded : Obligations.ScaleIsMonotoneAndBounded := by
  intro c a hc ha
  refine ⟨rfl, scale_le hc ha, scale_zero_right c, scale_zero_left a, ?left, ?right⟩
  case left => exact fun c' hcc' hc' => scale_mono hcc' le_rfl hc' ha
  case right => exact fun a' haa' ha' => scale_mono le_rfl haa' hc ha'

end Sys2Proof.Machine
end

section
/-! The loop of LINE in closed form (41_line_rasterizer.md R160, R161): the remainder and the minor offset that the loop
carries along are those of one division, so that its iterations are the closed-form pairs of its steps. -/

namespace Sys2Proof.Machine

/-! ### The division the loop carries along -/

/-- The swap of axes leaves the lesser delta on the minor axis (41_line_rasterizer.md R160). -/
theorem lineDir_dmin_le_dmaj (dx dy : Int) : (lineDir dx dy).dmin ≤ (lineDir dx dy).dmaj := by
  unfold lineDir
  split
  case isTrue hsteep => exact hsteep.le
  case isFalse hflat => exact Nat.not_lt.1 hflat

@[simp] theorem lineMinor_zero (d : LineDir) : lineMinor d 0 = 0 := by simp [lineMinor]

@[simp] theorem lineRemainder_zero (d : LineDir) : lineRemainder d 0 = 0 := by simp [lineRemainder]

theorem lineRemainder_lt {d : LineDir} (hpos : 0 < d.dmaj) (i : Nat) : lineRemainder d i < d.dmaj :=
  Nat.mod_lt _ hpos

/-- The division with remainder that R161 states of `D` and `m`. -/
theorem lineRemainder_add_lineMinor (d : LineDir) (i : Nat) :
    lineRemainder d i + d.dmaj * lineMinor d i = i * d.dmin := Nat.mod_add_div ..

/-- Quotient and remainder are the only ones of their division. -/
theorem lineMinor_lineRemainder_unique {d : LineDir} {i m D : Nat} (hpos : 0 < d.dmaj)
    (heq : D + d.dmaj * m = i * d.dmin) (hlt : D < d.dmaj) : lineMinor d i = m ∧ lineRemainder d i = D :=
  (Nat.div_mod_unique hpos).2 ⟨heq, hlt⟩

/-- The step on which `D` overflows: one subtraction is enough, because `dmin ≤ dmaj` (41_line_rasterizer.md R161). -/
theorem lineMinor_lineRemainder_succ_of_overflow {d : LineDir} {i : Nat} (hpos : 0 < d.dmaj) (hmin : d.dmin ≤ d.dmaj)
    (hover : d.dmaj ≤ lineRemainder d i + d.dmin) :
    lineMinor d (i + 1) = lineMinor d i + 1 ∧
      lineRemainder d (i + 1) = lineRemainder d i + d.dmin - d.dmaj := by
  have hdiv := lineRemainder_add_lineMinor d i
  have hlt := lineRemainder_lt hpos i
  refine lineMinor_lineRemainder_unique hpos ?_ (by omega)
  rw [Nat.mul_add_one, Nat.add_one_mul]
  omega

/-- The step on which `D` does not overflow (41_line_rasterizer.md R161). -/
theorem lineMinor_lineRemainder_succ_of_lt {d : LineDir} {i : Nat} (hlt : lineRemainder d i + d.dmin < d.dmaj) :
    lineMinor d (i + 1) = lineMinor d i ∧ lineRemainder d (i + 1) = lineRemainder d i + d.dmin := by
  have hdiv := lineRemainder_add_lineMinor d i
  refine lineMinor_lineRemainder_unique (by omega) ?_ hlt
  rw [Nat.add_one_mul]
  omega

/-- The bound on `alpha` that R161 draws from `D < dmaj`. -/
theorem lineAlpha_le {d : LineDir} (hpos : 0 < d.dmaj) (i : Nat) : lineAlpha d i ≤ 62 := by
  have hlt := lineRemainder_lt hpos i
  exact Nat.le_of_lt_succ (Nat.div_lt_of_lt_mul (by omega))

/-! ### The loop -/

/-- One iteration from the closed forms at step `i` leaves the closed forms at step `i + 1`. -/
theorem lineLoop_succ_of_closedForm {d : LineDir} (hpos : 0 < d.dmaj) (hmin : d.dmin ≤ d.dmaj) (c : Config)
    (fg bg : Pixel) (x0 y0 minE k i : Nat) :
    lineLoop c fg bg d x0 y0 minE (k + 1) i (lineRemainder d i) (lineMinor d i)
      = (if minE ≤ i then lineStep c fg bg d x0 y0 i else Paint.nothing).andThen fun _ =>
          lineLoop c fg bg d x0 y0 minE k (i + 1) (lineRemainder d (i + 1)) (lineMinor d (i + 1)) := by
  rw [lineLoop]
  by_cases hover : d.dmaj ≤ lineRemainder d i + d.dmin
  · obtain ⟨hm, hD⟩ := lineMinor_lineRemainder_succ_of_overflow hpos hmin hover
    rw [if_pos hover, hm, hD, lineStep]
  · obtain ⟨hm, hD⟩ := lineMinor_lineRemainder_succ_of_lt (Nat.not_le.1 hover)
    rw [if_neg hover, hm, hD, lineStep]

/-- The `k` iterations from step `i` are the closed-form pairs of the steps from `minE` on among them: an iteration
before `minE` paints nothing, and a later one paints the first of the pairs left. -/
theorem lineLoop_eq_forEach {d : LineDir} (hpos : 0 < d.dmaj) (hmin : d.dmin ≤ d.dmaj) (c : Config) (fg bg : Pixel)
    (x0 y0 minE k i : Nat) :
    lineLoop c fg bg d x0 y0 minE k i (lineRemainder d i) (lineMinor d i)
      = Paint.forEach (lineStep c fg bg d x0 y0) (List.range' (max minE i) (i + k - max minE i)) := by
  induction k generalizing i with
  | zero =>
    rw [Nat.add_zero, Nat.sub_eq_zero_of_le (le_max_right minE i)]
    rfl
  | succ k ih =>
    have hend : i + 1 + k = i + (k + 1) := by omega
    rw [lineLoop_succ_of_closedForm hpos hmin, ih, hend]
    rcases Nat.lt_or_ge i minE with hbefore | hfrom
    · rw [if_neg (Nat.not_le.2 hbefore), Paint.nothing_andThen, max_eq_left hbefore, max_eq_left hbefore.le]
    · have hleft : i + (k + 1) - (i + 1) = k := by omega
      rw [if_pos hfrom, max_eq_right hfrom, max_eq_right (Nat.le_succ_of_le hfrom), Nat.add_sub_cancel_left, hleft,
        List.range'_succ]
      rfl

/-- The painted steps of a line of nonzero direction, in closed form (41_line_rasterizer.md R160, R161). -/
theorem linePaint_eq_forEach {dx dy : Int} (hpos : 0 < (lineDir dx dy).dmaj) (c : Config) (fg bg : Pixel)
    (x0 y0 minE maxE : Nat) :
    linePaint c fg bg x0 y0 dx dy minE maxE
      = (Paint.forEach (lineStep c fg bg (lineDir dx dy) x0 y0) (List.range' minE (maxE + 1 - minE))).orIdle := by
  have hloop := lineLoop_eq_forEach hpos (lineDir_dmin_le_dmaj dx dy) c fg bg x0 y0 minE (maxE + 1) 0
  rw [lineRemainder_zero, lineMinor_zero, Nat.max_zero, Nat.zero_add] at hloop
  simp only [linePaint]
  rw [if_pos hpos.ne', hloop]

/-- Settles O46: the loop starts at the closed forms of step 0 and every iteration keeps them. -/
theorem lineLoopHasItsClosedForm : Obligations.LineLoopHasItsClosedForm := by
  intro c fg bg x0 y0 dx dy minE maxE hne
  have hpos := Nat.pos_of_ne_zero hne
  exact ⟨linePaint_eq_forEach hpos c fg bg x0 y0 minE maxE, fun i => ⟨lineRemainder_lt hpos i, lineAlpha_le hpos i⟩⟩

end Sys2Proof.Machine
end

section
/-! The glyph decoder's token loop (44_glyph_decoder.md section 1, R223) and its runs of length 0 (section 2, R224). -/

namespace Sys2Proof.Machine

/-- R59's split of 0 words: no full repeat, and no remainder. -/
theorem stream_zero (v : Pixel) : stream v 0 = [] := rfl

/-- The token loop at a token, not the terminator, that fits in the pixels left (44_glyph_decoder.md R223). -/
theorem glyphLoop_cons_of_fits {b : Byte} {rem : Nat} (fg : Pixel) (rest : List Byte)
    (hterm : tokenOf b ≠ .terminator) (hfits : (tokenOf b).pixels ≤ rem) :
    glyphLoop fg (b :: rest) rem =
      (Paint.emit ((tokenOf b).words fg)).andThen fun _ => glyphLoop fg rest (rem - (tokenOf b).pixels) := by
  rw [glyphLoop, if_neg hterm, if_neg (Nat.not_lt.2 hfits)]

/-- The token loop passes over a token that streams no word and counts 0. -/
theorem glyphLoop_cons_of_empty {b : Byte} {fg : Pixel} (rest : List Byte) (rem : Nat)
    (hterm : tokenOf b ≠ .terminator) (hwords : (tokenOf b).words fg = []) (hpixels : (tokenOf b).pixels = 0) :
    glyphLoop fg (b :: rest) rem = glyphLoop fg rest rem := by
  have hfits : (tokenOf b).pixels ≤ rem := hpixels ▸ Nat.zero_le rem
  rw [glyphLoop_cons_of_fits fg rest hterm hfits, hwords, hpixels, Nat.sub_zero]
  exact Paint.nothing_andThen _

/-- The two run tokens of length 0, one of each mode (30_encoding.md R99). -/
theorem tokenOf_emptyRun {b : Byte} (hb : b = 0x40 ∨ b = 0x80) :
    tokenOf b = .transparent 0 ∨ tokenOf b = .opaqueRun 0 := by
  rcases hb with rfl | rfl
  · exact .inl (by decide)
  · exact .inr (by decide)

/-- Settles O57: a run of either mode is a `stream`, and `stream` makes no call for 0 words. -/
theorem emptyRunMakesNoCall : Obligations.EmptyRunMakesNoCall := by
  intro fg b rest rem hb
  have hempty : tokenOf b ≠ .terminator ∧ (tokenOf b).words fg = [] ∧ (tokenOf b).pixels = 0 := by
    rcases tokenOf_emptyRun hb with htoken | htoken <;> rw [htoken]
    all_goals exact ⟨Token.noConfusion, stream_zero _, rfl⟩
  obtain ⟨hterm, hwords, hpixels⟩ := hempty
  exact ⟨hwords, hpixels, glyphLoop_cons_of_empty rest rem hterm hwords hpixels⟩

end Sys2Proof.Machine
end

section
/-! The control commands (45_control.md): NOP's word, its meaning and its answer after reset, R240. -/

namespace Sys2Proof

/-! ### NOP's word -/

/-- NOP has no operand: its whole word is reserved (45_control.md R240). -/
theorem decode_of_opByte_zero {w : CommandWord} (hop : opByte w = 0x00) : decode w = checkReserved w 0 .nop := by
  rw [decode, hop]
  rfl

@[simp] theorem encode_nop : encode .nop = 0 := by decide

@[simp] theorem decode_zero : decode 0 = .ok .nop := by decide

/-- With NOP's opcode, the reserved check passes the all-zero word only: a word is packed from its fields, and these
are all zero. -/
theorem eq_zero_of_reservedZero {w : CommandWord} (hop : opByte w = 0x00) (hzero : reservedZero w 0 = true) :
    w = 0 := by
  obtain ⟨hrsv, hslots⟩ := (reservedZero_iff w 0).1 hzero
  have hslot (j : Nat) (hj : j ∈ [0, 1, 2, 3, 4, 5]) : slot w j = 0 := hslots j hj
  calc w = packWord (opByte w) (slot w 0) (slot w 1) (slot w 2) (slot w 3) (slot w 4) (slot w 5) :=
        (packWord_of_fields w hrsv).symm
    _ = encode .nop := by
        rw [hop, hslot 0 (by simp), hslot 1 (by simp), hslot 2 (by simp), hslot 3 (by simp), hslot 4 (by simp),
          hslot 5 (by simp)]
        rfl
    _ = 0 := encode_nop

/-- The one fault of NOP (45_control.md R240). -/
theorem decode_nop_reserved {w : CommandWord} (hop : opByte w = 0x00) (hw : w ≠ 0) :
    decode w = .error .reservedNonzero := by
  rcases checkReserved_cases w 0 .nop with ⟨hzero, _⟩ | ⟨_, hfault⟩
  · exact absurd (eq_zero_of_reservedZero hop hzero) hw
  · exact (decode_of_opByte_zero hop).trans hfault

end Sys2Proof

namespace Sys2Proof.Machine

/-! ### Its meaning and its answer -/

/-- The end of a command without adapter calls leaves the screen as it was, since an empty trace has no effect. -/
theorem State.finish_eq (s : State) : s.finish = { s with trace := [], rsp := some s.responseWord } := rfl

theorem exec_nop (s : State) : exec .nop s = .next s.finish := rfl

/-- A block that is not halted executes the word presented if it decodes (30_encoding.md R93). -/
theorem step_of_decode_ok {s : State} {w : CommandWord} {rest : List HostInput} {i : Instr}
    (hinbox : s.inbox = .command w :: rest) (hrun : s.halted = false) (hdecode : decode w = .ok i) :
    step s = exec i { s with inbox := rest } := by
  rcases step_cases s with
    ⟨hempty, _⟩ | ⟨_, hreset, _⟩ | ⟨_, _, _, hhalted, _⟩ | ⟨_, _, _, htaken, _, herror, _⟩ |
      ⟨_, _, _, htaken, _, hok, e⟩
  · cases hinbox.symm.trans hempty
  · cases hinbox.symm.trans hreset
  · cases hrun.symm.trans hhalted
  · cases hinbox.symm.trans htaken
    cases hdecode.symm.trans herror
  · cases hinbox.symm.trans htaken
    cases hdecode.symm.trans hok
    exact e

/-- The all-zero word, presented to a block that is not halted, is executed as NOP. -/
theorem step_withFetchWord_zero {s : State} (hrun : s.halted = false) :
    step (s.withFetchWord 128 0) = .next s.finish :=
  (step_of_decode_ok (State.withFetchWord_inbox s 128 0) hrun decode_zero).trans (exec_nop s)

/-- Settles O25: NOP does nothing but end, its word is all reserved bits, and after reset the registers it answers are
all zero. -/
theorem nopOnlyAnswers : Obligations.NopOnlyAnswers := by
  have hmeaning (s : State) :
      exec .nop s = .next { s with trace := [], rsp := some (s.status ++ s.res1 ++ s.res0) } :=
    (exec_nop s).trans (congrArg _ s.finish_eq)
  have hreset : State.reset.responseWord = 0x000000000000#48 := by decide
  refine ⟨hmeaning, encode_nop, fun _ => decode_nop_reserved, _, step_withFetchWord_zero rfl, ?answer⟩
  case answer => rw [State.finish_rsp, hreset]

end Sys2Proof.Machine
end

section
/-! A halted block (60_exceptions.md section 2): the word it discards and the answer it gives, R253. -/

namespace Sys2Proof.Machine

/-- A halted block takes the word presented and only answers: of the cases of a step, the word rules out the wait and
the reset, and the halt rules out the decode fault and the execution. -/
theorem step_of_halted {s : State} {w : CommandWord} {rest : List HostInput}
    (hinbox : s.inbox = .command w :: rest) (hhalted : s.halted = true) :
    step s = .next ({ s with inbox := rest } : State).finish := by
  rcases step_cases s with
    ⟨hempty, _⟩ | ⟨_, hreset, _⟩ | ⟨_, _, htaken, _, hdiscard⟩ | ⟨_, _, _, _, hrun, _⟩ | ⟨_, _, _, _, hrun, _⟩
  · cases hinbox.symm.trans hempty
  · cases hinbox.symm.trans hreset
  · cases hinbox.symm.trans htaken
    exact hdiscard
  · cases hhalted.symm.trans hrun
  · cases hhalted.symm.trans hrun

/-- Settles O8: a halted block only ends the word, and the end of a word without adapter calls changes nothing but the
trace and the response. -/
theorem haltedBlockDiscardsEveryWord : Obligations.HaltedBlockDiscardsEveryWord := by
  intro s w rest hinbox hhalted
  exact (step_of_halted hinbox hhalted).trans (congrArg _ (State.finish_eq _))

end Sys2Proof.Machine
end

section
/-! The command word (30_encoding.md sections 1, 3 and 5): the decoder and the encoder are inverse, a row's mask and
match single out its command's words, and the two decode errors come in their fixed order. -/

namespace Sys2Proof

/-! ### Fields of a word -/

/-- A word is determined by its fields (30_encoding.md R91). -/
theorem word_eq_iff_fields (w v : CommandWord) :
    w = v ↔ opByte w = opByte v ∧ rsvBits w = rsvBits v ∧ ∀ j ∈ [0, 1, 2, 3, 4, 5], slot w j = slot v j := by
  refine ⟨fun h => by simp [h], fun ⟨hop, hrsv, hslot⟩ => ?_⟩
  simp only [List.forall_mem_cons, List.not_mem_nil, false_implies, implies_true, and_true] at hslot
  obtain ⟨h0, h1, h2, h3, h4, h5⟩ := hslot
  simp only [opByte, rsvBits, slot, ← BitVec.toNat_inj, BitVec.extractLsb'_toNat, Nat.shiftRight_eq_div_pow] at *
  have hw := w.isLt
  have hv := v.isLt
  omega

@[simp] theorem opByte_and (w v : CommandWord) : opByte (w &&& v) = opByte w &&& opByte v :=
  BitVec.extractLsb'_and ..

@[simp] theorem rsvBits_and (w v : CommandWord) : rsvBits (w &&& v) = rsvBits w &&& rsvBits v :=
  BitVec.extractLsb'_and ..

@[simp] theorem slot_and (w v : CommandWord) (j : Nat) : slot (w &&& v) j = slot w j &&& slot v j :=
  BitVec.extractLsb'_and ..

/-! ### Rows of the opcode map -/

/-- How many operands the command of a listed opcode has (30_encoding.md R95). -/
def operandCount (op : Byte) : Nat :=
  match op.toNat with
  | 0x01 | 0x08 | 0x10 | 0x11 => 1
  | 0x02 | 0x03 => 2
  | 0x04 | 0x05 | 0x23 => 3
  | 0x22 | 0x24 => 4
  | 0x20 => 5
  | 0x21 => 6
  | _ => 0

/-- An opcode of the opcode map (30_encoding.md R95). -/
abbrev ListedOpcode (op : Byte) : Prop := op ∈ opcodeTable.map (·.op)

/-- A word with a listed opcode gets the reserved check of its row, and passes as a command with that opcode
(30_encoding.md R100). -/
theorem decode_of_listed {w : CommandWord} (h : ListedOpcode (opByte w)) :
    ∃ i, i.opcode = opByte w ∧ decode w = checkReserved w (operandCount (opByte w)) i := by
  simp only [ListedOpcode, opcodeTable, List.map_cons, List.map_nil, List.mem_cons, List.not_mem_nil, or_false] at h
  unfold decode
  rcases h with h | h | h | h | h | h | h | h | h | h | h | h | h | h <;> rw [h] <;> exact ⟨_, rfl, rfl⟩

/-- A word with any other opcode is rejected, whatever its other bits are (30_encoding.md R93). -/
theorem decode_of_not_listed {w : CommandWord} (h : ¬ ListedOpcode (opByte w)) : decode w = .error .illegalOpcode := by
  have hne (n : Nat) (hn : BitVec.ofNat 8 n ∈ opcodeTable.map (·.op)) : (opByte w).toNat ≠ n :=
    fun e => h (by rwa [← e, BitVec.ofNat_toNat, BitVec.setWidth_eq] at hn)
  unfold decode
  split
  case h_15 => rfl
  all_goals exact absurd ‹_› (hne _ (by decide))

/-- Each row's mask covers `op`, `rsv` and the slots its command does not use; its match is its opcode and zeros. -/
theorem opcodeTable_fields : ∀ r ∈ opcodeTable,
    (opByte r.mask = BitVec.allOnes 8 ∧ opByte r.pat = r.op) ∧
    (rsvBits r.mask = BitVec.allOnes 24 ∧ rsvBits r.pat = 0) ∧
    ∀ j ∈ [0, 1, 2, 3, 4, 5],
      slot r.mask j = (if j < operandCount r.op then 0 else BitVec.allOnes 16) ∧ slot r.pat j = 0 := by
  decide

/-- The slots a command with `k` operands leaves unused. -/
theorem mem_unusedSlots (k j : Nat) : j ∈ [0, 1, 2, 3, 4, 5].drop k ↔ j ∈ [0, 1, 2, 3, 4, 5] ∧ k ≤ j := by
  rw [show [0, 1, 2, 3, 4, 5] = List.range' 0 6 from rfl, List.drop_range', List.mem_range'_1, List.mem_range'_1]
  omega

/-- A row's mask and match hold of a word exactly when its opcode is the row's and it passes the reserved check
(30_encoding.md R100). -/
theorem and_mask_eq_pat_iff {r : TableRow} (hr : r ∈ opcodeTable) (w : CommandWord) :
    w &&& r.mask = r.pat ↔ opByte w = r.op ∧ reservedZero w (operandCount r.op) = true := by
  obtain ⟨⟨hop, hopPat⟩, ⟨hrsv, hrsvPat⟩, hslots⟩ := opcodeTable_fields r hr
  rw [word_eq_iff_fields, reservedZero_iff, opByte_and, rsvBits_and, hop, hopPat, hrsv, hrsvPat,
    BitVec.and_allOnes, BitVec.and_allOnes]
  refine and_congr_right fun _ => and_congr_right fun _ => ?slots
  case slots =>
    simp only [mem_unusedSlots, and_imp, slot_and]
    refine forall₂_congr fun j hj => ?_
    obtain ⟨hmask, hpat⟩ := hslots j hj
    rw [hmask, hpat]
    by_cases hused : j < operandCount r.op
    · simp [hused]
    · simp only [if_neg hused, BitVec.and_allOnes, Nat.not_lt.1 hused, true_implies]
      rfl

/-! ### The decoder against the encoder -/

theorem checkReserved_eq_ok_iff (w : CommandWord) (k : Nat) (i j : Instr) :
    checkReserved w k i = .ok j ↔ reservedZero w k = true ∧ i = j := by
  unfold checkReserved
  split <;> simp_all

/-- A word that passes the reserved check is packed from its opcode and the slots its command uses
(30_encoding.md R91). -/
theorem packWord_of_reservedZero {w : CommandWord} {k : Nat} (h : reservedZero w k = true) :
    packWord (opByte w) (if 0 < k then slot w 0 else 0) (if 1 < k then slot w 1 else 0)
      (if 2 < k then slot w 2 else 0) (if 3 < k then slot w 3 else 0) (if 4 < k then slot w 4 else 0)
      (if 5 < k then slot w 5 else 0) = w := by
  obtain ⟨hrsv, hunused⟩ := (reservedZero_iff w k).1 h
  have hslot (j : Nat) (hj : j ∈ [0, 1, 2, 3, 4, 5]) : (if j < k then slot w j else 0) = slot w j := by
    split
    case isTrue => rfl
    case isFalse hk => exact (hunused j ((mem_unusedSlots k j).2 ⟨hj, Nat.not_lt.1 hk⟩)).symm
  rw [hslot 0 (by simp), hslot 1 (by simp), hslot 2 (by simp), hslot 3 (by simp), hslot 4 (by simp),
    hslot 5 (by simp), packWord_of_fields w hrsv]

/-- Settles O1: the fields of a packed word are those it was packed from, so each encoding selects its own row and
passes its reserved check. -/
theorem decodeOfEncodeIsTheCommand : Obligations.DecodeOfEncodeIsTheCommand := by
  intro i
  cases i <;> simp [encode, Instr.opcode, decode, checkReserved, reservedZero, opByte_packWord, rsvBits_packWord,
    slot_packWord]

/-- Settles O2: in each row the word is packed from the opcode, the slots the row uses, and zeros. -/
theorem encodeOfDecodeIsTheWord : Obligations.EncodeOfDecodeIsTheWord := by
  intro w i hdecode
  unfold decode at hdecode
  split at hdecode
  case h_15 => cases hdecode
  all_goals
    rename_i hop
    obtain ⟨hzero, rfl⟩ := (checkReserved_eq_ok_iff ..).1 hdecode
    have hbyte : BitVec.ofNat 8 (opByte w).toNat = opByte w := BitVec.ofNat_toNat ..
    rw [hop] at hbyte
    have hpack := packWord_of_reservedZero hzero
    rw [← hbyte] at hpack
    exact hpack

/-- A word decodes to a command with a given listed opcode exactly when it has the opcode and passes the reserved check
of its row. -/
theorem decodes_to_opcode_iff {op : Byte} (hlisted : ListedOpcode op) (w : CommandWord) :
    (∃ i, decode w = .ok i ∧ i.opcode = op) ↔ opByte w = op ∧ reservedZero w (operandCount op) = true := by
  constructor
  · rintro ⟨i, hdecode, rfl⟩
    by_cases hw : ListedOpcode (opByte w)
    · obtain ⟨j, hj, e⟩ := decode_of_listed hw
      obtain ⟨hzero, rfl⟩ := (checkReserved_eq_ok_iff ..).1 (e.symm.trans hdecode)
      exact ⟨hj.symm, hj ▸ hzero⟩
    · cases (decode_of_not_listed hw).symm.trans hdecode
  · rintro ⟨rfl, hzero⟩
    obtain ⟨i, hi, e⟩ := decode_of_listed hlisted
    exact ⟨i, e.trans ((checkReserved_eq_ok_iff ..).2 ⟨hzero, rfl⟩), hi⟩

/-- Settles O3: both sides say that the word has the row's opcode and passes the row's reserved check. -/
theorem tableRowsMatchExactlyTheirCommands : Obligations.TableRowsMatchExactlyTheirCommands := by
  intro w r hr
  rw [and_mask_eq_pat_iff hr, decodes_to_opcode_iff (List.mem_map_of_mem hr)]

/-- Settles O4: the opcode byte alone selects the row, and a word of a row that is not matched fails the reserved
check. -/
theorem decodeErrorsInFixedOrder : Obligations.DecodeErrorsInFixedOrder := by
  refine fun w => ⟨fun hother => decode_of_not_listed fun hlisted => ?illegal, fun r hr hop hne => ?reserved⟩
  case illegal =>
    obtain ⟨r, hr, hop⟩ := List.mem_map.1 hlisted
    exact hother r hr hop.symm
  case reserved =>
    obtain ⟨i, -, hdecode⟩ := decode_of_listed (hop ▸ List.mem_map_of_mem hr : ListedOpcode (opByte w))
    rcases checkReserved_cases w (operandCount (opByte w)) i with ⟨hzero, -⟩ | ⟨-, herror⟩
    · exact absurd ((and_mask_eq_pat_iff hr w).2 ⟨hop, hop ▸ hzero⟩) hne
    · exact hdecode.trans herror

/-- Settles O5: each printed word is the encoding of the command beside it. -/
theorem printedWordsDecode : Obligations.PrintedWordsDecode := by
  have hword {w : CommandWord} {i : Instr} (h : w = encode i) : decode w = .ok i :=
    h ▸ decodeOfEncodeIsTheCommand i
  exact ⟨hword (by decide), hword (by decide), hword (by decide), hword (by decide), hword (by decide),
    hword (by decide), hword (by decide), hword (by decide)⟩

end Sys2Proof
end

section
/-! The frame memory and the adapter's Regions (20_memory.md sections 1 and 2). -/

namespace Sys2Proof.Machine

/-! ### Reading a canonical memory -/

@[simp] theorem Memory.read_cons_self (k : Nat) (v : Pixel) (m : Memory) : Memory.read ((k, v) :: m) k = some v := by
  simp [Memory.read]

theorem Memory.read_cons_of_ne {k j : Nat} (h : j ≠ k) (v : Pixel) (m : Memory) :
    Memory.read ((k, v) :: m) j = Memory.read m j := by
  simp [Memory.read, h]

/-- A key below every listed one reads as nothing. -/
theorem Memory.read_eq_none {m : Memory} {k : Nat} (h : ∀ e ∈ m, k < e.1) : m.read k = none := by
  induction m with
  | nil => rfl
  | cons e m ih =>
    obtain ⟨hlt, hm⟩ := List.forall_mem_cons.1 h
    rw [Memory.read_cons_of_ne hlt.ne, ih hm]

/-- A canonical memory reads something at a key only from its first entry's key on. -/
theorem Memory.le_of_read {k j : Nat} {v w : Pixel} {m : Memory} (hwf : Memory.wf ((k, v) :: m))
    (h : Memory.read ((k, v) :: m) j = some w) : k ≤ j := by
  obtain ⟨hlt, -⟩ := List.pairwise_cons.1 hwf
  by_contra hj
  have hnone : Memory.read ((k, v) :: m) j = none :=
    Memory.read_eq_none (List.forall_mem_cons.2 ⟨Nat.not_le.1 hj, fun e he => (Nat.not_le.1 hj).trans (hlt e he)⟩)
  cases hnone.symm.trans h

/-- Settles O12, by induction on the entries: the first entries have the least key that reads as something, and what is
left reads the same at every other key. -/
theorem canonicalMemoriesAreDeterminedByReads : Obligations.CanonicalMemoriesAreDeterminedByReads := by
  intro m
  induction m with
  | nil =>
    rintro (_ | ⟨⟨k, v⟩, m'⟩) - - hread
    · rfl
    · cases (hread k).trans (Memory.read_cons_self k v m')
  | cons e m ih =>
    obtain ⟨k, v⟩ := e
    rintro (_ | ⟨⟨k', v'⟩, m'⟩) hwf hwf' hread
    · cases (hread k).symm.trans (Memory.read_cons_self k v m)
    · have hle' : k' ≤ k := Memory.le_of_read hwf' ((hread k).symm.trans (Memory.read_cons_self k v m))
      have hle : k ≤ k' := Memory.le_of_read hwf ((hread k').trans (Memory.read_cons_self k' v' m'))
      obtain rfl : k = k' := Nat.le_antisymm hle hle'
      have hhead := hread k
      rw [Memory.read_cons_self, Memory.read_cons_self, Option.some.injEq] at hhead
      obtain ⟨hlt, hm⟩ := List.pairwise_cons.1 hwf
      obtain ⟨hlt', hm'⟩ := List.pairwise_cons.1 hwf'
      have htail (j : Nat) : Memory.read m j = Memory.read m' j := by
        by_cases hj : j = k
        · rw [hj, Memory.read_eq_none hlt, Memory.read_eq_none hlt']
        · simpa only [Memory.read_cons_of_ne hj] using hread j
      rw [hhead, ih m' hm hm' htail]

/-! ### Opening a Region -/

theorem openRegion_of_onDisplay {c : Config} {xa ya xb yb : Int} (h : regionOnDisplay c xa ya xb yb) :
    openRegion c xa ya xb yb = Paint.emit [.beginRegion xa.toNat ya.toNat xb.toNat yb.toNat] := if_pos h

theorem openRegion_of_not_onDisplay {c : Config} {xa ya xb yb : Int} (h : ¬ regionOnDisplay c xa ya xb yb) :
    openRegion c xa ya xb yb = Paint.raise .regionRange := if_neg h

/-- Settles O15: the two clauses are the two branches of `OpenRegion`. -/
theorem openRegionChecksTheRegion : Obligations.OpenRegionChecksTheRegion := fun _ _ _ _ _ =>
  ⟨openRegion_of_onDisplay, openRegion_of_not_onDisplay⟩

end Sys2Proof.Machine
end

section
/-! Taking an input (20_memory.md section 5, 60_exceptions.md section 2, 70_reset_and_hazards.md section 1), and the
part the screen plays in a command: it is only painted. -/

namespace Sys2Proof.Machine

/-! ### Words -/

/-- Settles O6: of the cases of a step, the one of a word that decodes. -/
theorem stepRunsTheDecodedCommand : Obligations.StepRunsTheDecodedCommand :=
  fun _ _ _ _ => step_of_decode_ok

theorem State.decodeFault_eq (s : State) (op : Byte) (c : Cause) :
    s.decodeFault op c = { s with
      status := faultStatus op c, trace := [], rsp := some (faultStatus op c ++ s.res1 ++ s.res0) } := rfl

/-- A block that is not halted faults on a word that does not decode (30_encoding.md R93). -/
theorem step_of_decode_error {s : State} {w : CommandWord} {rest : List HostInput} {e : DecodeError}
    (hinbox : s.inbox = .command w :: rest) (hrun : s.halted = false) (hdecode : decode w = .error e) :
    step s = .next (({ s with inbox := rest } : State).decodeFault (opByte w) (causeOf e)) := by
  rcases step_cases s with
    ⟨hempty, _⟩ | ⟨_, hreset, _⟩ | ⟨_, _, _, hhalted, _⟩ | ⟨_, _, _, htaken, _, herror, hfault⟩ |
      ⟨_, _, _, htaken, _, hok, _⟩
  · cases hinbox.symm.trans hempty
  · cases hinbox.symm.trans hreset
  · cases hrun.symm.trans hhalted
  · cases hinbox.symm.trans htaken
    cases hdecode.symm.trans herror
    exact hfault
  · cases hinbox.symm.trans htaken
    cases hdecode.symm.trans hok

/-- Settles O7: a decode fault is fault entry and an empty trace, and fault entry writes `STATUS` only. -/
theorem stepFaultsOnAWordThatDoesNotDecode : Obligations.StepFaultsOnAWordThatDoesNotDecode := by
  intro s w rest e hinbox hrun hdecode
  exact (step_of_decode_error hinbox hrun hdecode).trans (congrArg _ (State.decodeFault_eq ..))

/-! ### The halt and the reset -/

/-- A reset is taken whether the block is halted or not (70_reset_and_hazards.md R280). -/
theorem step_of_reset {s : State} {rest : List HostInput} (hinbox : s.inbox = .reset :: rest) :
    step s = .next ({ s with inbox := rest } : State).resetBlock := by
  simp [step, State.takeInput, hinbox]

theorem step_of_empty {s : State} (hinbox : s.inbox = []) : step s = .next s := by
  simp [step, State.takeInput, hinbox]

/-- Settles O10: without an input a step waits, a word is discarded by a halted block, and only the reset is left; its
effect is that of `State.resetBlock`. -/
theorem onlyResetLeavesTheHalt : Obligations.OnlyResetLeavesTheHalt := by
  refine ⟨fun s t hhalted hstep hreset => ?halted, fun s rest hinbox => ⟨_, step_of_reset hinbox, ?reset⟩⟩
  case halted =>
    cases hinbox : s.inbox with
    | nil =>
      obtain rfl := Host.Outcome.next.inj ((step_of_empty hinbox).symm.trans hstep)
      exact ⟨hhalted, rfl, rfl, rfl, rfl, rfl, rfl⟩
    | cons input rest =>
      cases input with
      | reset => exact absurd hinbox (hreset rest)
      | command w =>
        obtain rfl := Host.Outcome.next.inj ((step_of_halted hinbox hhalted).symm.trans hstep)
        exact ⟨hhalted, rfl, rfl, rfl, rfl, rfl, rfl⟩
  case reset => exact ⟨(by decide : statusFault 0x0000#16 = false), rfl, rfl, rfl, rfl, rfl, rfl, rfl, rfl, rfl⟩

/-! ### The screen is only painted -/

/-- The state with another screen. -/
def State.withScreen (d : Screen) (s : State) : State := { s with screen := d }

/-- A meaning that paints the screen it finds with its trace, and does not read it otherwise. -/
structure OnlyPaintsScreen (meaning : State → Host.Outcome State Fault Refusal) : Prop where
  /-- On another screen the meaning differs in the screen alone, which the same trace paints. -/
  withScreen : ∀ {s t}, meaning s = .next t → ∀ d,
    meaning (s.withScreen d) = .next (t.withScreen (applyTrace s.cfg d t.trace))

/-- The end of a command that makes no adapter call, after an update that neither reads nor writes the screen. -/
theorem onlyPaintsScreen_finish {update : State → State}
    (hupdate : ∀ s d, update (s.withScreen d) = (update s).withScreen d) :
    OnlyPaintsScreen fun s => .next (update s).finish := by
  refine ⟨fun {s t} hnext d => ?_⟩
  obtain rfl := Host.Outcome.next.inj hnext
  simp only [hupdate, State.finish_trace, applyTrace_nil]
  rfl

theorem onlyPaintsScreen_compositorCommand (op : Byte) (ok : Bool) (v : Word) :
    OnlyPaintsScreen (compositorCommand op ok v) := by
  cases ok
  · exact onlyPaintsScreen_finish (update := State.enterFault op .operandRange) fun _ _ => rfl
  · exact onlyPaintsScreen_finish (update := State.setRes0 v) fun _ _ => rfl

theorem State.finishPaint_withScreen (s : State) (d : Screen) (op : Byte) (p : Paint) :
    (s.withScreen d).finishPaint op p = (s.finishPaint op p).withScreen (applyTrace s.cfg d p.calls) := by
  unfold State.finishPaint
  split <;> rfl

/-- The end of a paint command, whose calls depend on the parameters and the two colours. -/
theorem onlyPaintsScreen_finishPaint (op : Byte) (p : Config → Pixel → Pixel → Paint) :
    OnlyPaintsScreen fun s => .next (s.finishPaint op (p s.cfg s.fg s.bg)) := by
  refine ⟨fun {s t} hnext d => ?_⟩
  obtain rfl := Host.Outcome.next.inj hnext
  rw [State.finishPaint_trace]
  exact congrArg _ (State.finishPaint_withScreen ..)

/-- 10_state.md section 7: no command reads the screen. -/
theorem onlyPaintsScreen_exec (i : Instr) : OnlyPaintsScreen (exec i) := by
  cases i with
  | nop => exact onlyPaintsScreen_finish (update := id) fun _ _ => rfl
  | sqrt n => exact onlyPaintsScreen_compositorCommand ..
  | mulch p a => exact onlyPaintsScreen_compositorCommand ..
  | mulpx px alpha => exact onlyPaintsScreen_compositorCommand ..
  | blendch f b a => exact onlyPaintsScreen_compositorCommand ..
  | blendpx fg bg alpha => exact onlyPaintsScreen_compositorCommand ..
  | unitvec angle => exact onlyPaintsScreen_finish (update := fun s =>
      { s with res0 := to16 (unitDx s.cfg angle), res1 := to16 (unitDy s.cfg angle) }) fun _ _ => rfl
  | setfg colour => exact onlyPaintsScreen_finish (update := fun s => { s with fg := colour }) fun _ _ => rfl
  | setbg colour => exact onlyPaintsScreen_finish (update := fun s => { s with bg := colour }) fun _ _ => rfl
  | fill x y w h colour => exact onlyPaintsScreen_finishPaint _ fun c _ _ => fillPaint c _ _ _ _ _
  | line x0 y0 dx dy minE maxE => exact onlyPaintsScreen_finishPaint _ fun c fg bg => linePaint c fg bg _ _ _ _ _ _
  | ring cx cy ri ro => exact onlyPaintsScreen_finishPaint _ fun c fg bg => ringPaint c fg bg _ _ _ _
  | glyph x y addr => exact onlyPaintsScreen_finishPaint _ fun c fg _ => glyphPaint c fg _ _ _
  | pair x y dir alpha =>
    cases hdir : inDIR dir with
    | true =>
      have hexec : exec (.pair x y dir alpha) = fun s => .next (s.finishPaint 0x24
          (pairPaint s.cfg s.fg s.bg (zext16 x) (zext16 y) (zext16 dir) (zext16 alpha))) :=
        funext fun _ => congrArg _ (if_pos hdir)
      exact hexec ▸ onlyPaintsScreen_finishPaint _ fun c fg bg => pairPaint c fg bg _ _ _ _
    | false =>
      have hexec : exec (.pair x y dir alpha) = fun s => .next (s.enterFault 0x24 .operandRange).finish :=
        funext fun _ => congrArg _ (if_neg (by simp [hdir]))
      exact hexec ▸ onlyPaintsScreen_finish fun _ _ => rfl

theorem State.withScreen_self (s : State) : s.withScreen s.screen = s := rfl

theorem State.screen_withScreen (d : Screen) (s : State) : (s.withScreen d).screen = d := rfl

/-- Settles O16: on the screen the state has, a command paints that screen. -/
theorem screenIsTheTraceApplied : Obligations.ScreenIsTheTraceApplied := by
  intro i s t hexec
  have hpainted := (onlyPaintsScreen_exec i).withScreen hexec s.screen
  rw [State.withScreen_self] at hpainted
  have ht := Host.Outcome.next.inj (hexec.symm.trans hpainted)
  exact (congrArg State.screen ht).trans (State.screen_withScreen ..)

/-- What a call does to the bus depends on the bus alone (20_memory.md R53 to R57). -/
theorem applyCall_bus_congr (c : Config) {d d' : Screen} (h : d.bus = d'.bus) (call : DpaCall) :
    (applyCall c d call).bus = (applyCall c d' call).bus := by
  have hword (v : Pixel) {e e' : Screen} (he : e.bus = e'.bus) : (e.writeWord v).bus = (e'.writeWord v).bus := by
    unfold Screen.writeWord
    rw [← he]
    cases hb : e.bus with
    | idle => rw [hb, ← he, hb]
    | active => rfl
  have hwords (v : Pixel) (n : Nat) {e e' : Screen} (he : e.bus = e'.bus) :
      (e.writeWords v n).bus = (e'.writeWords v n).bus := by
    induction n generalizing e e' with
    | zero => exact he
    | succ n ih => exact ih (hword v he)
  cases call with
  | beginRegion x0 y0 x1 y1 =>
    simp only [applyCall]
    split
    · rfl
    · exact h
  | writeDataWord v => exact hword v h
  | repeatDataWord v count => exact hwords v _ h
  | sendCommand op args => exact h
  | idle => rfl

theorem applyTrace_bus_congr (c : Config) (calls : List DpaCall) {d d' : Screen} (h : d.bus = d'.bus) :
    (applyTrace c d calls).bus = (applyTrace c d' calls).bus := by
  induction calls generalizing d d' with
  | nil => exact h
  | cons call calls ih => exact ih (applyCall_bus_congr c h call)

/-- Settles O19: waiting, resetting and the faults of a word keep the frame memory they find, and a command only paints
it, with calls whose effect on the bus depends on the bus alone. -/
theorem frameMemoryIsNeverRead : Obligations.FrameMemoryIsNeverRead := by
  intro s fb t hstep
  have hinbox : (s.withScreen { s.screen with fb := fb }).inbox = s.inbox := rfl
  change ∃ t', step (s.withScreen { s.screen with fb := fb }) = _ ∧ _
  rcases step_cases s with
    ⟨hempty, e⟩ | ⟨rest, hreset, e⟩ | ⟨w, rest, htaken, hhalted, e⟩ | ⟨w, rest, err, htaken, hrun, hdecode, e⟩ |
      ⟨w, rest, i, htaken, hrun, hdecode, e⟩
  · obtain rfl := Host.Outcome.next.inj (e.symm.trans hstep)
    exact ⟨_, step_of_empty (hinbox.trans hempty), rfl, rfl⟩
  · obtain rfl := Host.Outcome.next.inj (e.symm.trans hstep)
    exact ⟨_, step_of_reset (hinbox.trans hreset), rfl, rfl⟩
  · obtain rfl := Host.Outcome.next.inj (e.symm.trans hstep)
    exact ⟨_, step_of_halted (hinbox.trans htaken) hhalted, rfl, rfl⟩
  · obtain rfl := Host.Outcome.next.inj (e.symm.trans hstep)
    exact ⟨_, step_of_decode_error (hinbox.trans htaken) hrun hdecode, rfl, rfl⟩
  · have hexec := e.symm.trans hstep
    have hpainted := (onlyPaintsScreen_exec i).withScreen hexec { s.screen with fb := fb }
    refine ⟨_, (step_of_decode_ok (hinbox.trans htaken) hrun hdecode).trans hpainted, rfl, ?bus⟩
    case bus =>
      rw [screenIsTheTraceApplied i _ t hexec]
      exact applyTrace_bus_congr _ _ rfl

end Sys2Proof.Machine
end

section
/-! Strips of pixels: a span of RING and a pair of PAIR and LINE are one Region of width or height 1, streamed from one
end to the other (41_line_rasterizer.md R154, 42_ring_rasterizer.md R185). -/

namespace Sys2Proof.Machine

/-! ### The words of a span -/

/-- How many words a span streams does not depend on its colours. -/
theorem length_dataWords_spanWords (col : Nat → Pixel) (sign : Int) {a b : Nat} (hab : a ≤ b) :
    (dataWords (spanWords col sign a b)).length = b - a + 1 := by
  have hmiddle (v : Pixel) (n : Nat) : (dataWords (if 2 < n then stream v (n - 2) else [])).length = n - 2 := by
    split
    · rw [dataWords_stream, List.length_replicate]
    · rw [dataWords, List.length_nil]; omega
  have hlast (n : Nat) (hn : 0 < n) :
      (dataWords (if 1 < n then [DpaCall.writeDataWord (col b)] else [])).length = min (n - 1) 1 := by
    split <;> simp only [dataWords, List.length_cons, List.length_nil] <;> omega
  simp only [spanWords]
  split <;>
    simp only [dataWords_append, List.length_append, hmiddle, hlast _ (Nat.succ_pos _), dataWords, List.length_cons,
      List.length_nil] <;>
    omega

/-- Settles O51: the first word, the middle ones and, if there is more than one pixel, the last. -/
theorem spanStreamsOneWordForEachPixel : Obligations.SpanStreamsOneWordForEachPixel :=
  fun col sign _ _ => length_dataWords_spanWords col sign

/-- The distances of a span as its first, the middle ones and its last. -/
theorem map_range'_ends (col : Nat → Pixel) (mid : Pixel) {a b : Nat} (hab : a < b)
    (hmid : ∀ x, a < x → x < b → col x = mid) :
    (List.range' a (b - a + 1)).map col = col a :: (List.replicate (b - a - 1) mid ++ [col b]) := by
  have hmiddle : (List.range' (a + 1) (b - a - 1)).map col = List.replicate (b - a - 1) mid := by
    rw [List.map_congr_left fun x hx => hmid x ?_ ?_, List.map_const', List.length_range']
    all_goals rw [List.mem_range'_1] at hx; omega
  rw [List.range'_succ, show b - a = b - a - 1 + 1 by omega, List.range'_concat, List.map_cons, List.map_append,
    Nat.add_sub_cancel, hmiddle, List.map_singleton]
  congr 4
  omega

/-- A span whose middle pixels share a colour streams its pixels' colours in the cursor's order: from the first distance
on where the sign is 1, and else from the last one back (42_ring_rasterizer.md R185). -/
theorem dataWords_spanWords {col : Nat → Pixel} {mid : Pixel} {a b : Nat} (hab : a ≤ b)
    (hmid : ∀ x, a < x → x < b → col x = mid) (sign : Int) :
    dataWords (spanWords col sign a b) =
      if sign = 1 then (List.range' a (b - a + 1)).map col else ((List.range' a (b - a + 1)).map col).reverse := by
  have hmiddle (x : Nat) (hx : 2 < b - a + 1 → col x = mid) :
      dataWords (if 2 < b - a + 1 then stream (col x) (b - a + 1 - 2) else []) = List.replicate (b - a - 1) mid := by
    split
    case isTrue h => rw [dataWords_stream, hx h]; congr 1
    case isFalse h => rw [show b - a - 1 = 0 by omega]; rfl
  simp only [spanWords, apply_ite dataWords (sign = 1), dataWords_append]
  rw [hmiddle (a + 1) fun h => hmid _ (by omega) (by omega), hmiddle (b - 1) fun h => hmid _ (by omega) (by omega)]
  rcases hab.eq_or_lt with rfl | hlt
  · simp [dataWords]
  · rw [if_pos (show 1 < b - a + 1 by omega), map_range'_ends col mid hlt hmid]
    simp [dataWords]

/-! ### One span as a Region -/

/-- The Region of a span, opened, filled with the words given, and released (42_ring_rasterizer.md R185). -/
def RingSpan.fillWith (c : Config) (sp : RingSpan) (words : List DpaCall) : Paint :=
  (openRegion c (min (sp.pixelAt sp.fromD).1 (sp.pixelAt sp.toD).1) (min (sp.pixelAt sp.fromD).2 (sp.pixelAt sp.toD).2)
    (max (sp.pixelAt sp.fromD).1 (sp.pixelAt sp.toD).1)
    (max (sp.pixelAt sp.fromD).2 (sp.pixelAt sp.toD).2)).andThen fun _ => Paint.emit (words ++ [.idle])

/-- `EmitSpan` fills the Region of its span (42_ring_rasterizer.md R185). -/
theorem RingSpan.paint_eq_fillWith (c : Config) (fg bg : Pixel) (ri ro : Nat) (sp : RingSpan) :
    sp.paint c fg bg ri ro
      = sp.fillWith c (spanWords (ringColour fg bg ri ro sp.row) sp.sign sp.fromD sp.toD) := by
  unfold RingSpan.paint emitSpan RingSpan.fillWith RingSpan.pixelAt
  cases sp.horizontal <;> simp

/-- A pair as a span of two pixels: the line's pixel at distance 0 and its neighbour at distance 1
(41_line_rasterizer.md R154). -/
def pairSpan (X Y : Int) (steep : Bool) (smin : Int) : RingSpan where
  horizontal := steep
  fixed := if steep then Y else X
  centre := if steep then X else Y
  sign := smin
  fromD := 0
  toD := 1
  row := 0

@[simp] theorem pairSpan_pixelAt_zero (X Y : Int) (steep : Bool) (smin : Int) :
    (pairSpan X Y steep smin).pixelAt 0 = (X, Y) := by
  cases steep <;> simp [pairSpan, RingSpan.pixelAt]

@[simp] theorem pairSpan_pixelAt_one (X Y : Int) (steep : Bool) (smin : Int) :
    (pairSpan X Y steep smin).pixelAt 1 = neighbour X Y steep smin := by
  cases steep <;> simp [pairSpan, RingSpan.pixelAt, neighbour]

/-- The two words of a pair, in the cursor's order (41_line_rasterizer.md R154). -/
def pairWords (near far : Pixel) (smin : Int) : List DpaCall :=
  if smin = 1 then [.writeDataWord near, .writeDataWord far] else [.writeDataWord far, .writeDataWord near]

/-- `PaintPair` fills the Region of its span (41_line_rasterizer.md R154). -/
theorem paintPair_eq_fillWith (c : Config) (fg bg : Pixel) (X Y : Int) (steep : Bool) (smin : Int) (alpha : Nat) :
    paintPair c fg bg X Y steep smin alpha = (pairSpan X Y steep smin).fillWith c
      (pairWords (blendpx fg bg (63 - min alpha 63)) (blendpx fg bg (min alpha 63)) smin) := by
  rw [RingSpan.fillWith, show (pairSpan X Y steep smin).fromD = 0 from rfl,
    show (pairSpan X Y steep smin).toD = 1 from rfl, pairSpan_pixelAt_zero, pairSpan_pixelAt_one]
  rfl

/-- The Region of a span lies on the display exactly when both its ends do. -/
theorem regionOnDisplay_ends_iff (c : Config) (p q : Int × Int) :
    regionOnDisplay c (min p.1 q.1) (min p.2 q.2) (max p.1 q.1) (max p.2 q.2)
      ↔ pixelOnDisplay c p ∧ pixelOnDisplay c q := by
  unfold regionOnDisplay pixelOnDisplay
  omega

/-- A span with an end off the display makes one `idle()` and raises `RegionRange` (20_memory.md R60). -/
theorem RingSpan.fillWith_of_not_onDisplay {c : Config} {sp : RingSpan} (h : ¬ sp.onDisplay c) (words : List DpaCall) :
    sp.fillWith c words = Paint.raise .regionRange := by
  rw [RingSpan.fillWith, openRegion_andThen, if_neg (mt (regionOnDisplay_ends_iff ..).1 h)]

/-- The span runs away from its centre to one side. -/
structure RingSpan.Wf (sp : RingSpan) : Prop where
  /-- The side is one of the two. -/
  sign : sp.sign = 1 ∨ sp.sign = -1
  /-- The distances are not crossed. -/
  ordered : sp.fromD ≤ sp.toD

/-- How many pixels a span has. -/
def RingSpan.length (sp : RingSpan) : Nat := sp.toD - sp.fromD + 1

/-- The distance of the span's `i`-th pixel in the cursor's order (42_ring_rasterizer.md R185). -/
def RingSpan.cursorDistance (sp : RingSpan) (i : Nat) : Nat := if sp.sign = 1 then sp.fromD + i else sp.toD - i

/-- The key of a position of the display (20_memory.md R50, log entry 4). -/
def positionKey (p : Int × Int) : Nat := pixelKey p.1.toNat p.2.toNat

/-- On the display a span opens its Region, streams the words and releases the bus. -/
theorem RingSpan.fillWith_eq_of_onDisplay {c : Config} {sp : RingSpan} (hon : sp.onDisplay c) (words : List DpaCall) :
    sp.fillWith c words =
      { calls := .beginRegion (min (sp.pixelAt sp.fromD).1 (sp.pixelAt sp.toD).1).toNat
          (min (sp.pixelAt sp.fromD).2 (sp.pixelAt sp.toD).2).toNat
          (max (sp.pixelAt sp.fromD).1 (sp.pixelAt sp.toD).1).toNat
          (max (sp.pixelAt sp.fromD).2 (sp.pixelAt sp.toD).2).toNat :: words ++ [.idle], cause := none } := by
  rw [RingSpan.fillWith, openRegion_andThen, if_pos ((regionOnDisplay_ends_iff c _ _).2 hon)]
  rfl

/-- The span's coordinate along its axis at a distance (42_ring_rasterizer.md R185). -/
def RingSpan.along (sp : RingSpan) (d : Nat) : Int := sp.centre + sp.sign * d

theorem RingSpan.pixelAt_eq (sp : RingSpan) (d : Nat) :
    sp.pixelAt d = if sp.horizontal then (sp.along d, sp.fixed) else (sp.fixed, sp.along d) := rfl

/-- Along its axis a span is as long as it has pixels, and the cursor takes them from the lower coordinate up. -/
theorem RingSpan.along_ends {sp : RingSpan} (hwf : sp.Wf) :
    max (sp.along sp.fromD) (sp.along sp.toD) + 1 = min (sp.along sp.fromD) (sp.along sp.toD) + sp.length ∧
    ∀ i < sp.length, sp.along (sp.cursorDistance i) = min (sp.along sp.fromD) (sp.along sp.toD) + i := by
  obtain ⟨hsign, hordered⟩ := hwf
  unfold RingSpan.along RingSpan.cursorDistance RingSpan.length
  rcases hsign with hs | hs
  · simp only [hs, if_true]
    exact ⟨by omega, fun i hi => by omega⟩
  · simp only [hs, if_neg (show ¬ (-1 : Int) = 1 by decide)]
    exact ⟨by omega, fun i hi => by omega⟩

/-- On the display the Region of a span is a rectangle of its pixels, which the cursor passes in their order. -/
theorem RingSpan.fillWith_of_onDisplay {c : Config} {sp : RingSpan} (hwf : sp.Wf) (hon : sp.onDisplay c)
    (words : List DpaCall) :
    ∃ x0 y0 w h : Nat, 0 < w ∧ 0 < h ∧ w * h = sp.length ∧ x0 + w ≤ c.dispW ∧ y0 + h ≤ c.dispH ∧
      sp.fillWith c words =
        { calls := .beginRegion x0 y0 (x0 + w - 1) (y0 + h - 1) :: words ++ [.idle], cause := none } ∧
      ∀ i < sp.length, regionKey x0 y0 w i = positionKey (sp.pixelAt (sp.cursorDistance i)) := by
  have hpos : 0 < sp.length := Nat.succ_pos _
  obtain ⟨hlen, halong⟩ := RingSpan.along_ends hwf
  rw [RingSpan.fillWith_eq_of_onDisplay hon]
  unfold RingSpan.onDisplay pixelOnDisplay at hon
  unfold positionKey regionKey
  simp only [RingSpan.pixelAt_eq] at hon ⊢
  cases hh : sp.horizontal with
  | true =>
    simp only [hh, if_true, min_self, max_self] at hon ⊢
    refine ⟨(min (sp.along sp.fromD) (sp.along sp.toD)).toNat, sp.fixed.toNat, sp.length, 1, hpos, Nat.one_pos,
      Nat.mul_one _, by omega, by omega, ?calls, fun i hi => ?keys⟩
    case calls =>
      rw [show (max (sp.along sp.fromD) (sp.along sp.toD)).toNat
        = (min (sp.along sp.fromD) (sp.along sp.toD)).toNat + sp.length - 1 by omega]
      rfl
    case keys =>
      rw [Nat.mod_eq_of_lt hi, Nat.div_eq_of_lt hi, halong i hi]
      congr 1
      omega
  | false =>
    simp only [hh, Bool.false_eq_true, if_false, min_self, max_self] at hon ⊢
    refine ⟨sp.fixed.toNat, (min (sp.along sp.fromD) (sp.along sp.toD)).toNat, 1, sp.length, Nat.one_pos, hpos,
      Nat.one_mul _, by omega, by omega, ?calls, fun i hi => ?keys⟩
    case calls =>
      rw [show (max (sp.along sp.fromD) (sp.along sp.toD)).toNat
        = (min (sp.along sp.fromD) (sp.along sp.toD)).toNat + sp.length - 1 by omega]
      rfl
    case keys =>
      rw [Nat.mod_one, Nat.div_one, halong i hi]
      congr 1
      omega

end Sys2Proof.Machine
end

section
/-! The adapter's protocol (20_memory.md section 2): every command's trace keeps it, and every paint command's trace
ends with `idle()`. -/

namespace Sys2Proof.Machine

/-! ### Rectangles -/

/-- `OpenRegion` of a rectangle that is not empty, and what follows it: it fits the display or raises `RegionRange`
(20_memory.md R60). -/
theorem openRectangle_andThen (c : Config) {w h : Nat} (hw : 0 < w) (hh : 0 < h) (x y : Nat) (q : Unit → Paint) :
    (openRegion c x y ((x : Int) + w - 1) ((y : Int) + h - 1)).andThen q =
      if x + w ≤ c.dispW ∧ y + h ≤ c.dispH then
        { calls := .beginRegion x y (x + w - 1) (y + h - 1) :: (q ()).calls, cause := (q ()).cause }
      else Paint.raise .regionRange := by
  have hfits : regionOnDisplay c x y ((x : Int) + w - 1) ((y : Int) + h - 1)
      ↔ x + w ≤ c.dispW ∧ y + h ≤ c.dispH := by unfold regionOnDisplay; omega
  have hright : ((x : Int) + w - 1).toNat = x + w - 1 := by omega
  have hbottom : ((y : Int) + h - 1).toNat = y + h - 1 := by omega
  simp only [openRegion_andThen, hfits, hright, hbottom, Int.toNat_natCast]

/-- A rectangle of the display, streamed into with no more words than it has pixels, keeps the protocol. -/
theorem traceLegal_rectangle {c : Config} {x y w h : Nat} (hw : 0 < w) (hh : 0 < h) (hx : x + w ≤ c.dispW)
    (hy : y + h ≤ c.dispH) {body : List DpaCall} (hd : ∀ call ∈ body, call.isData = true)
    (hlen : (dataWords body).length ≤ w * h) :
    traceLegal c (.beginRegion x y (x + w - 1) (y + h - 1) :: body ++ [.idle]) := by
  have hwidth : x + w - 1 - x + 1 = w := by omega
  have hheight : y + h - 1 - y + 1 = h := by omega
  exact traceLegal_region (by unfold regionOnDisplay; omega) body hd (by rwa [hwidth, hheight])

/-! ### Every paint command keeps the protocol -/

theorem traceLegal_fillPaint (c : Config) (x y w h : Nat) (colour : Pixel) :
    traceLegal c (fillPaint c x y w h colour).calls := by
  unfold fillPaint
  split
  case isTrue => exact traceLegal_idle c
  case isFalse hne =>
    rw [openRectangle_andThen c (by omega) (by omega)]
    split
    case isTrue hfits =>
      exact traceLegal_rectangle (by omega) (by omega) hfits.1 hfits.2 (isData_stream _ _) (by simp)
    case isFalse => exact traceLegal_idle c

/-- A span filled with no more words than it has pixels, whether it lies on the display or not. -/
theorem traceLegal_fillWith {c : Config} {sp : RingSpan} (hwf : sp.Wf) {words : List DpaCall}
    (hd : ∀ call ∈ words, call.isData = true) (hlen : (dataWords words).length ≤ sp.length) :
    traceLegal c (sp.fillWith c words).calls := by
  by_cases hon : sp.onDisplay c
  · obtain ⟨x0, y0, w, h, hw, hh, harea, hx, hy, hcalls, -⟩ := RingSpan.fillWith_of_onDisplay hwf hon words
    rw [hcalls]
    exact traceLegal_rectangle hw hh hx hy hd (harea ▸ hlen)
  · rw [RingSpan.fillWith_of_not_onDisplay hon]
    exact traceLegal_idle c

theorem isData_pairWords (near far : Pixel) (smin : Int) : ∀ call ∈ pairWords near far smin, call.isData = true := by
  unfold pairWords
  split <;> simp [DpaCall.isData]

theorem dataWords_pairWords (near far : Pixel) (smin : Int) :
    dataWords (pairWords near far smin) = if smin = 1 then [near, far] else [far, near] := by
  unfold pairWords
  split <;> rfl

theorem length_dataWords_pairWords (near far : Pixel) (smin : Int) :
    (dataWords (pairWords near far smin)).length = 2 := by
  rw [dataWords_pairWords]
  split <;> rfl

theorem pairSpan_wf {smin : Int} (h : smin = 1 ∨ smin = -1) (X Y : Int) (steep : Bool) : (pairSpan X Y steep smin).Wf :=
  ⟨h, Nat.zero_le 1⟩

theorem traceLegal_paintPair (c : Config) (fg bg : Pixel) (X Y : Int) (steep : Bool) {smin : Int}
    (hsign : smin = 1 ∨ smin = -1) (alpha : Nat) : traceLegal c (paintPair c fg bg X Y steep smin alpha).calls := by
  rw [paintPair_eq_fillWith]
  exact traceLegal_fillWith (pairSpan_wf hsign X Y steep) (isData_pairWords _ _ _) (length_dataWords_pairWords ..).le

theorem pairDirection_sign (dir : Nat) : (pairDirection dir).2 = 1 ∨ (pairDirection dir).2 = -1 := by
  unfold pairDirection
  repeat' split
  all_goals simp

theorem stepSign_cases (n : Int) : stepSign n = 1 ∨ stepSign n = -1 := by
  unfold stepSign
  split <;> simp

theorem lineDir_smin (dx dy : Int) : (lineDir dx dy).smin = 1 ∨ (lineDir dx dy).smin = -1 := by
  unfold lineDir
  split <;> exact stepSign_cases _

theorem traceLegal_lineLoop (c : Config) (fg bg : Pixel) {d : LineDir} (hsign : d.smin = 1 ∨ d.smin = -1) (x0 y0 : Int)
    (minExtent k i D m : Nat) : traceLegal c (lineLoop c fg bg d x0 y0 minExtent k i D m).calls := by
  induction k generalizing i D m with
  | zero => exact traceLegal_nil c
  | succ k ih =>
    refine traceLegal_andThen ?step ?rest
    case step =>
      split
      · exact traceLegal_paintPair c fg bg _ _ _ hsign _
      · exact traceLegal_nil c
    case rest => split <;> exact ih ..

theorem traceLegal_linePaint (c : Config) (fg bg : Pixel) (x0 y0 : Nat) (dx dy : Int) (minExtent maxExtent : Nat) :
    traceLegal c (linePaint c fg bg x0 y0 dx dy minExtent maxExtent).calls := by
  refine traceLegal_orIdle ?_
  split
  · exact traceLegal_lineLoop c fg bg (lineDir_smin dx dy) ..
  · exact traceLegal_nil c

/-- The spans of one orientation of a row (42_ring_rasterizer.md R180). -/
theorem mem_ringSideSpans {horizontal : Bool} {mid centre first last y : Nat} {sp : RingSpan} :
    sp ∈ ringSideSpans horizontal mid centre first last y ↔ first ≤ last ∧
      ∃ mirror ∈ mirrorSigns y, ∃ side : Int, (side = 1 ∨ side = -1) ∧
        sp = { horizontal := horizontal, fixed := mid + mirror * y, centre := centre, sign := side, fromD := first,
               toD := last, row := y } := by
  unfold ringSideSpans
  split
  case isTrue h => simp [h]
  case isFalse h => simp [h]

/-- The spans of a row (42_ring_rasterizer.md R180). -/
theorem mem_ringRowSpans {cx cy ri ro y : Nat} {sp : RingSpan} :
    sp ∈ ringRowSpans cx cy ri ro y ↔
      sp ∈ ringSideSpans true cy cx (rowFirst ri y) (rowLast ro y) y ∨
      sp ∈ ringSideSpans false cx cy (rowFirstVertical ri y) (rowLast ro y) y :=
  List.mem_append

theorem ringRowSpans_wf {cx cy ri ro y : Nat} {sp : RingSpan} (h : sp ∈ ringRowSpans cx cy ri ro y) : sp.Wf := by
  rcases mem_ringRowSpans.1 h with h | h
  all_goals
    obtain ⟨hle, _, _, _, hside, rfl⟩ := mem_ringSideSpans.1 h
    exact ⟨hside, hle⟩

theorem ringSpans_wf {cx cy ri ro : Nat} {sp : RingSpan} (h : sp ∈ ringSpans cx cy ri ro) : sp.Wf := by
  obtain ⟨_, _, hrow⟩ := List.mem_flatMap.1 h
  exact ringRowSpans_wf hrow

theorem traceLegal_ringPaint (c : Config) (fg bg : Pixel) (cx cy ri ro : Nat) :
    traceLegal c (ringPaint c fg bg cx cy ri ro).calls := by
  rw [ringPaint_eq_spans]
  refine traceLegal_orIdle (traceLegal_forEach _ fun sp hsp => ?_)
  have hwf := ringSpans_wf hsp
  rw [RingSpan.paint_eq_fillWith]
  exact traceLegal_fillWith hwf (isData_spanWords _ _ _ _) (length_dataWords_spanWords _ _ hwf.ordered).le

theorem isData_tokens (fg : Pixel) (ts : List Token) : ∀ call ∈ ts.flatMap (Token.words fg), call.isData = true := by
  intro call hcall
  obtain ⟨t, _, ht⟩ := List.mem_flatMap.1 hcall
  exact isData_tokenWords fg t call ht

theorem traceLegal_glyphPaint (c : Config) (fg : Pixel) (x y addr : Nat) :
    traceLegal c (glyphPaint c fg x y addr).calls := by
  unfold glyphPaint
  split
  case h_1 =>
    split
    case isTrue => exact traceLegal_idle c
    case isFalse hne =>
      rw [openRectangle_andThen c (by omega) (by omega), glyphLoop_calls]
      split
      case isTrue hfits =>
        refine traceLegal_rectangle (by omega) (by omega) hfits.1 hfits.2 (isData_tokens fg _) ?_
        rw [dataWords_tokens, List.length_map]
        exact glyphTaken_length _ _
      case isFalse => exact traceLegal_idle c
  case h_2 => exact traceLegal_idle c

/-- Settles O20: the trace of a command is empty or that of a paint command, and each of these is made of whole Regions
and `idle()` calls. -/
theorem everyTraceIsLegal : Obligations.EveryTraceIsLegal := by
  intro i s t he
  rcases exec_trace_cases he with
    e | ⟨_, _, _, _, _, e⟩ | ⟨_, _, _, _, _, _, e⟩ | ⟨_, _, _, _, e⟩ | ⟨_, _, _, e⟩ | ⟨_, _, dir, _, e⟩ <;> rw [e]
  · exact traceLegal_nil _
  · exact traceLegal_fillPaint ..
  · exact traceLegal_linePaint ..
  · exact traceLegal_ringPaint ..
  · exact traceLegal_glyphPaint ..
  · exact traceLegal_paintPair _ _ _ _ _ _ (pairDirection_sign dir) _

/-! ### The last call -/

theorem applyTrace_bus_of_getLast? {calls : List DpaCall} (h : calls.getLast? = some .idle) (c : Config) (d : Screen) :
    (applyTrace c d calls).bus = .idle := by
  obtain ⟨init, rfl⟩ := List.getLast?_eq_some_iff.1 h
  rw [applyTrace_append]
  rfl

/-- The only call that leaves the protocol `Idle` is `idle()`. -/
theorem protocolCall_eq_idle {c : Config} {m : Option Nat} {call : DpaCall} (h : protocolCall c m call = some none) :
    call = .idle := by
  cases m <;> cases call <;> simp_all [protocolCall]

/-- A legal trace that makes a call ends with `idle()`. -/
theorem getLast?_of_traceLegal {c : Config} {calls : List DpaCall} (h : traceLegal c calls) (hne : calls ≠ []) :
    calls.getLast? = some .idle := by
  obtain rfl | ⟨init, last, rfl⟩ := List.eq_nil_or_concat calls
  · exact absurd rfl hne
  · rw [List.concat_eq_append] at h ⊢
    rw [traceLegal, protocolRun_append, Option.bind_eq_some_iff] at h
    obtain ⟨m, -, hlast⟩ := h
    rw [List.getLast?_concat]
    cases hcall : protocolCall c m last with
    | none => simp [protocolRun, hcall] at hlast
    | some m' =>
      obtain rfl : m' = none := by simpa [protocolRun, hcall] using hlast
      rw [protocolCall_eq_idle hcall]

/-- `OpenRegion` makes a call whether it raises or not. -/
theorem openRegion_andThen_calls_ne_nil (c : Config) (xa ya xb yb : Int) (q : Unit → Paint) :
    ((openRegion c xa ya xb yb).andThen q).calls ≠ [] := by
  rw [openRegion_andThen]
  split <;> exact List.cons_ne_nil _ _

/-- No fault is raised before a call was made, as `idle()` comes before every `raise` (44_glyph_decoder.md R222). -/
structure Paint.NoSilentFault (p : Paint) : Prop where
  /-- Without a call there is no fault. -/
  cause_eq_none : p.calls = [] → p.cause = none

theorem noSilentFault_of_calls {p : Paint} (h : p.calls ≠ []) : p.NoSilentFault := ⟨fun e => absurd e h⟩

theorem noSilentFault_nothing : Paint.nothing.NoSilentFault := ⟨fun _ => rfl⟩

theorem noSilentFault_andThen {p : Paint} {q : Unit → Paint} (hp : p.NoSilentFault) (hq : (q ()).NoSilentFault) :
    (p.andThen q).NoSilentFault := by
  rcases Paint.andThen_cases p q with ⟨_, _, e⟩ | ⟨_, ecalls, ecause⟩
  · rwa [e]
  · refine ⟨fun h => ?_⟩
    rw [ecalls, List.append_eq_nil_iff] at h
    rw [ecause, hq.cause_eq_none h.2]

theorem noSilentFault_forEach {α : Type} {f : α → Paint} (xs : List α) (h : ∀ x ∈ xs, (f x).NoSilentFault) :
    (Paint.forEach f xs).NoSilentFault := by
  induction xs with
  | nil => exact noSilentFault_nothing
  | cons x xs ih =>
    obtain ⟨hx, hxs⟩ := List.forall_mem_cons.1 h
    exact noSilentFault_andThen hx (ih hxs)

/-- After `if not painted: idle()` some call was made (41_line_rasterizer.md R162, 42_ring_rasterizer.md R183). -/
theorem Paint.orIdle_calls_ne_nil {p : Paint} (h : p.NoSilentFault) : p.orIdle.calls ≠ [] := by
  rcases Paint.orIdle_cases p with ⟨_, e⟩ | ⟨hne, e⟩ <;> rw [e]
  · exact List.cons_ne_nil _ _
  · intro hcalls
    have hcause := h.cause_eq_none hcalls
    obtain ⟨calls, cause⟩ := p
    exact hne (by simp_all [Paint.nothing])

theorem noSilentFault_lineLoop (c : Config) (fg bg : Pixel) (d : LineDir) (x0 y0 : Int) (minExtent k i D m : Nat) :
    (lineLoop c fg bg d x0 y0 minExtent k i D m).NoSilentFault := by
  induction k generalizing i D m with
  | zero => exact noSilentFault_nothing
  | succ k ih =>
    refine noSilentFault_andThen ?step ?rest
    case step =>
      split
      · exact noSilentFault_of_calls (openRegion_andThen_calls_ne_nil _ _ _ _ _ _)
      · exact noSilentFault_nothing
    case rest => split <;> exact ih ..

theorem linePaint_calls_ne_nil (c : Config) (fg bg : Pixel) (x0 y0 : Nat) (dx dy : Int) (minExtent maxExtent : Nat) :
    (linePaint c fg bg x0 y0 dx dy minExtent maxExtent).calls ≠ [] := by
  refine Paint.orIdle_calls_ne_nil ?_
  split
  · exact noSilentFault_lineLoop ..
  · exact noSilentFault_nothing

theorem ringPaint_calls_ne_nil (c : Config) (fg bg : Pixel) (cx cy ri ro : Nat) :
    (ringPaint c fg bg cx cy ri ro).calls ≠ [] := by
  rw [ringPaint_eq_spans]
  refine Paint.orIdle_calls_ne_nil (noSilentFault_forEach _ fun sp _ => noSilentFault_of_calls ?_)
  rw [RingSpan.paint_eq_fillWith]
  exact openRegion_andThen_calls_ne_nil _ _ _ _ _ _

theorem fillPaint_calls_ne_nil (c : Config) (x y w h : Nat) (colour : Pixel) :
    (fillPaint c x y w h colour).calls ≠ [] := by
  unfold fillPaint
  split
  · exact List.cons_ne_nil _ _
  · exact openRegion_andThen_calls_ne_nil _ _ _ _ _ _

theorem glyphPaint_calls_ne_nil (c : Config) (fg : Pixel) (x y addr : Nat) :
    (glyphPaint c fg x y addr).calls ≠ [] := by
  unfold glyphPaint
  split
  · split
    · exact List.cons_ne_nil _ _
    · exact openRegion_andThen_calls_ne_nil _ _ _ _ _ _
  · exact List.cons_ne_nil _ _

/-- A PAIR whose direction is in range paints (41_line_rasterizer.md R155). -/
theorem exec_pair_of_inDIR {dir : Word} (hdir : inDIR dir = true) (x y alpha : Word) (s : State) :
    exec (.pair x y dir alpha) s = .next (s.finishPaint 0x24
      (pairPaint s.cfg s.fg s.bg (zext16 x) (zext16 y) (zext16 dir) (zext16 alpha))) :=
  congrArg _ (if_pos hdir)

theorem paintCommand_trace_ne_nil {i : Instr} {s t : State} (hpaints : paints i = true) (hwf : i.wellFormed = true)
    (he : exec i s = .next t) : t.trace ≠ [] := by
  cases i with
  | fill => exact trace_of_finishPaint he ▸ fillPaint_calls_ne_nil _ _ _ _ _ _
  | line => exact trace_of_finishPaint he ▸ linePaint_calls_ne_nil _ _ _ _ _ _ _ _ _
  | ring => exact trace_of_finishPaint he ▸ ringPaint_calls_ne_nil _ _ _ _ _ _ _
  | glyph => exact trace_of_finishPaint he ▸ glyphPaint_calls_ne_nil _ _ _ _ _
  | pair =>
    rw [exec_pair_of_inDIR hwf] at he
    exact trace_of_finishPaint he ▸ openRegion_andThen_calls_ne_nil _ _ _ _ _ _
  | _ => cases hpaints

/-- Settles O22: a paint command makes a call, its trace is legal, and a legal trace that makes a call ends with
`idle()`, which releases the bus. -/
theorem paintCommandsEndWithIdle : Obligations.PaintCommandsEndWithIdle := by
  intro i s t hpaints hwf he
  have hlast := getLast?_of_traceLegal (everyTraceIsLegal i s t he) (paintCommand_trace_ne_nil hpaints hwf he)
  refine ⟨hlast, ?_⟩
  rw [screenIsTheTraceApplied i s t he]
  exact applyTrace_bus_of_getLast? hlast _ _

end Sys2Proof.Machine
end

section
/-! What every command and every step keep: each register is written by its own commands only, `STATUS` by fault entry
only, and the invariant holds from reset on (10_state.md sections 2, 5 and 7, 60_exceptions.md section 2). -/

namespace Sys2Proof.Machine

/-! ### Registers -/

/-- A compositor command that ends or faults writes at most `RES0` and `STATUS` (40_compositor.md R120). -/
theorem compositorCommand_keeps {op : Byte} {ok : Bool} {v : Word} {s t : State}
    (he : compositorCommand op ok v s = .next t) :
    t.fg = s.fg ∧ t.bg = s.bg ∧ t.res1 = s.res1 ∧ t.cfg = s.cfg ∧ t.inbox = s.inbox := by
  rcases compositorCommand_cases op ok v s with ⟨_, e⟩ | ⟨_, e⟩
  all_goals
    obtain rfl := Host.Outcome.next.inj (e.symm.trans he)
    exact ⟨rfl, rfl, rfl, rfl, rfl⟩

/-- A paint command writes no register but `STATUS`, painting or faulting on its operands (41_line_rasterizer.md,
"None of these commands writes RES0, RES1, FG or BG"). -/
theorem paintCommand_keeps {i : Instr} {s t : State} (hpaints : paints i = true) (he : exec i s = .next t) :
    t.fg = s.fg ∧ t.bg = s.bg ∧ t.res1 = s.res1 ∧ t.res0 = s.res0 ∧ t.cfg = s.cfg ∧ t.inbox = s.inbox := by
  have painted {op : Byte} {p : Paint} (h : (.next (s.finishPaint op p) : Host.Outcome State Fault Refusal) = .next t) :
      t.fg = s.fg ∧ t.bg = s.bg ∧ t.res1 = s.res1 ∧ t.res0 = s.res0 ∧ t.cfg = s.cfg ∧ t.inbox = s.inbox := by
    obtain rfl := Host.Outcome.next.inj h
    exact ⟨State.finishPaint_fg .., State.finishPaint_bg .., State.finishPaint_res1 .., State.finishPaint_res0 ..,
      State.finishPaint_cfg .., State.finishPaint_inbox ..⟩
  cases i with
  | fill => exact painted he
  | line => exact painted he
  | ring => exact painted he
  | glyph => exact painted he
  | pair x y dir alpha =>
    cases hdir : inDIR dir with
    | true => exact painted ((exec_pair_of_inDIR hdir x y alpha s).symm.trans he)
    | false =>
      rw [exec, execPair, if_neg (by simp [hdir])] at he
      obtain rfl := Host.Outcome.next.inj he
      exact ⟨rfl, rfl, rfl, rfl, rfl, rfl⟩
  | _ => cases hpaints

/-- Settles O17: a control command and UNITVEC write the registers they name, a compositor command at most `RES0`, and a
paint command none of the four. -/
theorem registersAreWrittenOnlyByTheirCommands : Obligations.RegistersAreWrittenOnlyByTheirCommands := by
  intro i s t he
  cases i with
  | nop =>
    obtain rfl := Host.Outcome.next.inj he
    exact ⟨.inl rfl, .inl rfl, .inl rfl, .inl rfl, rfl, rfl⟩
  | setfg colour =>
    obtain rfl := Host.Outcome.next.inj he
    exact ⟨.inr ⟨_, rfl, rfl⟩, .inl rfl, .inl rfl, .inl rfl, rfl, rfl⟩
  | setbg colour =>
    obtain rfl := Host.Outcome.next.inj he
    exact ⟨.inl rfl, .inr ⟨_, rfl, rfl⟩, .inl rfl, .inl rfl, rfl, rfl⟩
  | unitvec angle =>
    obtain rfl := Host.Outcome.next.inj he
    exact ⟨.inl rfl, .inl rfl, .inr ⟨_, rfl⟩, .inr (.inl ⟨_, rfl⟩), rfl, rfl⟩
  | sqrt | mulch | mulpx | blendch | blendpx =>
    obtain ⟨hfg, hbg, hres1, hcfg, hinbox⟩ := compositorCommand_keeps he
    exact ⟨.inl hfg, .inl hbg, .inl hres1, .inr (.inr (by simp)), hcfg, hinbox⟩
  | fill | line | ring | glyph | pair =>
    obtain ⟨hfg, hbg, hres1, hres0, hcfg, hinbox⟩ := paintCommand_keeps rfl he
    exact ⟨.inl hfg, .inl hbg, .inl hres1, .inl hres0, hcfg, hinbox⟩

/-- Settles O26: SETFG's update and the end of a command without adapter calls. -/
theorem setfgWritesOnlyFg : Obligations.SetfgWritesOnlyFg :=
  fun colour s => congrArg Host.Outcome.next (State.finish_eq { s with fg := colour })

/-- Settles O27: SETBG's update and the end of a command without adapter calls. -/
theorem setbgWritesOnlyBg : Obligations.SetbgWritesOnlyBg :=
  fun colour s => congrArg Host.Outcome.next (State.finish_eq { s with bg := colour })

/-! ### `STATUS` -/

/-- A command leaves `STATUS` alone or takes fault entry with its own opcode; then the colours and the results stay, and
the response carries them (60_exceptions.md R252). -/
theorem exec_status_cases {i : Instr} {s t : State} (he : exec i s = .next t) :
    t.status = s.status ∨
    ∃ c : Cause, t.status = faultStatus i.opcode c ∧ t.fg = s.fg ∧ t.bg = s.bg ∧ t.res0 = s.res0 ∧ t.res1 = s.res1 ∧
      t.rsp = some (t.status ++ s.res1 ++ s.res0) := by
  rcases exec_cases i s with ⟨_, _, _, _, e⟩ | e | ⟨p, _, e⟩
  · obtain rfl := Host.Outcome.next.inj (e.symm.trans he)
    exact .inl rfl
  · obtain rfl := Host.Outcome.next.inj (e.symm.trans he)
    exact .inr ⟨.operandRange, rfl, rfl, rfl, rfl, rfl, rfl⟩
  · obtain rfl := Host.Outcome.next.inj ((e s).symm.trans he)
    cases hcause : (p s.cfg s.fg s.bg).cause with
    | none =>
      rw [State.finishPaint_of_none _ _ _ hcause]
      exact .inl rfl
    | some c =>
      rw [State.finishPaint_of_some _ _ _ c hcause]
      exact .inr ⟨c, rfl, rfl, rfl, rfl, rfl, rfl⟩

/-- A command's trace leaves an `Idle` bus `Idle`, since it is empty or ends with `idle()`. -/
theorem exec_bus_idle {i : Instr} {s t : State} (he : exec i s = .next t) (hidle : s.screen.bus = .idle) :
    t.screen.bus = .idle := by
  rw [screenIsTheTraceApplied i s t he]
  by_cases hne : t.trace = []
  · rw [hne]
    exact hidle
  · exact applyTrace_bus_of_getLast? (getLast?_of_traceLegal (everyTraceIsLegal i s t he) hne) _ _

/-- Settles O18: of the two things a command can do to `STATUS`, the one that changes it. -/
theorem faultEntryWritesOnlyStatus : Obligations.FaultEntryWritesOnlyStatus := by
  intro i s t he hne
  obtain hsame | ⟨c, hstatus, hfg, hbg, hres0, hres1, hrsp⟩ := exec_status_cases he
  · exact absurd hsame hne
  · exact ⟨c, hstatus, hfg, hbg, hres0, hres1, hrsp, exec_bus_idle he⟩

/-! ### The invariant -/

/-- A value of `STATUS` that fault entry writes, as a number (60_exceptions.md R252). -/
theorem faultStatus_toNat (op : Byte) (c : Cause) :
    (faultStatus op c).toNat = op.toNat * 256 + c.code.toNat * 16 + 1 := by
  have happend (m n : Nat) (a : BitVec m) (b : BitVec n) : (a ++ b).toNat = a.toNat * 2 ^ n + b.toNat := by
    rw [BitVec.toNat_append, ← Nat.shiftLeft_add_eq_or_of_lt b.isLt, Nat.shiftLeft_eq]
  simp only [faultStatus, happend, BitVec.toNat_ofNat]
  omega

theorem Cause.code_range (c : Cause) : 1 ≤ c.code.toNat ∧ c.code.toNat ≤ 8 := by
  cases c <;> decide

/-- Fault entry gives `STATUS` a value the spec admits (10_state.md R27). -/
theorem statusLegal_faultStatus (op : Byte) (c : Cause) : statusLegal (faultStatus op c) := by
  have hval := faultStatus_toNat op c
  have hcode := c.code_range
  have hfault : statusFault (faultStatus op c) = true := by
    rw [statusFault, BitVec.getLsbD, Nat.testBit_zero, hval, decide_eq_true_eq]
    omega
  have hreserved : statusReserved (faultStatus op c) = 0 := by
    rw [← BitVec.toNat_inj, statusReserved, BitVec.extractLsb'_toNat, Nat.shiftRight_eq_div_pow, hval]
    simp only [BitVec.ofNat_eq_ofNat, BitVec.toNat_ofNat]
    omega
  have hcause : (statusCause (faultStatus op c)).toNat = c.code.toNat := by
    rw [statusCause, BitVec.extractLsb'_toNat, Nat.shiftRight_eq_div_pow, hval]
    omega
  refine ⟨hreserved, ?_⟩
  rw [if_pos hfault, hcause]
  exact hcode

/-- Every command keeps the invariant: its trace is legal, so the screen stays well formed, `STATUS` changes by fault
entry only, and it ends with the response. -/
theorem exec_keeps_inv {i : Instr} {s t : State} (hinv : s.Inv) (he : exec i s = .next t) : t.Inv := by
  have hlegal : traceLegal s.cfg t.trace := everyTraceIsLegal i s t he
  obtain ⟨-, -, -, -, hcfg, -⟩ := registersAreWrittenOnlyByTheirCommands i s t he
  obtain ⟨hbus, hwf, hfb⟩ := traceLegal_keeps hinv.params hlegal hinv.busIdle hinv.canonical hinv.onDisplay
  rw [← screenIsTheTraceApplied i s t he] at hbus hwf hfb
  obtain ⟨t', he', -, hrsp⟩ := exec_answers i s
  obtain rfl := Host.Outcome.next.inj (he.symm.trans he')
  exact {
    params := hcfg ▸ hinv.params
    canonical := hwf
    onDisplay := hcfg ▸ hfb
    busIdle := hbus
    status := by
      obtain hsame | ⟨c, hfault, -⟩ := exec_status_cases he
      · exact hsame ▸ hinv.status
      · exact hfault ▸ statusLegal_faultStatus i.opcode c
    legal := hcfg ▸ hlegal
    response := .inr hrsp }

/-- Taking an input from those still to be presented touches nothing the invariant speaks of. -/
theorem State.Inv.withInbox {s : State} (h : s.Inv) (rest : List HostInput) :
    ({ s with inbox := rest } : State).Inv :=
  ⟨h.params, h.canonical, h.onDisplay, h.busIdle, h.status, h.legal, h.response⟩

theorem State.Inv.finish {s : State} (h : s.Inv) : s.finish.Inv :=
  ⟨h.params, h.canonical, h.onDisplay, h.busIdle, h.status, traceLegal_nil _, .inr rfl⟩

theorem State.Inv.decodeFault {s : State} (h : s.Inv) (op : Byte) (c : Cause) : (s.decodeFault op c).Inv :=
  ⟨h.params, h.canonical, h.onDisplay, h.busIdle, statusLegal_faultStatus op c, traceLegal_nil _, .inr rfl⟩

theorem statusLegal_zero : statusLegal 0x0000#16 := by decide

theorem State.Inv.resetBlock {s : State} (h : s.Inv) : s.resetBlock.Inv :=
  ⟨h.params, h.canonical, h.onDisplay, rfl, statusLegal_zero, traceLegal_idle _, .inl rfl⟩

/-- Settles O23: the five things a step can do keep the invariant. -/
theorem everyStepKeepsTheInvariant : Obligations.EveryStepKeepsTheInvariant := by
  intro s t hinv hstep
  rcases step_cases s with ⟨_, e⟩ | ⟨rest, _, e⟩ | ⟨_, rest, _, _, e⟩ | ⟨w, rest, err, _, _, _, e⟩ |
    ⟨_, rest, _, _, _, _, e⟩
  · obtain rfl := Host.Outcome.next.inj (e.symm.trans hstep)
    exact hinv
  · obtain rfl := Host.Outcome.next.inj (e.symm.trans hstep)
    exact (hinv.withInbox rest).resetBlock
  · obtain rfl := Host.Outcome.next.inj (e.symm.trans hstep)
    exact (hinv.withInbox rest).finish
  · obtain rfl := Host.Outcome.next.inj (e.symm.trans hstep)
    exact (hinv.withInbox rest).decodeFault _ _
  · exact exec_keeps_inv (hinv.withInbox rest) (e.symm.trans hstep)

/-- The parameters of the block lie in their bounds, whatever they are (00_scope.md R7). -/
theorem Config.chip_wf : Config.chip.wf := by
  have hcolumn := Config.openLastColumn.isLt
  have hrow := Config.openLastRow.isLt
  have hsize := Config.openGmemSize.isLt
  have hwidth : Config.chip.dispW = Config.openLastColumn.val + 1 := rfl
  have hheight : Config.chip.dispH = Config.openLastRow.val + 1 := rfl
  have hgmem : Config.chip.gmemSize = Config.openGmemSize.val := by simp [Config.gmemSize, Config.chip]
  unfold Config.wf
  omega

/-- Settles O24: the parameters are in their bounds, nothing is painted, and reset's trace is one `idle()`. -/
theorem resetHasTheInvariant : Obligations.ResetHasTheInvariant :=
  ⟨Config.chip_wf, reset_memory_wf, fun _ he => absurd he List.not_mem_nil, rfl, statusLegal_zero, traceLegal_idle _,
    .inl rfl⟩

end Sys2Proof.Machine
end

section
/-! The compositor commands (40_compositor.md): their result in closed form, lane by lane, and their fault on an operand
out of range (30_encoding.md R92, R93). -/

namespace Sys2Proof.Machine

/-! ### The end of a compositor command -/

theorem compositorCommand_of_inRange {ok : Bool} (h : ok = true) (op : Byte) (v : Word) (s : State) :
    compositorCommand op ok v s = .next { s with res0 := v, trace := [], rsp := some (s.status ++ s.res1 ++ v) } :=
  congrArg Host.Outcome.next (if_pos h)

/-- Settles O28: in range the binary search is the floor of the square root. -/
theorem sqrtGivesTheFloorSquareRoot : Obligations.SqrtGivesTheFloorSquareRoot := by
  intro n s hn
  have hsqrt : Nat.sqrt n.toNat < 64 := Nat.sqrt_lt.2 (by omega)
  refine ⟨by omega, ?_⟩
  rw [← isqrt6_eq_sqrt hn]
  exact compositorCommand_of_inRange (decide_eq_true hn) ..

theorem inCH6_of_le {v : Word} (h : v.toNat ≤ 63) : inCH6 v = true := decide_eq_true h

/-- Settles O29: the product of two channels fits a register. -/
theorem mulchGivesTheExactProduct : Obligations.MulchGivesTheExactProduct := by
  intro p a s hp ha
  have hle := mulch_le hp ha
  have hr : (BitVec.ofNat 16 (mulch p.toNat a.toNat)).toNat = mulch p.toNat a.toNat := by
    rw [BitVec.toNat_ofNat]
    exact Nat.mod_eq_of_lt (by omega)
  refine ⟨BitVec.ofNat 16 (mulch p.toNat a.toNat), hr, hr.trans_le hle, ?_⟩
  exact compositorCommand_of_inRange (by rw [inCH6_of_le hp, inCH6_of_le ha]; rfl) ..

/-- Settles O31: the blend of two channels is one square root, at most 62. -/
theorem blendchSharesOneSquareRoot : Obligations.BlendchSharesOneSquareRoot := by
  intro f b a s hf hb ha
  have hle := blendch_le hf hb ha
  have hr : (BitVec.ofNat 16 (blendch f.toNat b.toNat a.toNat)).toNat = blendch f.toNat b.toNat a.toNat := by
    rw [BitVec.toNat_ofNat]
    exact Nat.mod_eq_of_lt (by omega)
  refine ⟨BitVec.ofNat 16 (blendch f.toNat b.toNat a.toNat), hr.trans (blendch_eq_sqrt hf hb ha), hr.trans_le hle, ?_⟩
  exact compositorCommand_of_inRange (by rw [inCH6_of_le hf, inCH6_of_le hb, inCH6_of_le ha]; rfl) ..

/-! ### Pixels, lane by lane -/

theorem exec_mulpx (px : Pixel) (alpha : Word) (s : State) :
    exec (.mulpx px alpha) s = .next { s with
      res0 := mulpx px alpha.toNat, trace := [], rsp := some (s.status ++ s.res1 ++ mulpx px alpha.toNat) } := rfl

theorem mulpx_of_le {alpha : Nat} (h : 63 ≤ alpha) (px : Pixel) : mulpx px alpha = px := if_pos h

/-- Below full weight MULPX scales each field (40_compositor.md R126). -/
theorem mulpx_fields (px : Pixel) {alpha : Nat} (h : alpha < 63) :
    redField (mulpx px alpha) = Nat.sqrt (2 * redField px * (2 * redField px) / 4 * alpha / 16) / 2 ∧
    greenField (mulpx px alpha) = Nat.sqrt (greenField px * greenField px / 4 * alpha / 16) ∧
    blueField (mulpx px alpha) = Nat.sqrt (2 * blueField px * (2 * blueField px) / 4 * alpha / 16) / 2 := by
  have lane {c : Nat} (hc : c ≤ 63) : scale c alpha ≤ 63 := (scale_le hc h.le).trans (by omega)
  obtain ⟨hr, hg, hb⟩ := pack_fields (lane (expR_le px)) (lane (expG_le px)) (lane (expB_le px))
  rw [mulpx_of_lt h, hr, hg, hb, scale_eq_sqrt (expR_le px) h.le, scale_eq_sqrt (expG_le px) h.le,
    scale_eq_sqrt (expB_le px) h.le, expR_eq, expG_eq, expB_eq]
  exact ⟨rfl, rfl, rfl⟩

/-- Settles O30: the two cases of `mulpx`. -/
theorem mulpxScalesEachLane : Obligations.MulpxScalesEachLane := fun px alpha s =>
  ⟨mulpx px alpha.toNat, fun h => mulpx_of_le h px, mulpx_fields px, exec_mulpx px alpha s⟩

theorem blendpx_zero_background (fg : Pixel) (alpha : Nat) : blendpx fg 0 alpha = mulpx fg alpha := if_pos rfl

theorem blendpx_zero_alpha (fg : Pixel) {bg : Pixel} (hbg : bg ≠ 0) : blendpx fg bg 0 = bg := by
  rw [blendpx, if_neg (show ¬ bg = 0x0000#16 from hbg), if_neg (by omega), if_pos rfl]

/-- Between the short-circuits a blend over a colour blends each lane (40_compositor.md R130). -/
theorem blendpx_inner (fg : Pixel) {bg : Pixel} {alpha : Nat} (hbg : bg ≠ 0) (hlo : 0 < alpha) (hhi : alpha < 63) :
    blendpx fg bg alpha = pack (blendch (expR fg) (expR bg) alpha) (blendch (expG fg) (expG bg) alpha)
      (blendch (expB fg) (expB bg) alpha) := by
  rw [blendpx, if_neg (show ¬ bg = 0x0000#16 from hbg), if_neg (Nat.not_le.2 hhi), if_neg hlo.ne']

theorem blendpx_inner_fields (fg : Pixel) {bg : Pixel} {alpha : Nat} (hbg : bg ≠ 0) (hlo : 0 < alpha)
    (hhi : alpha < 63) :
    redField (blendpx fg bg alpha) = blendch (expR fg) (expR bg) alpha / 2 ∧
    greenField (blendpx fg bg alpha) = blendch (expG fg) (expG bg) alpha ∧
    blueField (blendpx fg bg alpha) = blendch (expB fg) (expB bg) alpha / 2 := by
  have lane {f b : Nat} (hf : f ≤ 63) (hb : b ≤ 63) : blendch f b alpha ≤ 63 :=
    (blendch_le hf hb hhi.le).trans (by omega)
  rw [blendpx_inner fg hbg hlo hhi]
  exact pack_fields (lane (expR_le fg) (expR_le bg)) (lane (expG_le fg) (expG_le bg)) (lane (expB_le fg) (expB_le bg))

theorem exec_blendpx (fg bg : Pixel) (alpha : Word) (s : State) :
    exec (.blendpx fg bg alpha) s = .next { s with
      res0 := blendpx fg bg alpha.toNat, trace := [],
      rsp := some (s.status ++ s.res1 ++ blendpx fg bg alpha.toNat) } := rfl

/-- Settles O32: the four cases of `blendpx`, the last in the closed form of `blendch`. -/
theorem blendpxBlendsEachLane : Obligations.BlendpxBlendsEachLane := by
  intro fg bg alpha s
  refine ⟨blendpx fg bg alpha.toNat, ?sentinel, fun _ h => blendpx_full fg bg h, fun hbg h => ?zero,
    fun hbg hlo hhi => ?inner, exec_blendpx fg bg alpha s⟩
  case sentinel =>
    rintro rfl
    exact ⟨_, exec_mulpx fg alpha s, (blendpx_zero_background fg _).symm⟩
  case zero => rw [h, blendpx_zero_alpha fg hbg]
  case inner =>
    obtain ⟨hr, hg, hb⟩ := blendpx_inner_fields fg hbg hlo hhi
    rw [hr, hg, hb, blendch_eq_sqrt (expR_le fg) (expR_le bg) hhi.le, blendch_eq_sqrt (expG_le fg) (expG_le bg) hhi.le,
      blendch_eq_sqrt (expB_le fg) (expB_le bg) hhi.le]
    simp only [expR_eq, expG_eq, expB_eq, and_self]

/-- Settles O36: the lanes are the fields, and packing puts each lane back into its field. -/
theorem packOfLanesIsThePixel : Obligations.PackOfLanesIsThePixel := by
  intro px
  refine ⟨?_, expR_eq px, expG_eq px, expB_eq px⟩
  obtain ⟨hr, hg, hb⟩ := pack_fields (expR_le px) (expG_le px) (expB_le px)
  refine pixel_eq_of_fields ?_ ?_ ?_
  · rw [hr, expR_eq]; omega
  · rw [hg, expG_eq]
  · rw [hb, expB_eq]; omega

/-- The two weights of a blend add up to 63, so blending a lane with itself scales it by `63 / 64` under the root. -/
theorem blendch_self {c alpha : Nat} (hc : c ≤ 63) (halpha : alpha ≤ 63) : blendch c c alpha = c - 1 := by
  have hweights : mulch c alpha + mulch c (63 - alpha) = mulch c 63 := by
    unfold mulch
    rw [← Nat.mul_add, Nat.add_sub_of_le halpha]
  have hroot : ∀ c < 64, isqrt6 (mulch c 63 >>> 4) = c - 1 := by decide
  rw [blendch, hweights, hroot c (by omega)]

/-- Settles O37: a lane `2 * r` becomes `2 * r - 1`, whose half is `r - 1`. -/
theorem selfBlendDimsByOneStep : Obligations.SelfBlendDimsByOneStep := by
  intro p alpha hlo hhi hp
  obtain ⟨hr, hg, hb⟩ := blendpx_inner_fields p hp (alpha := alpha) (by omega) (by omega)
  rw [hr, hg, hb, blendch_self (expR_le p) (by omega), blendch_self (expG_le p) (by omega),
    blendch_self (expB_le p) (by omega), expR_eq, expG_eq, expB_eq]
  exact ⟨by omega, rfl, by omega⟩

/-! ### Operands out of range -/

/-- Settles O33: a compositor command checks its operands as a whole, PAIR its direction, and no other command has a
ranged operand. -/
theorem operandOutOfRangeFaults : Obligations.OperandOutOfRangeFaults := by
  have compositor {op : Byte} {ok : Bool} {v : Word} (s : State) (h : ok = false) :
      compositorCommand op ok v s = .next (s.decodeFault op .operandRange) := by rw [h]; rfl
  intro i s hwf
  change exec i s = .next (s.decodeFault i.opcode .operandRange)
  cases i with
  | sqrt | mulch | blendch => exact compositor s hwf
  | pair x y dir alpha => exact congrArg _ (if_neg (Bool.not_eq_true _ ▸ hwf))
  | _ => cases hwf

end Sys2Proof.Machine
end

section
/-! The sine table (43_sine_table.md): the full-circle sine by quadrants, its symmetries, and UNITVEC. -/

namespace Sys2Proof.Machine

/-- The full-circle sine by quadrants: forwards in the even ones, backwards in the odd ones, negative in the second half
turn (43_sine_table.md R204). -/
theorem fullSine_quadrants (c : Config) {r : Nat} (h : r < 72) :
    fullSine c r = quarterSine c r ∧ fullSine c (72 + r) = quarterSine c (72 - r) ∧
    fullSine c (144 + r) = -quarterSine c r ∧ fullSine c (216 + r) = -quarterSine c (72 - r) := by
  have hq : r / 72 = 0 ∧ (72 + r) / 72 = 1 ∧ (144 + r) / 72 = 2 ∧ (216 + r) / 72 = 3 := by omega
  have hr : r % 72 = r ∧ (72 + r) % 72 = r ∧ (144 + r) % 72 = r ∧ (216 + r) % 72 = r := by omega
  simp [fullSine, hq, hr]

/-- An angle is a place in one of the four quadrants. -/
theorem exists_quadrant {t : Nat} (h : t < 288) :
    ∃ r < 72, t = r ∨ t = 72 + r ∨ t = 144 + r ∨ t = 216 + r :=
  ⟨t % 72, by omega⟩

theorem quarterSine_eq (c : Config) (idx : Nat) : quarterSine c idx = (c.sine[min idx 69]!).toNat := by
  rw [getElem!_pos]
  rfl

/-- Settles O38: UNITVEC's two results are the full-circle sine, which the statement writes out by quadrants. -/
theorem unitvecGivesTheDirection : Obligations.UnitvecGivesTheDirection := by
  intro angle s th Q S
  have hQ (idx : Nat) : (quarterSine s.cfg idx : Int) = Q idx := congrArg Nat.cast (quarterSine_eq s.cfg idx)
  have hS (t : Nat) (ht : t < 288) : fullSine s.cfg t = S t := by
    obtain ⟨r, hr, hquadrant⟩ := exists_quadrant ht
    obtain ⟨h0, h1, h2, h3⟩ := fullSine_quadrants s.cfg hr
    simp only [S]
    rcases hquadrant with rfl | rfl | rfl | rfl
    · rw [h0, hQ, if_pos hr]
    · rw [h1, hQ, if_neg (by omega), if_pos (by omega), show 144 - (72 + r) = 72 - r by omega]
    · rw [h2, hQ, if_neg (by omega), if_neg (by omega), if_pos (by omega), Nat.add_sub_cancel_left]
    · rw [h3, hQ, if_neg (by omega), if_neg (by omega), if_neg (by omega), show 288 - (216 + r) = 72 - r by omega]
  have hangle : pointerAngle angle = th := rfl
  have hdx : unitDx s.cfg angle = -S th := by
    rw [unitDx, hangle, hS th (Nat.mod_lt _ (by omega))]
  have hdy : unitDy s.cfg angle = S ((th + 72) % 288) := by
    rw [unitDy, hangle, hS _ (Nat.mod_lt _ (by omega))]
  rw [← hdx, ← hdy]
  rfl

theorem fullSine_half_turn (c : Config) {t : Nat} (h : t < 288) : fullSine c ((t + 144) % 288) = -fullSine c t := by
  obtain ⟨r, hr, hquadrant⟩ := exists_quadrant h
  obtain ⟨h0, h1, h2, h3⟩ := fullSine_quadrants c hr
  rcases hquadrant with rfl | rfl | rfl | rfl
  · rw [show (t + 144) % 288 = 144 + t by omega, h2, h0]
  · rw [show (72 + r + 144) % 288 = 216 + r by omega, h3, h1]
  · rw [show (144 + r + 144) % 288 = r by omega, h0, h2, neg_neg]
  · rw [show (216 + r + 144) % 288 = 72 + r by omega, h1, h3, neg_neg]

/-- The sine rises along the table up to the quarter turn, that one included. -/
theorem fullSine_rising (c : Config) {t : Nat} (h : t ≤ 72) : fullSine c t = quarterSine c t := by
  obtain ⟨-, hquarter, -, -⟩ := fullSine_quadrants c (r := 0) (by omega)
  rcases h.eq_or_lt with rfl | hlt
  · exact hquarter
  · exact (fullSine_quadrants c hlt).1

/-- The sine falls back along the table up to the half turn, that one included because entry 0 is 0
(43_sine_table.md R202). -/
theorem fullSine_falling {c : Config} (hzero : c.sine[0] = 0) {t : Nat} (hlo : 72 ≤ t) (hhi : t ≤ 144) :
    fullSine c t = quarterSine c (144 - t) := by
  rcases hhi.eq_or_lt with rfl | hlt
  · obtain ⟨-, -, hhalf, -⟩ := fullSine_quadrants c (r := 0) (by omega)
    have hentry : quarterSine c 0 = 0 := by simp [quarterSine, hzero]
    rw [hhalf, hentry]
    rfl
  · obtain ⟨r, rfl⟩ := Nat.exists_eq_add_of_le hlo
    obtain ⟨-, hfall, -, -⟩ := fullSine_quadrants c (r := r) (by omega)
    rw [hfall, show 144 - (72 + r) = 72 - r by omega]

theorem fullSine_mirror {c : Config} (hzero : c.sine[0] = 0) {t : Nat} (h : t ≤ 144) :
    fullSine c (144 - t) = fullSine c t := by
  rcases Nat.le_total t 72 with hlo | hhi
  · rw [fullSine_rising c hlo, fullSine_falling hzero (by omega) (by omega), Nat.sub_sub_self h]
  · rw [fullSine_rising c (show 144 - t ≤ 72 by omega), fullSine_falling hzero hhi h]

/-- A table entry is a byte. -/
theorem quarterSine_le (c : Config) (idx : Nat) : quarterSine c idx ≤ 255 := by
  have h := (c.sine[min idx 69]'(by omega)).isLt
  unfold quarterSine
  omega

theorem fullSine_range (c : Config) {t : Nat} (h : t < 288) : -255 ≤ fullSine c t ∧ fullSine c t ≤ 255 := by
  obtain ⟨r, hr, hquadrant⟩ := exists_quadrant h
  obtain ⟨h0, h1, h2, h3⟩ := fullSine_quadrants c hr
  have hup := quarterSine_le c r
  have hdown := quarterSine_le c (72 - r)
  rcases hquadrant with rfl | rfl | rfl | rfl
  · rw [h0]; omega
  · rw [h1]; omega
  · rw [h2]; omega
  · rw [h3]; omega

/-- Settles O39: the three symmetries, each read off the quadrants. -/
theorem sineSymmetries : Obligations.SineSymmetries := fun c _ h =>
  ⟨fullSine_half_turn c h, fun hzero => fullSine_mirror hzero, fullSine_range c h⟩

/-- Settles O40: the results depend on the pointer's angle, which is taken modulo a turn. -/
theorem unitvecIsPeriodic : Obligations.UnitvecIsPeriodic := by
  intro a b s hturn
  have hangle : pointerAngle a = pointerAngle b := by
    unfold pointerAngle zext16
    omega
  simp only [exec, execUnitvec, unitDx, unitDy, hangle]

end Sys2Proof.Machine
end

section
/-! What a command's calls draw (20_memory.md sections 2 and 5): the picture of one Region, of a span, and of parts one
after the other. -/

namespace Sys2Proof.Machine

/-! ### Pictures -/

/-- The calls leave `v` at the key `k` for every `k`, `v` of the picture, and every other key as it was. -/
structure Draws (c : Config) (calls : List DpaCall) (picture : Nat → Pixel → Prop) : Prop where
  /-- What the picture shows is painted. -/
  painted : ∀ (d : Screen) {k : Nat} {v : Pixel}, picture k v → (applyTrace c d calls).fb.read k = some v
  /-- Where the picture shows nothing, nothing is painted. -/
  frame : ∀ (d : Screen) {k : Nat}, (∀ v, ¬ picture k v) → (applyTrace c d calls).fb.read k = d.fb.read k

theorem Draws.congr {c : Config} {calls : List DpaCall} {P Q : Nat → Pixel → Prop} (h : Draws c calls P)
    (hiff : ∀ k v, P k v ↔ Q k v) : Draws c calls Q :=
  ⟨fun d _ _ hQ => h.painted d ((hiff _ _).2 hQ), fun d _ hQ => h.frame d fun v hP => hQ v ((hiff _ _).1 hP)⟩

theorem draws_nil (c : Config) : Draws c [] fun _ _ => False := ⟨fun _ _ _ h => h.elim, fun _ _ _ => rfl⟩

/-- Parts one after the other draw all their pictures, if no two of these disagree on a pixel. -/
theorem draws_flatMap {α : Type} {c : Config} {part : α → List DpaCall} {picture : α → Nat → Pixel → Prop} (xs : List α)
    (hparts : ∀ x ∈ xs, Draws c (part x) (picture x))
    (hagree : ∀ x ∈ xs, ∀ y ∈ xs, ∀ k v w, picture x k v → picture y k w → v = w) :
    Draws c (xs.flatMap part) fun k v => ∃ x ∈ xs, picture x k v := by
  induction xs with
  | nil => exact (draws_nil c).congr fun k v => by simp
  | cons x xs ih =>
    have hx := hparts x List.mem_cons_self
    have hxs := ih (fun y hy => hparts y (List.mem_cons_of_mem _ hy))
      fun y hy z hz => hagree y (List.mem_cons_of_mem _ hy) z (List.mem_cons_of_mem _ hz)
    refine ⟨fun d k v hv => ?painted, fun d k hk => ?frame⟩
    case painted =>
      obtain ⟨y, hy, hyv⟩ := hv
      rw [List.flatMap_cons, applyTrace_append]
      by_cases hlater : ∃ w, ∃ z ∈ xs, picture z k w
      · obtain ⟨w, z, hz, hzw⟩ := hlater
        rw [hagree y hy z (List.mem_cons_of_mem _ hz) k v w hyv hzw]
        exact hxs.painted _ ⟨z, hz, hzw⟩
      · rw [hxs.frame _ (not_exists.1 hlater)]
        rcases List.mem_cons.1 hy with rfl | hy
        · exact hx.painted d hyv
        · exact absurd ⟨v, y, hy, hyv⟩ hlater
    case frame =>
      rw [List.flatMap_cons, applyTrace_append, hxs.frame, hx.frame]
      · exact fun v hv => hk v ⟨x, List.mem_cons_self, hv⟩
      · rintro v ⟨y, hy, hv⟩
        exact hk v ⟨y, List.mem_cons_of_mem _ hy, hv⟩

/-! ### One Region -/

/-- One whole Region draws its words at its pixels, in the cursor's order. -/
theorem draws_region {c : Config} (hc : c.dispW ≤ 65536) {x0 y0 w h : Nat} (hw : 0 < w) (hh : 0 < h)
    (hx : x0 + w ≤ c.dispW) (hy : y0 + h ≤ c.dispH) {body : List DpaCall} (hd : ∀ call ∈ body, call.isData = true)
    (hlen : (dataWords body).length ≤ w * h) :
    Draws c (.beginRegion x0 y0 (x0 + w - 1) (y0 + h - 1) :: body ++ [.idle]) fun k v =>
      ∃ i, (dataWords body)[i]? = some v ∧ k = regionKey x0 y0 w i := by
  refine ⟨fun d k v => ?painted, fun d k hk => ?frame⟩
  all_goals obtain ⟨-, -, -, hframe, hpainted⟩ := applyTrace_region hw hh hx hy body hd hlen d
  case painted =>
    rintro ⟨i, hv, rfl⟩
    obtain ⟨hi, rfl⟩ := List.getElem?_eq_some_iff.1 hv
    exact hpainted (by omega) i hi
  case frame => exact hframe k fun i hi e => hk _ ⟨i, List.getElem?_eq_getElem hi, e⟩

/-- The pixels of a rectangle, in the cursor's order (20_memory.md R55). -/
theorem inRectangle_cursor {x y w h i : Nat} (hi : i < w * h) : inRectangle x y w h (x + i % w) (y + i / w) := by
  have hw : 0 < w := Nat.pos_of_mul_pos_right (Nat.zero_lt_of_lt hi)
  have hcolumn := Nat.mod_lt i hw
  have hrow : i / w < h := Nat.div_lt_of_lt_mul hi
  exact ⟨Nat.le_add_right .., by omega, Nat.le_add_right .., by omega⟩

/-- Every pixel of a rectangle is passed by the cursor. -/
theorem exists_cursor_of_inRectangle {x y w h a b : Nat} (hin : inRectangle x y w h a b) :
    ∃ i < w * h, a = x + i % w ∧ b = y + i / w := by
  obtain ⟨hxa, haw, hyb, hbh⟩ := hin
  have hw : 0 < w := by omega
  obtain ⟨m, rfl⟩ := Nat.exists_eq_add_of_le hxa
  obtain ⟨n, rfl⟩ := Nat.exists_eq_add_of_le hyb
  refine ⟨m + w * n, ?_, ?_, ?_⟩
  · calc m + w * n < w + w * n := by omega
      _ = w * (n + 1) := by ring
      _ ≤ w * h := Nat.mul_le_mul_left w (by omega)
  · rw [Nat.add_mul_mod_self_left, Nat.mod_eq_of_lt (by omega)]
  · rw [Nat.add_mul_div_left _ _ hw, Nat.div_eq_of_lt (by omega), Nat.zero_add]

/-! ### One span -/

/-- The colours of a span in the cursor's order (42_ring_rasterizer.md R185). -/
def RingSpan.colours (sp : RingSpan) (col : Nat → Pixel) : List Pixel :=
  if sp.sign = 1 then (List.range' sp.fromD sp.length).map col else ((List.range' sp.fromD sp.length).map col).reverse

theorem RingSpan.length_colours (sp : RingSpan) (col : Nat → Pixel) : (sp.colours col).length = sp.length := by
  unfold RingSpan.colours
  split <;> simp

/-- The cursor's `i`-th word has the colour of the pixel there. -/
theorem RingSpan.getElem?_colours {sp : RingSpan} (hordered : sp.fromD ≤ sp.toD) (col : Nat → Pixel) {i : Nat}
    (hi : i < sp.length) : (sp.colours col)[i]? = some (col (sp.cursorDistance i)) := by
  unfold RingSpan.colours RingSpan.cursorDistance
  split
  · rw [List.getElem?_map, List.getElem?_range' hi, Option.map_some, Nat.one_mul]
  · have hback : sp.length - 1 - i < sp.length := by omega
    rw [List.getElem?_reverse (by simpa using hi), List.length_map, List.length_range', List.getElem?_map,
      List.getElem?_range' hback, Option.map_some, Nat.one_mul]
    unfold RingSpan.length at hi ⊢
    congr 2
    omega

/-- The cursor passes every distance of the span, and no other. -/
theorem RingSpan.cursorDistance_range {sp : RingSpan} (hordered : sp.fromD ≤ sp.toD) (dist : Nat) :
    (∃ i < sp.length, sp.cursorDistance i = dist) ↔ sp.fromD ≤ dist ∧ dist ≤ sp.toD := by
  unfold RingSpan.length RingSpan.cursorDistance
  split
  · exact ⟨fun ⟨i, hi, h⟩ => by omega, fun h => ⟨dist - sp.fromD, by omega, by omega⟩⟩
  · exact ⟨fun ⟨i, hi, h⟩ => by omega, fun h => ⟨sp.toD - dist, by omega, by omega⟩⟩

/-- A span on the display, filled with its colours, draws them at its distances. -/
theorem draws_span {c : Config} (hc : c.dispW ≤ 65536) {sp : RingSpan} (hwf : sp.Wf) (hon : sp.onDisplay c)
    {words : List DpaCall} (hd : ∀ call ∈ words, call.isData = true) {col : Nat → Pixel}
    (hwords : dataWords words = sp.colours col) :
    Draws c (sp.fillWith c words).calls fun k v =>
      ∃ dist, sp.fromD ≤ dist ∧ dist ≤ sp.toD ∧ k = positionKey (sp.pixelAt dist) ∧ v = col dist := by
  obtain ⟨x0, y0, w, h, hw, hh, harea, hx, hy, hcalls, hkeys⟩ := RingSpan.fillWith_of_onDisplay hwf hon words
  have hlen : (dataWords words).length = sp.length := hwords ▸ sp.length_colours col
  rw [hcalls]
  refine (draws_region hc hw hh hx hy hd (hlen.trans harea.symm).le).congr fun k v => ⟨?cursor, ?distance⟩
  case cursor =>
    rintro ⟨i, hv, rfl⟩
    have hi : i < sp.length := hlen ▸ (List.getElem?_eq_some_iff.1 hv).1
    obtain ⟨hlo, hhi⟩ := (RingSpan.cursorDistance_range hwf.ordered _).1 ⟨i, hi, rfl⟩
    rw [hwords, RingSpan.getElem?_colours hwf.ordered col hi, Option.some.injEq] at hv
    exact ⟨_, hlo, hhi, hkeys i hi, hv.symm⟩
  case distance =>
    rintro ⟨dist, hlo, hhi, rfl, rfl⟩
    obtain ⟨i, hi, rfl⟩ := (RingSpan.cursorDistance_range hwf.ordered dist).2 ⟨hlo, hhi⟩
    exact ⟨i, hwords ▸ RingSpan.getElem?_colours hwf.ordered col hi, (hkeys i hi).symm⟩

/-- A pair on the display draws its pixel and its neighbour (41_line_rasterizer.md R154). -/
theorem draws_pair {c : Config} (hc : c.dispW ≤ 65536) {X Y : Int} {steep : Bool} {smin : Int}
    (hsign : smin = 1 ∨ smin = -1) (hnear : pixelOnDisplay c (X, Y))
    (hfar : pixelOnDisplay c (neighbour X Y steep smin)) (near far : Pixel) :
    Draws c ((pairSpan X Y steep smin).fillWith c (pairWords near far smin)).calls fun k v =>
      (k = positionKey (X, Y) ∧ v = near) ∨ (k = positionKey (neighbour X Y steep smin) ∧ v = far) := by
  have hon : (pairSpan X Y steep smin).onDisplay c := by
    unfold RingSpan.onDisplay
    rw [show (pairSpan X Y steep smin).fromD = 0 from rfl, show (pairSpan X Y steep smin).toD = 1 from rfl,
      pairSpan_pixelAt_zero, pairSpan_pixelAt_one]
    exact ⟨hnear, hfar⟩
  have hwords : dataWords (pairWords near far smin)
      = (pairSpan X Y steep smin).colours fun dist => if dist = 0 then near else far := by
    rw [dataWords_pairWords]
    rfl
  refine (draws_span hc (pairSpan_wf hsign X Y steep) hon (isData_pairWords near far smin) hwords).congr fun k v => ?_
  constructor
  · rintro ⟨dist, -, hle, rfl, rfl⟩
    obtain rfl | rfl : dist = 0 ∨ dist = 1 := Nat.le_one_iff_eq_zero_or_eq_one.1 hle
    · exact .inl ⟨by rw [pairSpan_pixelAt_zero], rfl⟩
    · exact .inr ⟨by rw [pairSpan_pixelAt_one], rfl⟩
  · rintro (⟨rfl, rfl⟩ | ⟨rfl, rfl⟩)
    · exact ⟨0, le_rfl, Nat.zero_le 1, by rw [pairSpan_pixelAt_zero], rfl⟩
    · exact ⟨1, Nat.zero_le 1, le_rfl, by rw [pairSpan_pixelAt_one], rfl⟩

/-- Keys of the display's positions determine the position. -/
theorem positionKey_inj {c : Config} (hc : c.dispW ≤ 65536) {p q : Int × Int} (hp : pixelOnDisplay c p)
    (hq : pixelOnDisplay c q) (h : positionKey p = positionKey q) : p = q := by
  unfold pixelOnDisplay at hp hq
  obtain ⟨hx, hy⟩ := pixelKey_inj (by omega) (by omega) h
  exact Prod.ext (by omega) (by omega)

/-! ### The end of a paint command -/

theorem Paint.orIdle_of_calls_ne_nil {p : Paint} (h : p.calls ≠ []) : p.orIdle = p := by
  rcases Paint.orIdle_cases p with ⟨rfl, _⟩ | ⟨_, e⟩
  · exact absurd rfl h
  · exact e

/-- A loop none of whose turns raises, and each of whose turns makes a call. -/
theorem Paint.forEach_orIdle_of_none {α : Type} {f : α → Paint} {xs : List α} (hne : xs ≠ [])
    (hcause : ∀ x ∈ xs, (f x).cause = none) (hcalls : ∀ x ∈ xs, (f x).calls ≠ []) :
    (Paint.forEach f xs).orIdle = { calls := xs.flatMap fun x => (f x).calls, cause := none } := by
  rw [Paint.forEach_of_none f xs hcause, Paint.orIdle_of_calls_ne_nil]
  obtain ⟨x, hx⟩ := List.exists_mem_of_ne_nil xs hne
  exact fun h => hcalls x hx (List.flatMap_eq_nil_iff.1 h x hx)

/-- A loop that raises before painting anything in its turn at `y`. -/
theorem Paint.forEach_orIdle_of_raise {α : Type} {f : α → Paint} {xs ys : List α} {y : α} {c : Cause}
    (hcause : ∀ x ∈ xs, (f x).cause = none) (hy : f y = Paint.raise c) :
    (Paint.forEach f (xs ++ y :: ys)).orIdle
      = { calls := (xs.flatMap fun x => (f x).calls) ++ [.idle], cause := some c } := by
  rw [Paint.forEach_of_some f xs ys y c hcause (hy ▸ Paint.raise_cause c), hy, Paint.orIdle_of_calls_ne_nil]
  · rfl
  · exact List.append_ne_nil_of_right_ne_nil _ (List.cons_ne_nil _ _)

theorem onlyPainted_finishPaint {p : Paint} (h : p.cause = none) (s : State) (op : Byte) :
    OnlyPainted s (s.finishPaint op p) := by
  rw [State.finishPaint_of_none s op p h]
  rfl

theorem faultedWith_finishPaint {p : Paint} {c : Cause} (h : p.cause = some c) (s : State) (op : Byte) :
    FaultedWith op c s (s.finishPaint op p) := by
  rw [State.finishPaint_of_some s op p c h]
  rfl

theorem pixel_finishPaint (s : State) (op : Byte) (p : Paint) (a b : Nat) :
    (s.finishPaint op p).pixel a b = (applyTrace s.cfg s.screen p.calls).fb.read (pixelKey a b) := by
  rw [State.pixel, State.finishPaint_screen]

/-- A command that makes its one `idle()` and nothing else (41_line_rasterizer.md R162). -/
theorem finishPaint_emit_idle (s : State) (op : Byte) :
    OnlyPainted s (s.finishPaint op (Paint.emit [.idle])) ∧
    (s.finishPaint op (Paint.emit [.idle])).trace = [.idle] ∧
    (s.finishPaint op (Paint.emit [.idle])).screen = { s.screen with bus := .idle } := ⟨rfl, rfl, rfl⟩

/-- A command that raises its fault before it paints anything (60_exceptions.md R255). -/
theorem finishPaint_raise (s : State) (op : Byte) (c : Cause) :
    FaultedWith op c s (s.finishPaint op (Paint.raise c)) ∧
    (s.finishPaint op (Paint.raise c)).trace = [.idle] ∧
    (s.finishPaint op (Paint.raise c)).screen = { s.screen with bus := .idle } := ⟨rfl, rfl, rfl⟩

/-- What a paint command's calls draw is what its state shows. -/
theorem Draws.pixel_finishPaint {s : State} {p : Paint} {picture : Nat → Pixel → Prop}
    (h : Draws s.cfg p.calls picture) (op : Byte) {a b : Nat} {v : Pixel} (hv : picture (pixelKey a b) v) :
    (s.finishPaint op p).pixel a b = some v := by
  rw [Machine.pixel_finishPaint]
  exact h.painted s.screen hv

theorem Draws.unchangedOutside_finishPaint {s : State} {p : Paint} {picture : Nat → Pixel → Prop}
    (h : Draws s.cfg p.calls picture) (op : Byte) {inside : Nat → Nat → Prop}
    (hinside : ∀ k v, picture k v → ∃ a b, inside a b ∧ k = pixelKey a b) :
    UnchangedOutside s (s.finishPaint op p) inside := by
  intro k hk
  rw [State.finishPaint_screen]
  refine h.frame s.screen fun v hv => ?_
  obtain ⟨a, b, hin, e⟩ := hinside k v hv
  exact hk a b hin e

end Sys2Proof.Machine
end

section
/-! FILL, PAIR and LINE (41_line_rasterizer.md): what each paints, when it paints nothing, and where it faults. -/

namespace Sys2Proof.Machine

/-! ### FILL -/

theorem exec_fill (x y w h : Word) (colour : Pixel) (s : State) :
    exec (.fill x y w h colour) s
      = .next (s.finishPaint 0x20 (fillPaint s.cfg x.toNat y.toNat w.toNat h.toNat colour)) := rfl

theorem fillPaint_of_empty (c : Config) (x y : Nat) {w h : Nat} (hempty : w = 0 ∨ h = 0) (colour : Pixel) :
    fillPaint c x y w h colour = Paint.emit [.idle] := if_pos hempty

/-- A FILL that is not empty is one Region, if it fits the display (41_line_rasterizer.md R150). -/
theorem fillPaint_of_nonempty (c : Config) (x y : Nat) {w h : Nat} (hw : 0 < w) (hh : 0 < h) (colour : Pixel) :
    fillPaint c x y w h colour =
      if x + w ≤ c.dispW ∧ y + h ≤ c.dispH then
        { calls := .beginRegion x y (x + w - 1) (y + h - 1) :: stream colour (w * h) ++ [.idle], cause := none }
      else Paint.raise .regionRange := by
  rw [fillPaint, if_neg (by omega), openRectangle_andThen c hw hh]
  rfl

/-- Settles O41: a Region whose words are all the colour draws its rectangle in it. -/
theorem fillPaintsItsRectangle : Obligations.FillPaintsItsRectangle := by
  intro x y w h colour s hcfg hw hh hx hy
  have hpaint := (fillPaint_of_nonempty s.cfg x.toNat y.toNat hw hh colour).trans (if_pos ⟨hx, hy⟩)
  obtain ⟨-, hwidth, -, -, -⟩ := hcfg
  have hdraws := draws_region hwidth hw hh hx hy (isData_stream colour (w.toNat * h.toNat)) (by simp)
  have hexec := exec_fill x y w h colour s
  rw [hpaint] at hexec
  obtain ⟨-, hidle⟩ := paintCommandsEndWithIdle _ s _ rfl rfl hexec
  refine ⟨_, hexec, ?_⟩
  refine ⟨onlyPainted_finishPaint rfl s _, State.finishPaint_trace .., hidle, fun a b hin => ?pixels, ?frame⟩
  case pixels =>
    obtain ⟨i, hi, rfl, rfl⟩ := exists_cursor_of_inRectangle hin
    refine Draws.pixel_finishPaint hdraws _ ⟨i, ?_, rfl⟩
    rw [dataWords_stream, List.getElem?_replicate, if_pos hi]
  case frame =>
    refine Draws.unchangedOutside_finishPaint hdraws _ fun k v ⟨i, hv, hk⟩ => ⟨_, _, inRectangle_cursor ?_, hk⟩
    simpa using (List.getElem?_eq_some_iff.1 hv).1

/-- Settles O42: the empty FILL and the one that does not fit. -/
theorem fillThatPaintsNothing : Obligations.FillThatPaintsNothing := by
  refine fun x y w h colour s => ⟨_, exec_fill x y w h colour s, fun hempty => ?empty, fun hw hh hpast => ?past⟩
  case empty =>
    rw [fillPaint_of_empty s.cfg x.toNat y.toNat hempty]
    exact finishPaint_emit_idle s 0x20
  case past =>
    rw [fillPaint_of_nonempty s.cfg _ _ (Nat.pos_of_ne_zero hw) (Nat.pos_of_ne_zero hh), if_neg (by omega)]
    exact finishPaint_raise s 0x20 .regionRange

/-- Settles O43: a FILL that does not fault fits the display, and `Stream` hands over `w * h` words. -/
theorem fillStreamsOneWordForEachPixel : Obligations.FillStreamsOneWordForEachPixel := by
  intro c x y w h colour hcause hw hh
  rw [fillPaint_of_nonempty c x y (Nat.pos_of_ne_zero hw) (Nat.pos_of_ne_zero hh)] at hcause ⊢
  split at hcause
  case isTrue hfits =>
    rw [if_pos hfits]
    exact ⟨by simp [dataWords], rfl⟩
  case isFalse => cases hcause

/-! ### PAIR -/

/-- What `dir` names (41_line_rasterizer.md R155). -/
theorem pairDirection_eq {dir : Word} (hdir : dir.toNat ≤ 3) :
    pairDirection dir.toNat = (decide (dir = 0 ∨ dir = 1), if dir = 0 ∨ dir = 2 then 1 else -1) := by
  obtain rfl | rfl | rfl | rfl : dir = 0 ∨ dir = 1 ∨ dir = 2 ∨ dir = 3 := by bv_omega
  all_goals decide

/-- PAIR fills the span of its pixel and its neighbour. -/
theorem exec_pair {dir : Word} (hdir : dir.toNat ≤ 3) (x y alpha : Word) (s : State) :
    exec (.pair x y dir alpha) s = .next (s.finishPaint 0x24
      ((pairSpan x.toNat y.toNat (pairDirection dir.toNat).1 (pairDirection dir.toNat).2).fillWith s.cfg
        (pairWords (blendpx s.fg s.bg (63 - min alpha.toNat 63)) (blendpx s.fg s.bg (min alpha.toNat 63))
          (pairDirection dir.toNat).2))) := by
  rw [exec_pair_of_inDIR (decide_eq_true hdir)]
  exact congrArg (fun p => Host.Outcome.next (s.finishPaint 0x24 p)) (paintPair_eq_fillWith ..)

theorem pairSpan_onDisplay_iff (c : Config) (X Y : Int) (steep : Bool) (smin : Int) :
    (pairSpan X Y steep smin).onDisplay c ↔ pixelOnDisplay c (X, Y) ∧ pixelOnDisplay c (neighbour X Y steep smin) := by
  unfold RingSpan.onDisplay
  rw [show (pairSpan X Y steep smin).fromD = 0 from rfl, show (pairSpan X Y steep smin).toD = 1 from rfl,
    pairSpan_pixelAt_zero, pairSpan_pixelAt_one]

/-- The calls of a pair on the display (41_line_rasterizer.md R154). -/
theorem pairSpan_fillWith_of_onDisplay {c : Config} {X Y : Int} {steep : Bool} {smin : Int}
    (hnear : pixelOnDisplay c (X, Y)) (hfar : pixelOnDisplay c (neighbour X Y steep smin)) (words : List DpaCall) :
    (pairSpan X Y steep smin).fillWith c words =
      { calls := .beginRegion (min X (neighbour X Y steep smin).1).toNat (min Y (neighbour X Y steep smin).2).toNat
          (max X (neighbour X Y steep smin).1).toNat (max Y (neighbour X Y steep smin).2).toNat :: words ++ [.idle],
        cause := none } := by
  rw [RingSpan.fillWith_eq_of_onDisplay ((pairSpan_onDisplay_iff ..).2 ⟨hnear, hfar⟩),
    show (pairSpan X Y steep smin).fromD = 0 from rfl, show (pairSpan X Y steep smin).toD = 1 from rfl,
    pairSpan_pixelAt_zero, pairSpan_pixelAt_one]

/-- The neighbour on the side `dir` names (41_line_rasterizer.md R155). -/
theorem neighbour_of_pairDirection {dir : Word} {x y nx ny : Nat}
    (hside : (dir = 0 ∧ nx = x + 1 ∧ ny = y) ∨ (dir = 1 ∧ nx + 1 = x ∧ ny = y) ∨
      (dir = 2 ∧ nx = x ∧ ny = y + 1) ∨ (dir = 3 ∧ nx = x ∧ ny + 1 = y)) :
    neighbour x y (pairDirection dir.toNat).1 (pairDirection dir.toNat).2 = ((nx : Int), (ny : Int)) := by
  rcases hside with ⟨rfl, rfl, rfl⟩ | ⟨rfl, rfl, rfl⟩ | ⟨rfl, rfl, rfl⟩ | ⟨rfl, rfl, rfl⟩ <;>
    simp [neighbour, pairDirection]

/-- The lower coordinate comes first (41_line_rasterizer.md R154). -/
theorem pairWords_of_pairDirection {dir : Word} (hdir : dir.toNat ≤ 3) (near far : Pixel) :
    pairWords near far (pairDirection dir.toNat).2
      = [.writeDataWord (if dir = 0 ∨ dir = 2 then near else far),
          .writeDataWord (if dir = 0 ∨ dir = 2 then far else near)] := by
  simp only [pairDirection_eq hdir]
  by_cases hup : dir = 0 ∨ dir = 2
  · simp only [if_pos hup]; rfl
  · simp only [if_neg hup]; rfl

/-- Settles O44: the neighbour lies on the side `dir` names, and the pair is its Region of two pixels. -/
theorem pairPaintsTwoPixels : Obligations.PairPaintsTwoPixels := by
  intro x y dir alpha s nx ny hcfg hside hx hnx hy hny near far
  have hdir : dir.toNat ≤ 3 := by
    rcases hside with ⟨rfl, _⟩ | ⟨rfl, _⟩ | ⟨rfl, _⟩ | ⟨rfl, _⟩ <;> decide
  have hneighbour := neighbour_of_pairDirection hside
  have hnear : pixelOnDisplay s.cfg ((x.toNat : Int), (y.toNat : Int)) := by unfold pixelOnDisplay; omega
  have hfar : pixelOnDisplay s.cfg
      (neighbour x.toNat y.toNat (pairDirection dir.toNat).1 (pairDirection dir.toNat).2) := by
    rw [hneighbour]; unfold pixelOnDisplay; omega
  obtain ⟨-, hwidth, -, -, -⟩ := hcfg
  have hdraws := draws_pair hwidth (pairDirection_sign dir.toNat) hnear hfar near far
  have hcalls := pairSpan_fillWith_of_onDisplay hnear hfar (pairWords near far (pairDirection dir.toNat).2)
  have hexec := exec_pair hdir x y alpha s
  rw [hneighbour] at hdraws hcalls
  obtain ⟨-, hidle⟩ := paintCommandsEndWithIdle (.pair x y dir alpha) s _ rfl (decide_eq_true hdir) hexec
  refine ⟨_, hexec, onlyPainted_finishPaint (congrArg Paint.cause hcalls) s _, ?trace, hidle,
    hdraws.pixel_finishPaint _ (.inl ⟨rfl, rfl⟩), hdraws.pixel_finishPaint _ (.inr ⟨rfl, rfl⟩),
    hdraws.unchangedOutside_finishPaint _ ?frame⟩
  case trace =>
    rw [State.finishPaint_trace, hcalls, pairWords_of_pairDirection hdir]
    simp only [← Nat.cast_min, ← Nat.cast_max, Int.toNat_natCast]
    rfl
  case frame =>
    rintro k v (⟨hk, -⟩ | ⟨hk, -⟩)
    · exact ⟨x.toNat, y.toNat, .inl ⟨rfl, rfl⟩, hk⟩
    · exact ⟨nx, ny, .inr ⟨rfl, rfl⟩, hk⟩

/-- Settles O45: the neighbour is the one `dir` names, and a Region of the two pixels is off the display. -/
theorem pairOffTheDisplayFaults : Obligations.PairOffTheDisplayFaults := by
  intro x y dir alpha s hdir hoff
  refine ⟨_, exec_pair hdir x y alpha s, ?_⟩
  rw [RingSpan.fillWith_of_not_onDisplay]
  · exact finishPaint_raise s 0x24 .regionRange
  · rw [pairSpan_onDisplay_iff, pairDirection_eq hdir]
    tauto

/-! ### LINE -/

theorem exec_line (x0 y0 dx dy minE maxE : Word) (s : State) :
    exec (.line x0 y0 dx dy minE maxE) s = .next (s.finishPaint 0x21
      (linePaint s.cfg s.fg s.bg x0.toNat y0.toNat dx.toInt dy.toInt minE.toNat maxE.toNat)) := rfl

theorem lineDir_dmaj_eq_zero_iff (dx dy : Int) : (lineDir dx dy).dmaj = 0 ↔ dx = 0 ∧ dy = 0 := by
  unfold lineDir
  split <;> simp only <;> omega

theorem toInt_eq_zero_iff (v : Word) : v.toInt = 0 ↔ v = 0 := by
  rw [← BitVec.toInt_inj]
  rfl

/-- A direction that is not the zero vector has a dominant delta (41_line_rasterizer.md R160). -/
theorem lineDir_dmaj_pos {dx dy : Word} (h : dx ≠ 0 ∨ dy ≠ 0) : 0 < (lineDir dx.toInt dy.toInt).dmaj := by
  rw [Nat.pos_iff_ne_zero, ne_eq, lineDir_dmaj_eq_zero_iff, toInt_eq_zero_iff, toInt_eq_zero_iff]
  tauto

/-- Settles O48: either the loop is not run or it has no step to paint, so `idle()` is all that is called. -/
theorem lineThatPaintsNothing : Obligations.LineThatPaintsNothing := by
  intro x0 y0 dx dy minE maxE s hnothing
  refine ⟨_, exec_line x0 y0 dx dy minE maxE s, ?_⟩
  have hpaint : linePaint s.cfg s.fg s.bg x0.toNat y0.toNat dx.toInt dy.toInt minE.toNat maxE.toNat
      = Paint.emit [.idle] := by
    by_cases hzero : (lineDir dx.toInt dy.toInt).dmaj = 0
    · simp only [linePaint]
      rw [if_neg (not_not_intro hzero)]
      rfl
    · have hcrossed : maxE.toNat + 1 - minE.toNat = 0 := by
        rw [lineDir_dmaj_eq_zero_iff, toInt_eq_zero_iff, toInt_eq_zero_iff] at hzero
        have := hnothing.resolve_left hzero
        omega
      rw [linePaint_eq_forEach (Nat.pos_of_ne_zero hzero), hcrossed]
      rfl
  rw [hpaint]
  exact finishPaint_emit_idle s 0x21

/-- The pair of step `i` as a span (41_line_rasterizer.md R154, R160). -/
def lineSpan (d : LineDir) (x0 y0 i : Nat) : RingSpan :=
  pairSpan (lineNear d x0 y0 i).1 (lineNear d x0 y0 i).2 d.steep d.smin

/-- Both pixels of step `i` lie on the display. -/
abbrev lineStepOnDisplay (c : Config) (d : LineDir) (x0 y0 i : Nat) : Prop :=
  pixelOnDisplay c (lineNear d x0 y0 i) ∧ pixelOnDisplay c (lineFar d x0 y0 i)

theorem lineSpan_onDisplay_iff (c : Config) (d : LineDir) (x0 y0 i : Nat) :
    (lineSpan d x0 y0 i).onDisplay c ↔ lineStepOnDisplay c d x0 y0 i := pairSpan_onDisplay_iff ..

/-- Step `i` of a line fills the span of its pair. -/
theorem lineStep_eq_fillWith {d : LineDir} (hpos : 0 < d.dmaj) (c : Config) (fg bg : Pixel) (x0 y0 i : Nat) :
    lineStep c fg bg d x0 y0 i = (lineSpan d x0 y0 i).fillWith c
      (pairWords (blendpx fg bg (63 - lineAlpha d i)) (blendpx fg bg (lineAlpha d i)) d.smin) := by
  have hstep : lineStep c fg bg d x0 y0 i = paintPair c fg bg (lineNear d x0 y0 i).1 (lineNear d x0 y0 i).2 d.steep
      d.smin (lineAlpha d i) := rfl
  have halpha : min (lineAlpha d i) 63 = lineAlpha d i := Nat.min_eq_left (by have := lineAlpha_le hpos i; omega)
  rw [hstep, paintPair_eq_fillWith, halpha, lineSpan]

theorem lineStep_calls_ne_nil (c : Config) (fg bg : Pixel) (d : LineDir) (x0 y0 i : Nat) :
    (lineStep c fg bg d x0 y0 i).calls ≠ [] := openRegion_andThen_calls_ne_nil _ _ _ _ _ _

theorem lineStep_cause_of_onDisplay {c : Config} {d : LineDir} (hpos : 0 < d.dmaj) {x0 y0 i : Nat}
    (hon : lineStepOnDisplay c d x0 y0 i) (fg bg : Pixel) : (lineStep c fg bg d x0 y0 i).cause = none := by
  rw [lineStep_eq_fillWith hpos, RingSpan.fillWith_eq_of_onDisplay ((lineSpan_onDisplay_iff ..).2 hon)]

theorem lineStep_of_not_onDisplay {c : Config} {d : LineDir} (hpos : 0 < d.dmaj) {x0 y0 i : Nat}
    (hoff : ¬ lineStepOnDisplay c d x0 y0 i) (fg bg : Pixel) :
    lineStep c fg bg d x0 y0 i = Paint.raise .regionRange := by
  rw [lineStep_eq_fillWith hpos, RingSpan.fillWith_of_not_onDisplay (mt (lineSpan_onDisplay_iff ..).1 hoff)]

/-- The picture of step `i`: its pixel with weight `63 - alpha`, its neighbour with weight `alpha`. -/
def lineStepPicture (fg bg : Pixel) (d : LineDir) (x0 y0 i k : Nat) (v : Pixel) : Prop :=
  (k = positionKey (lineNear d x0 y0 i) ∧ v = blendpx fg bg (63 - lineAlpha d i)) ∨
  (k = positionKey (lineFar d x0 y0 i) ∧ v = blendpx fg bg (lineAlpha d i))

theorem draws_lineStep {c : Config} (hc : c.dispW ≤ 65536) {d : LineDir} (hpos : 0 < d.dmaj)
    (hsign : d.smin = 1 ∨ d.smin = -1) {x0 y0 i : Nat} (hon : lineStepOnDisplay c d x0 y0 i) (fg bg : Pixel) :
    Draws c (lineStep c fg bg d x0 y0 i).calls (lineStepPicture fg bg d x0 y0 i) := by
  rw [lineStep_eq_fillWith hpos]
  exact draws_pair hc hsign hon.1 hon.2 _ _

/-! ### Pairs of different steps -/

/-- The coordinate on the dominant axis (41_line_rasterizer.md R160). -/
def lineMajor (d : LineDir) (p : Int × Int) : Int := if d.steep then p.2 else p.1

/-- Both pixels of step `i` stand at the dominant offset `i` (41_line_rasterizer.md R160). -/
theorem lineMajor_of_step (d : LineDir) (x0 y0 i : Nat) {p : Int × Int}
    (hp : p = lineNear d x0 y0 i ∨ p = lineFar d x0 y0 i) :
    lineMajor d p = lineMajor d (x0, y0) + d.smaj * i := by
  rcases hp with rfl | rfl <;> cases h : d.steep <;> simp [lineMajor, lineFar, lineNear, linePixel, neighbour, h]

theorem lineDir_smaj (dx dy : Int) : (lineDir dx dy).smaj = 1 ∨ (lineDir dx dy).smaj = -1 := by
  unfold lineDir
  split <;> exact stepSign_cases _

/-- Pairs of different steps share no pixel. -/
theorem lineStep_unique {d : LineDir} (hsign : d.smaj = 1 ∨ d.smaj = -1) {x0 y0 i j : Nat} {p : Int × Int}
    (hi : p = lineNear d x0 y0 i ∨ p = lineFar d x0 y0 i) (hj : p = lineNear d x0 y0 j ∨ p = lineFar d x0 y0 j) :
    i = j := by
  have hmajor := (lineMajor_of_step d x0 y0 i hi).symm.trans (lineMajor_of_step d x0 y0 j hj)
  rcases hsign with h | h <;> rw [h] at hmajor <;> omega

/-- The two pixels of a pair are different (41_line_rasterizer.md R154). -/
theorem lineNear_ne_lineFar {d : LineDir} (hsign : d.smin = 1 ∨ d.smin = -1) (x0 y0 i : Nat) :
    lineNear d x0 y0 i ≠ lineFar d x0 y0 i := by
  intro h
  rw [lineFar, neighbour, Prod.ext_iff] at h
  split at h <;> simp only [left_eq_add] at h <;> omega

/-- Pictures of steps on the display do not disagree. -/
theorem lineStepPicture_agree {c : Config} (hc : c.dispW ≤ 65536) {d : LineDir} (hmin : d.smin = 1 ∨ d.smin = -1)
    (hmaj : d.smaj = 1 ∨ d.smaj = -1) {x0 y0 i j : Nat} (hi : lineStepOnDisplay c d x0 y0 i)
    (hj : lineStepOnDisplay c d x0 y0 j) {fg bg : Pixel} {k : Nat} {v w : Pixel}
    (hv : lineStepPicture fg bg d x0 y0 i k v) (hw : lineStepPicture fg bg d x0 y0 j k w) : v = w := by
  obtain ⟨hin, hif⟩ := hi
  obtain ⟨hjn, hjf⟩ := hj
  have hne := lineNear_ne_lineFar hmin x0 y0 i
  rcases hv with ⟨rfl, rfl⟩ | ⟨rfl, rfl⟩ <;> rcases hw with ⟨hk, rfl⟩ | ⟨hk, rfl⟩
  · have e := positionKey_inj hc hin hjn hk
    rw [lineStep_unique hmaj (.inl rfl) (.inl e)]
  · have e := positionKey_inj hc hin hjf hk
    obtain rfl := lineStep_unique hmaj (.inl rfl) (.inr e)
    exact absurd e hne
  · have e := positionKey_inj hc hif hjn hk
    obtain rfl := lineStep_unique hmaj (.inr rfl) (.inl e)
    exact absurd e.symm hne
  · have e := positionKey_inj hc hif hjf hk
    rw [lineStep_unique hmaj (.inr rfl) (.inr e)]

/-! ### The whole line -/

/-- Settles O47: the steps are painted in order, and no step paints over another. -/
theorem linePaintsItsPairs : Obligations.LinePaintsItsPairs := by
  intro x0 y0 dx dy minE maxE s hcfg d hdir hle hon
  have hpos : 0 < d.dmaj := lineDir_dmaj_pos hdir
  have hmin : d.smin = 1 ∨ d.smin = -1 := lineDir_smin _ _
  have hmaj : d.smaj = 1 ∨ d.smaj = -1 := lineDir_smaj _ _
  obtain ⟨-, hwidth, -, -, -⟩ := hcfg
  have hmem (i : Nat) :
      i ∈ List.range' minE.toNat (maxE.toNat + 1 - minE.toNat) ↔ minE.toNat ≤ i ∧ i ≤ maxE.toNat := by
    rw [List.mem_range'_1]; omega
  have hsteps (i : Nat) (hi : i ∈ List.range' minE.toNat (maxE.toNat + 1 - minE.toNat)) :
      lineStepOnDisplay s.cfg d x0.toNat y0.toNat i := hon i ((hmem i).1 hi).1 ((hmem i).1 hi).2
  have hpaint := (linePaint_eq_forEach hpos s.cfg s.fg s.bg x0.toNat y0.toNat minE.toNat maxE.toNat).trans
    (Paint.forEach_orIdle_of_none (List.ne_nil_of_mem ((hmem minE.toNat).2 ⟨le_rfl, hle⟩))
      (fun i hi => lineStep_cause_of_onDisplay hpos (hsteps i hi) s.fg s.bg)
      fun i _ => lineStep_calls_ne_nil _ _ _ _ _ _ i)
  have hexec := exec_line x0 y0 dx dy minE maxE s
  rw [hpaint] at hexec
  obtain ⟨-, hidle⟩ := paintCommandsEndWithIdle _ s _ rfl rfl hexec
  have hdraws := draws_flatMap _ (fun i hi => draws_lineStep hwidth hpos hmin (hsteps i hi) s.fg s.bg)
    fun i hi j hj k v w => lineStepPicture_agree hwidth hmin hmaj (hsteps i hi) (hsteps j hj)
  refine ⟨_, hexec, onlyPainted_finishPaint rfl s _, State.finishPaint_trace .., hidle, fun i hlo hhi => ?pixels,
    ?frame⟩
  case pixels =>
    have hi := (hmem i).2 ⟨hlo, hhi⟩
    exact ⟨Draws.pixel_finishPaint hdraws _ ⟨i, hi, .inl ⟨rfl, rfl⟩⟩,
      Draws.pixel_finishPaint hdraws _ ⟨i, hi, .inr ⟨rfl, rfl⟩⟩⟩
  case frame =>
    refine Draws.unchangedOutside_finishPaint hdraws _ fun k v hk => ?_
    obtain ⟨i, hi, hv⟩ := hk
    obtain ⟨hlo, hhi⟩ := (hmem i).1 hi
    have hposition {p : Int × Int} (hp : pixelOnDisplay s.cfg p) : ((p.1.toNat : Int), (p.2.toNat : Int)) = p := by
      unfold pixelOnDisplay at hp
      exact Prod.ext (by simp only; omega) (by simp only; omega)
    rcases hv with ⟨rfl, -⟩ | ⟨rfl, -⟩
    · exact ⟨_, _, ⟨i, hlo, hhi, .inl (hposition (hsteps i hi).1)⟩, rfl⟩
    · exact ⟨_, _, ⟨i, hlo, hhi, .inr (hposition (hsteps i hi).2)⟩, rfl⟩

/-- Settles O49: the loop stops at the first step whose Region is off the display. -/
theorem lineKeepsThePairsBeforeItsFault : Obligations.LineKeepsThePairsBeforeItsFault := by
  intro x0 y0 dx dy minE maxE s j d hdir hlo hhi hon hoff
  have hpos : 0 < d.dmaj := lineDir_dmaj_pos hdir
  have hsplit : List.range' minE.toNat (maxE.toNat + 1 - minE.toNat)
      = List.range' minE.toNat (j - minE.toNat) ++ j :: List.range' (j + 1) (maxE.toNat - j) := by
    rw [← List.range'_succ, show maxE.toNat + 1 - minE.toNat = (j - minE.toNat) + (maxE.toNat - j + 1) by omega,
      ← List.range'_append_1, Nat.add_sub_of_le hlo]
  have hsteps (i : Nat) (hi : i ∈ List.range' minE.toNat (j - minE.toNat)) :
      lineStepOnDisplay s.cfg d x0.toNat y0.toNat i := by
    rw [List.mem_range'_1] at hi
    exact hon i hi.1 (by omega)
  have hpaint := linePaint_eq_forEach hpos s.cfg s.fg s.bg x0.toNat y0.toNat minE.toNat maxE.toNat
  rw [hsplit, Paint.forEach_orIdle_of_raise (fun i hi => lineStep_cause_of_onDisplay hpos (hsteps i hi) s.fg s.bg)
    (lineStep_of_not_onDisplay hpos hoff s.fg s.bg)] at hpaint
  have hexec := exec_line x0 y0 dx dy minE maxE s
  rw [hpaint] at hexec
  obtain ⟨-, hidle⟩ := paintCommandsEndWithIdle _ s _ rfl rfl hexec
  exact ⟨_, hexec, faultedWith_finishPaint rfl s _, State.finishPaint_trace .., State.finishPaint_screen .., hidle⟩

end Sys2Proof.Machine
end

section
/-! The trackers of RING (42_ring_rasterizer.md section 2): the midpoint-circle recurrence against its closed forms, and
the luminances they give. -/

namespace Sys2Proof.Machine

/-! ### Closed forms -/

theorem ringX_le {r : Nat} (hr : r ≤ 65535) (y : Nat) : ringX r y ≤ r := by
  rw [ringX_eq_sqrt hr]
  exact (Nat.sqrt_le_sqrt (Nat.sub_le _ _)).trans (Nat.sqrt_eq r).le

@[simp] theorem ringX_row_zero {r : Nat} (hr : r ≤ 65535) : ringX r 0 = r := by
  rw [ringX_eq_sqrt hr]
  exact Nat.sqrt_eq r

/-- A circle narrows from row to row. -/
theorem ringX_antitone {r : Nat} (hr : r ≤ 65535) {y y' : Nat} (h : y ≤ y') : ringX r y' ≤ ringX r y := by
  rw [ringX_eq_sqrt hr, ringX_eq_sqrt hr]
  exact Nat.sqrt_le_sqrt (Nat.sub_le_sub_left (Nat.mul_self_le_mul_self h) _)

/-- The decision variable is what the square root leaves (42_ring_rasterizer.md R181). -/
theorem ringE_le {r : Nat} (hr : r ≤ 65535) (y : Nat) : ringE r y ≤ 2 * ringX r y := by
  have h := Nat.sqrt_le_add (r * r - y * y)
  rw [ringE, ringX_eq_sqrt hr]
  omega

theorem ringLum_le {r : Nat} (hr : r ≤ 65535) (y : Nat) : ringLum r y ≤ 62 := by
  have h := ringE_le hr y
  exact Nat.le_of_lt_succ (Nat.div_lt_of_lt_mul (by omega))

theorem ringLum_row_zero {r : Nat} (hr : r ≤ 65535) : ringLum r 0 = 0 := by
  simp [ringLum, ringE, ringX_row_zero hr]

/-! ### The recurrence -/

/-- The tracker of radius `r` stands at row `y`: `e` has its meaning, and `X` is the last position on the circle or
inside it (42_ring_rasterizer.md R181). -/
structure Tracker.At (r y : Nat) (t : Tracker) : Prop where
  /-- The meaning of `e`. -/
  error : t.e = (t.x : Int) * t.x + (y : Int) * y - (r : Int) * r
  /-- `X` is on the circle or inside it. -/
  inside : t.e ≤ 0
  /-- `X + 1` is outside. -/
  outside : 0 < t.e + 2 * t.x + 1

/-- The position the tracker must have is the closed form, by the uniqueness of the square root. -/
theorem Tracker.At.closedForm {r y : Nat} {t : Tracker} (h : t.At r y) (hr : r ≤ 65535) (hy : y ≤ r) :
    t.x = ringX r y ∧ t.e = -(ringE r y : Int) := by
  obtain ⟨herror, hinside, houtside⟩ := h
  have hsquare : y * y ≤ r * r := Nat.mul_self_le_mul_self hy
  have hdiff : ((r * r - y * y : Nat) : Int) = (r : Int) * r - (y : Int) * y := by
    rw [Nat.cast_sub hsquare, Nat.cast_mul, Nat.cast_mul]
  have hlo : ((t.x * t.x : Nat) : Int) ≤ ((r * r - y * y : Nat) : Int) := by
    rw [hdiff, Nat.cast_mul]; linarith
  have hhi : ((r * r - y * y : Nat) : Int) < (((t.x + 1) * (t.x + 1) : Nat) : Int) := by
    rw [hdiff]; push_cast; linarith
  have hx : t.x = ringX r y := by
    rw [ringX_eq_sqrt hr]
    exact Nat.eq_sqrt.2 ⟨by exact_mod_cast hlo, by exact_mod_cast hhi⟩
  refine ⟨hx, ?_⟩
  have hle : t.x * t.x ≤ r * r - y * y := by exact_mod_cast hlo
  rw [ringE, ← hx, Nat.cast_sub hle, hdiff, Nat.cast_mul, herror]
  ring

theorem trackerStart_at (r : Nat) : (trackerStart r).At r 0 :=
  ⟨by simp [trackerStart], le_rfl, by simp only [trackerStart]; omega⟩

/-- What the inner loop does: it keeps `e - X * X`, and it stops at the first position with `e <= 0`, or at 0. -/
theorem trackerSettle_spec (X : Nat) (e : Int) :
    (trackerSettle X e).e - ((trackerSettle X e).x : Int) * (trackerSettle X e).x = e - (X : Int) * X ∧
    ((trackerSettle X e).e ≤ 0 ∨ (trackerSettle X e).x = 0) ∧
    (trackerSettle X e = { x := X, e := e } ∨ 0 < (trackerSettle X e).e + 2 * (trackerSettle X e).x + 1) := by
  induction X generalizing e with
  | zero => exact ⟨rfl, .inr rfl, .inl rfl⟩
  | succ X ih =>
    rw [trackerSettle]
    split
    case isFalse h => exact ⟨rfl, .inl (Int.not_lt.1 h), .inl rfl⟩
    case isTrue h =>
      obtain ⟨hkeep, hstop, hlast⟩ := ih (e - (2 * (X + 1 : Nat) - 1))
      refine ⟨?_, hstop, .inr ?_⟩
      · rw [hkeep]; push_cast; ring
      · rcases hlast with hlast | hlast
        · rw [hlast]; simp only; push_cast; omega
        · exact hlast

/-- One row further: the position cannot grow, and the inner loop settles it. -/
theorem trackerAdvance_at {r y : Nat} {t : Tracker} (h : t.At r y) (hy : y + 1 ≤ r) :
    (trackerAdvance y t).At r (y + 1) := by
  obtain ⟨herror, hinside, houtside⟩ := h
  obtain ⟨hkeep, hstop, hlast⟩ := trackerSettle_spec t.x (t.e + 2 * y + 1)
  have herror' : (trackerAdvance y t).e = ((trackerAdvance y t).x : Int) * (trackerAdvance y t).x
      + ((y + 1 : Nat) : Int) * (y + 1 : Nat) - (r : Int) * r := by
    unfold trackerAdvance
    push_cast
    linarith
  refine ⟨herror', ?inside, ?outside⟩
  case inside =>
    rcases hstop with hstop | hzero
    · exact hstop
    · have hrow : ((y + 1 : Nat) : Int) * (y + 1 : Nat) ≤ (r : Int) * r := by
        exact_mod_cast Nat.mul_self_le_mul_self hy
      rw [herror', trackerAdvance, hzero]
      push_cast at hrow ⊢
      linarith
  case outside =>
    rcases hlast with hsame | hlast
    · rw [trackerAdvance, hsame]
      simp only
      omega
    · exact hlast

theorem trackerAt_at {r y : Nat} (hy : y ≤ r) : (trackerAt r y).At r y := by
  induction y with
  | zero => exact trackerStart_at r
  | succ y ih => exact trackerAdvance_at (ih (by omega)) hy

/-- Settles O50: the recurrence keeps `e` and the position on the circle, which determine both. -/
theorem trackerMatchesItsClosedForm : Obligations.TrackerMatchesItsClosedForm := by
  intro r y hr hy
  obtain ⟨hx, he⟩ := (trackerAt_at hy).closedForm hr hy
  exact ⟨ringX_eq_sqrt hr y, ringX_le hr y, ringE_le hr y, ringLum_le hr y, hx, he⟩

/-! ### Luminances and rows -/

theorem ringL_le {ro : Nat} (hro : ro ≤ 65535) (ri x y : Nat) : ringL ri ro x y ≤ 63 := by
  have hlum := ringLum_le hro y
  refine (Nat.sub_le _ _).trans ?_
  unfold discLum
  split
  · exact le_rfl
  · split <;> omega

/-- Beyond the hole and its edge, and inside the disc, a pixel is full (42_ring_rasterizer.md R182). -/
theorem ringL_eq_full {ri ro x y : Nat} (hdisc : x ≤ ringX ro y) (hhole : y ≤ ri → ringX ri y + 1 < x) :
    ringL ri ro x y = 63 := by
  have hhole' : holeLum ri x y = 0 := by
    unfold holeLum
    split
    case isTrue => rfl
    case isFalse h => rw [if_neg (by omega), if_neg (by omega)]
  rw [ringL, hhole', discLum, if_pos hdisc]

theorem rowFirst_row_zero {ri : Nat} (hri : ri ≤ 65535) : rowFirst ri 0 = ri + 1 := by
  simp [rowFirst, ringX_row_zero hri]

theorem rowLast_row_zero {ro : Nat} (hro : ro ≤ 65535) : rowLast ro 0 = ro + 1 := by
  rw [rowLast, ringX_row_zero hro]

theorem row_le_rowFirst (ri y : Nat) : y ≤ rowFirst ri y := by
  unfold rowFirst
  split <;> omega

/-- Within the hole's rows a row begins beyond the hole (42_ring_rasterizer.md R180). -/
theorem ringX_lt_rowFirst {ri y : Nat} (h : y ≤ ri) : ringX ri y < rowFirst ri y := by
  rw [rowFirst, if_pos h]
  omega

/-- Settles O56: the axes are row 0, whose trackers stand at the radii; a row begins beyond the hole. -/
theorem ringThicknessOnTheAxes : Obligations.RingThicknessOnTheAxes := by
  intro ri ro hle hro
  have hri : ri ≤ 65535 := hle.trans hro
  have hhole (x y : Nat) (hy : y ≤ ri) (hx : x ≤ ringX ri y) : ¬ ringCovers ri ro x y := fun hcovers =>
    absurd (hx.trans_lt (ringX_lt_rowFirst hy)) (Nat.not_lt.2 hcovers.2.1)
  refine ⟨fun x hlo hhi => ?full, ?edge, rowFirst_row_zero hri, rowLast_row_zero hro, hhole 0 0 (Nat.zero_le _)
    (Nat.zero_le _), hhole, ringL_le hro ri⟩
  case full =>
    have hholeLum : holeLum ri x 0 = 0 := by
      rw [holeLum, ringX_row_zero hri, ringLum_row_zero hri, if_neg (by omega), if_neg (by omega), ite_self]
    rw [ringL, hholeLum, discLum, ringX_row_zero hro, if_pos hhi]
  case edge =>
    rw [ringL, discLum, ringX_row_zero hro, ringLum_row_zero hro, if_neg (by omega), if_pos rfl, Nat.zero_sub]

/-- Inside a row every pixel but its ends is full, so it has the foreground colour (42_ring_rasterizer.md R185). -/
theorem ringColour_middle {ri ro y a : Nat} (ha : rowFirst ri y ≤ a) (fg bg : Pixel) {x : Nat} (hlo : a < x)
    (hhi : x < rowLast ro y) : ringColour fg bg ri ro y x = fg := by
  have hfull : ringL ri ro x y = 63 := by
    refine ringL_eq_full (Nat.le_of_lt_succ hhi) fun hy => ?_
    have := ringX_lt_rowFirst hy
    omega
  rw [ringColour, hfull, blendpx_full fg bg le_rfl]

/-- Settles O52: RING's spans begin no nearer than their row, so their middle pixels are all `FG`. -/
theorem spanWordsAreThePixelColours : Obligations.SpanWordsAreThePixelColours := by
  rintro fg bg ri ro y a b - - - ha - hab rfl
  have hmiddle (x : Nat) (hlo : a < x) (hhi : x < rowLast ro y) : ringColour fg bg ri ro y x = fg :=
    ringColour_middle ha fg bg hlo hhi
  exact ⟨dataWords_spanWords hab hmiddle 1, dataWords_spanWords hab hmiddle (-1), hmiddle⟩

end Sys2Proof.Machine
end

section
/-! RING's spans (42_ring_rasterizer.md sections 1, 4, 5 and 6): which rows they come from, the pixels they cover, and
what RING paints when they lie on the display, when they do not, and when there are none. -/

namespace Sys2Proof.Machine

theorem exec_ring (cx cy ri ro : Word) (s : State) :
    exec (.ring cx cy ri ro) s = .next (s.finishPaint 0x22
      (Paint.forEach (RingSpan.paint s.cfg s.fg s.bg ri.toNat ro.toNat)
        (ringSpans cx.toNat cy.toNat ri.toNat ro.toNat)).orIdle) := by
  rw [← ringPaint_eq_spans]
  rfl

theorem word_toNat_le (v : Word) : v.toNat ≤ 65535 := Nat.le_of_lt_succ v.isLt

/-! ### The rows of the loop -/

/-- A loop whose condition, once false, stays false runs over the values at which it holds. -/
theorem mem_takeWhile_range' {p : Nat → Bool} (hdown : ∀ x y, x ≤ y → p y = true → p x = true) (a k y : Nat) :
    y ∈ (List.range' a k).takeWhile p ↔ (a ≤ y ∧ y < a + k) ∧ p y = true := by
  induction k generalizing a with
  | zero => simp
  | succ k ih =>
    rw [List.range'_succ, List.takeWhile_cons]
    cases hp : p a with
    | true =>
      simp only [if_true, List.mem_cons, ih]
      constructor
      · rintro (rfl | ⟨⟨hlo, hhi⟩, hy⟩)
        · exact ⟨by omega, hp⟩
        · exact ⟨by omega, hy⟩
      · rintro ⟨⟨hlo, hhi⟩, hy⟩
        rcases hlo.eq_or_lt with rfl | hlt
        · exact .inl rfl
        · exact .inr ⟨by omega, hy⟩
    | false =>
      simp only [Bool.false_eq_true, if_false, List.not_mem_nil, false_iff, not_and, and_imp]
      intro hlo _ hy
      exact absurd (hdown a y hlo hy) (by simp [hp])

/-- The rows the loop reaches have no gap. -/
theorem rowInLoop_of_le {ro y y' : Nat} (hro : ro ≤ 65535) (h : y ≤ y') (hy' : rowInLoop ro y') : rowInLoop ro y :=
  ⟨h.trans hy'.1, (h.trans hy'.2).trans (Nat.succ_le_succ (ringX_antitone hro h))⟩

theorem rowInLoop_zero (ro : Nat) : rowInLoop ro 0 := ⟨Nat.zero_le _, Nat.zero_le _⟩

/-- RING's spans are those of the rows its loop reaches (42_ring_rasterizer.md R180). -/
theorem mem_ringSpans {cx cy ri ro : Nat} (hro : ro ≤ 65535) {sp : RingSpan} :
    sp ∈ ringSpans cx cy ri ro ↔ ∃ y, rowInLoop ro y ∧ sp ∈ ringRowSpans cx cy ri ro y := by
  have hrows (y : Nat) : y ∈ (List.range (ro + 1)).takeWhile (fun y => decide (rowInLoop ro y)) ↔ rowInLoop ro y := by
    rw [List.range_eq_range', mem_takeWhile_range' fun x y hxy hy => decide_eq_true
      (rowInLoop_of_le hro hxy (of_decide_eq_true hy)), decide_eq_true_eq]
    exact ⟨fun h => h.2, fun h => ⟨⟨Nat.zero_le _, by have := h.1; omega⟩, h⟩⟩
  simp only [ringSpans, List.mem_flatMap, hrows]

/-! ### The pixels of a span -/

/-- The key of the pixel at an offset from the centre. -/
def ringKey (cx cy : Nat) (u v : Int) : Nat := positionKey ((cx : Int) + u, (cy : Int) + v)

/-- A signed coordinate is its sign times its size. -/
theorem stepSign_mul_natAbs (n : Int) : stepSign n * (n.natAbs : Int) = n := by
  unfold stepSign
  split <;> omega

theorem natAbs_mul_side {side : Int} (h : side = 1 ∨ side = -1) (n : Nat) : (side * (n : Int)).natAbs = n := by
  rcases h with rfl | rfl <;> simp

theorem mirrorSigns_cases {y : Nat} {mirror : Int} (h : mirror ∈ mirrorSigns y) : mirror = 1 ∨ mirror = -1 := by
  unfold mirrorSigns at h
  split at h
  · exact .inl (List.mem_singleton.1 h)
  · simpa using h

/-- Row 0 has no mirror image, and the sign of 0 is 1 (42_ring_rasterizer.md R180). -/
theorem stepSign_mem_mirrorSigns (n : Int) : stepSign n ∈ mirrorSigns n.natAbs := by
  rcases eq_or_ne n 0 with rfl | hne
  · decide
  · rw [mirrorSigns, if_neg (Int.natAbs_ne_zero.2 hne)]
    simpa using stepSign_cases n

/-- The vertical spans of a row leave its diagonal pixel to the horizontal ones (42_ring_rasterizer.md R180). -/
theorem row_lt_rowFirstVertical (ri y : Nat) : y < rowFirstVertical ri y := by
  have h := row_le_rowFirst ri y
  unfold rowFirstVertical
  split <;> omega

theorem rowFirstVertical_le {ri y d : Nat} (hfirst : rowFirst ri y ≤ d) (hlt : y < d) : rowFirstVertical ri y ≤ d := by
  unfold rowFirstVertical
  split <;> omega

/-- A pixel of a span of row `y` at distance `d` is at an offset whose lesser size is `y` and whose greater is `d`
(42_ring_rasterizer.md R180, R187). -/
theorem exists_offset_of_span {cx cy ri ro y d : Nat} {sp : RingSpan} (hsp : sp ∈ ringRowSpans cx cy ri ro y)
    (hlo : sp.fromD ≤ d) (hhi : d ≤ sp.toD) :
    ∃ u v : Int, sp.pixelAt d = ((cx : Int) + u, (cy : Int) + v) ∧ max u.natAbs v.natAbs = d ∧
      min u.natAbs v.natAbs = y ∧ rowFirst ri y ≤ d ∧ d ≤ rowLast ro y := by
  rcases mem_ringRowSpans.1 hsp with h | h
  · obtain ⟨-, mirror, hmirror, side, hside, rfl⟩ := mem_ringSideSpans.1 h
    have hyd : y ≤ d := (row_le_rowFirst ri y).trans hlo
    refine ⟨side * d, mirror * y, rfl, ?_, ?_, hlo, hhi⟩ <;>
      rw [natAbs_mul_side hside, natAbs_mul_side (mirrorSigns_cases hmirror)] <;> omega
  · obtain ⟨-, mirror, hmirror, side, hside, rfl⟩ := mem_ringSideSpans.1 h
    have hyd : y < d := (row_lt_rowFirstVertical ri y).trans_le hlo
    refine ⟨mirror * y, side * d, rfl, ?_, ?_, (rowFirst_le_rowFirstVertical ri y).trans hlo, hhi⟩ <;>
      rw [natAbs_mul_side hside, natAbs_mul_side (mirrorSigns_cases hmirror)] <;> omega

/-- Every offset whose greater size lies in the row of its lesser one is a pixel of a span of that row. -/
theorem exists_span_of_offset (cx cy : Nat) {ri ro : Nat} {u v : Int}
    (hlo : rowFirst ri (min u.natAbs v.natAbs) ≤ max u.natAbs v.natAbs)
    (hhi : max u.natAbs v.natAbs ≤ rowLast ro (min u.natAbs v.natAbs)) :
    ∃ sp ∈ ringRowSpans cx cy ri ro (min u.natAbs v.natAbs),
      sp.fromD ≤ max u.natAbs v.natAbs ∧ max u.natAbs v.natAbs ≤ sp.toD ∧
      sp.pixelAt (max u.natAbs v.natAbs) = ((cx : Int) + u, (cy : Int) + v) := by
  rcases Nat.lt_or_ge u.natAbs v.natAbs with hlt | hge
  · rw [min_eq_left hlt.le, max_eq_right hlt.le] at *
    have hfirst := rowFirstVertical_le hlo hlt
    refine ⟨_, mem_ringRowSpans.2 (.inr (mem_ringSideSpans.2 ⟨hfirst.trans hhi, stepSign u,
      stepSign_mem_mirrorSigns u, stepSign v, stepSign_cases v, rfl⟩)), hfirst, hhi, ?_⟩
    rw [RingSpan.pixelAt, if_neg Bool.false_ne_true, stepSign_mul_natAbs, stepSign_mul_natAbs]
  · rw [min_eq_right hge, max_eq_left hge] at *
    refine ⟨_, mem_ringRowSpans.2 (.inl (mem_ringSideSpans.2 ⟨hlo.trans hhi, stepSign v,
      stepSign_mem_mirrorSigns v, stepSign u, stepSign_cases u, rfl⟩)), hlo, hhi, ?_⟩
    rw [RingSpan.pixelAt, if_pos rfl, stepSign_mul_natAbs, stepSign_mul_natAbs]

theorem ringRowSpans_row {cx cy ri ro y : Nat} {sp : RingSpan} (h : sp ∈ ringRowSpans cx cy ri ro y) : sp.row = y := by
  rcases mem_ringRowSpans.1 h with h | h <;>
  · obtain ⟨-, _, _, _, _, rfl⟩ := mem_ringSideSpans.1 h
    rfl

theorem ringRowSpans_ends {cx cy ri ro y : Nat} {sp : RingSpan} (h : sp ∈ ringRowSpans cx cy ri ro y) :
    rowFirst ri y ≤ sp.fromD ∧ sp.toD = rowLast ro y := by
  rcases mem_ringRowSpans.1 h with h | h
  · obtain ⟨-, _, _, _, _, rfl⟩ := mem_ringSideSpans.1 h
    exact ⟨le_rfl, rfl⟩
  · obtain ⟨-, _, _, _, _, rfl⟩ := mem_ringSideSpans.1 h
    exact ⟨rowFirst_le_rowFirstVertical ri y, rfl⟩

/-! ### A ring on the display -/

/-- The ring lies on the display with its margin of one pixel (42_ring_rasterizer.md R184). -/
structure RingOnDisplay (c : Config) (cx cy ro : Nat) : Prop where
  /-- To the left. -/
  left : ro + 1 ≤ cx
  /-- To the right. -/
  right : cx + ro + 1 < c.dispW
  /-- Upwards. -/
  up : ro + 1 ≤ cy
  /-- Downwards. -/
  down : cy + ro + 1 < c.dispH

theorem pixelOnDisplay_of_offset {c : Config} {cx cy ro : Nat} (h : RingOnDisplay c cx cy ro) {u v : Int}
    (hmax : max u.natAbs v.natAbs ≤ ro + 1) : pixelOnDisplay c ((cx : Int) + u, (cy : Int) + v) := by
  obtain ⟨hleft, hright, hup, hdown⟩ := h
  unfold pixelOnDisplay
  omega

theorem rowLast_le {ro : Nat} (hro : ro ≤ 65535) (y : Nat) : rowLast ro y ≤ ro + 1 :=
  Nat.succ_le_succ (ringX_le hro y)

theorem ringSpan_onDisplay {c : Config} {cx cy ri ro y : Nat} (hro : ro ≤ 65535) (h : RingOnDisplay c cx cy ro)
    {sp : RingSpan} (hsp : sp ∈ ringRowSpans cx cy ri ro y) : sp.onDisplay c := by
  have hpixel {d : Nat} (hlo : sp.fromD ≤ d) (hhi : d ≤ sp.toD) : pixelOnDisplay c (sp.pixelAt d) := by
    obtain ⟨u, v, hat, hmax, -, -, hlast⟩ := exists_offset_of_span hsp hlo hhi
    rw [hat]
    exact pixelOnDisplay_of_offset h ((hmax.trans_le hlast).trans (rowLast_le hro y))
  have hordered := (ringRowSpans_wf hsp).ordered
  exact ⟨hpixel le_rfl hordered, hpixel hordered le_rfl⟩

/-- The picture of a ring: at each covered offset the blend of its luminance (42_ring_rasterizer.md R187). -/
def ringPicture (fg bg : Pixel) (cx cy ri ro k : Nat) (w : Pixel) : Prop :=
  ∃ u v : Int, ringCovers ri ro (max u.natAbs v.natAbs) (min u.natAbs v.natAbs) ∧ k = ringKey cx cy u v ∧
    w = blendpx fg bg (ringL ri ro (max u.natAbs v.natAbs) (min u.natAbs v.natAbs))

/-- The ring's picture has one colour at a key. -/
theorem ringPicture_agree {c : Config} (hc : c.dispW ≤ 65536) {cx cy ri ro : Nat} (hro : ro ≤ 65535)
    (h : RingOnDisplay c cx cy ro) {fg bg : Pixel} {k : Nat} {w w' : Pixel}
    (hw : ringPicture fg bg cx cy ri ro k w) (hw' : ringPicture fg bg cx cy ri ro k w') : w = w' := by
  obtain ⟨u, v, ⟨-, -, hlast⟩, rfl, rfl⟩ := hw
  obtain ⟨u', v', ⟨-, -, hlast'⟩, hk, rfl⟩ := hw'
  have e := positionKey_inj hc (pixelOnDisplay_of_offset h (hlast.trans (rowLast_le hro _)))
    (pixelOnDisplay_of_offset h (hlast'.trans (rowLast_le hro _))) hk
  rw [Prod.mk.injEq, add_right_inj, add_right_inj] at e
  rw [e.1, e.2]

/-- What a span of the ring draws. -/
def ringSpanPicture (fg bg : Pixel) (ri ro : Nat) (sp : RingSpan) (k : Nat) (w : Pixel) : Prop :=
  ∃ dist, sp.fromD ≤ dist ∧ dist ≤ sp.toD ∧ k = positionKey (sp.pixelAt dist) ∧
    w = ringColour fg bg ri ro sp.row dist

theorem draws_ringSpan {c : Config} (hc : c.dispW ≤ 65536) {cx cy ri ro y : Nat} (hro : ro ≤ 65535)
    (h : RingOnDisplay c cx cy ro) {sp : RingSpan} (hsp : sp ∈ ringRowSpans cx cy ri ro y) (fg bg : Pixel) :
    Draws c (sp.paint c fg bg ri ro).calls (ringSpanPicture fg bg ri ro sp) := by
  have hwf := ringRowSpans_wf hsp
  obtain ⟨hfirst, hlast⟩ := ringRowSpans_ends hsp
  rw [RingSpan.paint_eq_fillWith]
  refine draws_span hc hwf (ringSpan_onDisplay hro h hsp) (isData_spanWords _ _ _ _) ?_
  refine dataWords_spanWords hwf.ordered (mid := fg) (fun x hlo hhi => ?_) sp.sign
  rw [ringRowSpans_row hsp]
  exact ringColour_middle hfirst fg bg hlo (hlast ▸ hhi)

/-- The spans together draw the ring's picture. -/
theorem exists_ringSpanPicture_iff {cx cy ri ro : Nat} (hro : ro ≤ 65535) (fg bg : Pixel) (k : Nat) (w : Pixel) :
    (∃ sp ∈ ringSpans cx cy ri ro, ringSpanPicture fg bg ri ro sp k w) ↔ ringPicture fg bg cx cy ri ro k w := by
  constructor
  · rintro ⟨sp, hsp, dist, hlo, hhi, rfl, rfl⟩
    obtain ⟨y, hloop, hrow⟩ := (mem_ringSpans hro).1 hsp
    obtain ⟨u, v, hat, hmax, hmin, hfirst, hlast⟩ := exists_offset_of_span hrow hlo hhi
    refine ⟨u, v, ?_, by rw [hat, ringKey], ?_⟩ <;> rw [hmax, hmin]
    · exact ⟨hloop, hfirst, hlast⟩
    · rw [ringRowSpans_row hrow, ringColour]
  · rintro ⟨u, v, ⟨hloop, hfirst, hlast⟩, rfl, rfl⟩
    obtain ⟨sp, hrow, hlo, hhi, hat⟩ := exists_span_of_offset cx cy hfirst hlast
    exact ⟨sp, (mem_ringSpans hro).2 ⟨_, hloop, hrow⟩, _, hlo, hhi, by rw [hat, ringKey],
      by rw [ringRowSpans_row hrow, ringColour]⟩

/-! ### The spans of row 0 -/

/-- Row 0 of a ring that is not empty has a span to each side: right, left, down and up (42_ring_rasterizer.md R180). -/
theorem ringRowSpans_zero (cx cy : Nat) {ri ro : Nat} (hle : ri ≤ ro) (hro : ro ≤ 65535) :
    ringRowSpans cx cy ri ro 0 =
      [ { horizontal := true, fixed := cy, centre := cx, sign := 1, fromD := ri + 1, toD := ro + 1, row := 0 },
        { horizontal := true, fixed := cy, centre := cx, sign := -1, fromD := ri + 1, toD := ro + 1, row := 0 },
        { horizontal := false, fixed := cx, centre := cy, sign := 1, fromD := ri + 1, toD := ro + 1, row := 0 },
        { horizontal := false, fixed := cx, centre := cy, sign := -1, fromD := ri + 1, toD := ro + 1, row := 0 } ] := by
  have hvertical : rowFirstVertical ri 0 = ri + 1 := by
    rw [rowFirstVertical, rowFirst_row_zero (hle.trans hro), if_neg (by omega)]
  simp [ringRowSpans, ringSideSpans, mirrorSigns, hvertical, rowFirst_row_zero (hle.trans hro), rowLast_row_zero hro,
    hle]

/-- The spans of row 0 come first. -/
theorem ringSpans_eq_row_zero_append (cx cy ri ro : Nat) :
    ∃ later, ringSpans cx cy ri ro = ringRowSpans cx cy ri ro 0 ++ later := by
  refine ⟨((List.range' 1 ro).takeWhile fun y => decide (rowInLoop ro y)).flatMap (ringRowSpans cx cy ri ro), ?_⟩
  rw [ringSpans, List.range_eq_range', List.range'_succ, List.takeWhile_cons,
    if_pos (decide_eq_true (rowInLoop_zero ro)), List.flatMap_cons]

/-- Settles O53: the spans are painted in order, and two spans that meet agree on the colour. -/
theorem ringPaintsExactlyItsPixels : Obligations.RingPaintsExactlyItsPixels := by
  intro cx cy ri ro s hcfg hle hleft hright hup hdown
  have hro := word_toNat_le ro
  have hring : RingOnDisplay s.cfg cx.toNat cy.toNat ro.toNat := ⟨hleft, hright, hup, hdown⟩
  obtain ⟨-, hwidth, -, -, -⟩ := hcfg
  have hrow {sp : RingSpan} (hsp : sp ∈ ringSpans cx.toNat cy.toNat ri.toNat ro.toNat) :
      ∃ y, sp ∈ ringRowSpans cx.toNat cy.toNat ri.toNat ro.toNat y :=
    ((mem_ringSpans hro).1 hsp).imp fun _ h => h.2
  have hne : ringSpans cx.toNat cy.toNat ri.toNat ro.toNat ≠ [] := by
    obtain ⟨later, e⟩ := ringSpans_eq_row_zero_append cx.toNat cy.toNat ri.toNat ro.toNat
    rw [e, ringRowSpans_zero _ _ hle hro]
    exact List.cons_ne_nil _ _
  have hdraws : Draws s.cfg _ (ringPicture s.fg s.bg cx.toNat cy.toNat ri.toNat ro.toNat) :=
    (draws_flatMap (ringSpans cx.toNat cy.toNat ri.toNat ro.toNat)
      (fun sp hsp => (hrow hsp).elim fun _ h => draws_ringSpan hwidth hro hring h s.fg s.bg)
      fun sp hsp sp' hsp' k v w hv hw => ringPicture_agree hwidth hro hring
        ((exists_ringSpanPicture_iff hro ..).1 ⟨sp, hsp, hv⟩)
        ((exists_ringSpanPicture_iff hro ..).1 ⟨sp', hsp', hw⟩)).congr
      (exists_ringSpanPicture_iff hro s.fg s.bg)
  have hexec := exec_ring cx cy ri ro s
  rw [Paint.forEach_orIdle_of_none hne ?cause ?calls] at hexec
  case cause =>
    intro sp hsp
    obtain ⟨y, h⟩ := hrow hsp
    rw [RingSpan.paint_eq_fillWith, RingSpan.fillWith_eq_of_onDisplay (ringSpan_onDisplay hro hring h)]
  case calls =>
    intro sp _
    rw [RingSpan.paint_eq_fillWith]
    exact openRegion_andThen_calls_ne_nil _ _ _ _ _ _
  obtain ⟨-, hidle⟩ := paintCommandsEndWithIdle _ s _ rfl rfl hexec
  refine ⟨_, hexec, onlyPainted_finishPaint rfl s _, State.finishPaint_trace .., hidle, fun u v hcovers => ?pixels,
    Draws.unchangedOutside_finishPaint hdraws _ ?frame⟩
  case pixels => exact Draws.pixel_finishPaint hdraws _ ⟨u, v, hcovers, rfl, rfl⟩
  case frame =>
    rintro k w ⟨u, v, hcovers, rfl, -⟩
    have hon := pixelOnDisplay_of_offset hring (hcovers.2.2.trans (rowLast_le hro _))
    unfold pixelOnDisplay at hon
    refine ⟨_, _, ?_, rfl⟩
    have hu : ((((cx.toNat : Int) + u).toNat : Nat) : Int) - cx.toNat = u := by omega
    have hv : ((((cy.toNat : Int) + v).toNat : Nat) : Int) - cy.toNat = v := by omega
    simp only [hu, hv]
    exact hcovers

/-! ### A ring off the display, and an empty ring -/

/-- If the spans of row 0 lie on the display, so does the ring with its margin. -/
theorem ringOnDisplay_of_row_zero {c : Config} {cx cy ri ro : Nat} (hle : ri ≤ ro) (hro : ro ≤ 65535)
    (hon : ∀ sp ∈ ringRowSpans cx cy ri ro 0, sp.onDisplay c) : RingOnDisplay c cx cy ro := by
  rw [ringRowSpans_zero cx cy hle hro] at hon
  simp only [List.forall_mem_cons, RingSpan.onDisplay, RingSpan.pixelAt, if_true, Bool.false_eq_true, if_false,
    pixelOnDisplay] at hon
  exact ⟨by omega, by omega, by omega, by omega⟩

/-- A list one of whose members fails a test is those before the first failure, the failure, and the rest. -/
theorem exists_takeWhile_split {α : Type} {p : α → Bool} {xs : List α} (h : ∃ x ∈ xs, p x = false) :
    ∃ y ys, xs = xs.takeWhile p ++ y :: ys ∧ p y = false := by
  induction xs with
  | nil => simp at h
  | cons x xs ih =>
    rw [List.takeWhile_cons]
    cases hx : p x with
    | false => exact ⟨x, xs, rfl, hx⟩
    | true =>
      obtain ⟨y, ys, e, hy⟩ := ih (by simpa [hx] using h)
      exact ⟨y, ys, congrArg (x :: ·) e, hy⟩

/-- Settles O54: some span of row 0 leaves the display, and the spans before the first that does are painted. -/
theorem ringOffTheDisplayFaults : Obligations.RingOffTheDisplayFaults := by
  intro cx cy ri ro s hle hoff spans
  have hro := word_toNat_le ro
  have hexists : ∃ sp ∈ spans, ¬ sp.onDisplay s.cfg := by
    by_contra hall
    obtain ⟨hleft, hright, hup, hdown⟩ := ringOnDisplay_of_row_zero hle hro fun sp hsp =>
      not_not.1 fun hsp' => hall ⟨sp, hsp, hsp'⟩
    exact hoff ⟨hleft, hright, hup, hdown⟩
  obtain ⟨first, others, hsplit, hfirst⟩ := exists_takeWhile_split (xs := spans)
    (p := fun sp : RingSpan => decide (sp.onDisplay s.cfg)) (hexists.imp fun sp h => ⟨h.1, decide_eq_false h.2⟩)
  obtain ⟨later, hspans⟩ := ringSpans_eq_row_zero_append cx.toNat cy.toNat ri.toNat ro.toNat
  have hexec := exec_ring cx cy ri ro s
  rw [hspans, show ringRowSpans cx.toNat cy.toNat ri.toNat ro.toNat 0 = _ from hsplit, List.append_assoc,
    List.cons_append, Paint.forEach_orIdle_of_raise ?before ?fault] at hexec
  case before =>
    intro sp hsp
    have hon := List.mem_takeWhile_imp (p := fun sp : RingSpan => decide (sp.onDisplay s.cfg)) hsp
    rw [RingSpan.paint_eq_fillWith, RingSpan.fillWith_eq_of_onDisplay (of_decide_eq_true hon)]
  case fault =>
    rw [RingSpan.paint_eq_fillWith, RingSpan.fillWith_of_not_onDisplay (of_decide_eq_false hfirst)]
  obtain ⟨-, hidle⟩ := paintCommandsEndWithIdle _ s _ rfl rfl hexec
  exact ⟨_, hexec, faultedWith_finishPaint rfl s _, hexists, State.finishPaint_trace .., State.finishPaint_screen ..,
    hidle⟩

/-- A larger circle is wider in every row by at least one pixel. -/
theorem ringX_lt_ringX {ro ri y : Nat} (hri : ri ≤ 65535) (hlt : ro < ri) (hy : y ≤ ro) : ringX ro y < ringX ri y := by
  have hsquare : (ringX ro y + 1) * (ringX ro y + 1) ≤ ri * ri - y * y := by
    have hX := ringX_le (show ro ≤ 65535 by omega) y
    have hroot := Nat.sqrt_le (ro * ro - y * y)
    rw [← ringX_eq_sqrt (show ro ≤ 65535 by omega)] at hroot
    have hyy : y * y ≤ ro * ro := Nat.mul_self_le_mul_self hy
    have hri : (ro + 1) * (ro + 1) ≤ ri * ri := Nat.mul_self_le_mul_self hlt
    have hX1 : (ringX ro y + 1) * (ringX ro y + 1) = ringX ro y * ringX ro y + 2 * ringX ro y + 1 := by ring
    have hro1 : (ro + 1) * (ro + 1) = ro * ro + 2 * ro + 1 := by ring
    omega
  rw [ringX_eq_sqrt hri]
  exact Nat.le_sqrt.2 hsquare

/-- A ring whose hole is larger than its disc has no span (42_ring_rasterizer.md R180). -/
theorem ringSpans_eq_nil (cx cy : Nat) {ri ro : Nat} (hri : ri ≤ 65535) (hlt : ro < ri) :
    ringSpans cx cy ri ro = [] := by
  refine List.eq_nil_iff_forall_not_mem.2 fun sp hsp => ?_
  obtain ⟨y, ⟨hy, -⟩, hrow⟩ := (mem_ringSpans (by omega)).1 hsp
  have hordered := (ringRowSpans_wf hrow).ordered
  obtain ⟨hfirst, hlast⟩ := ringRowSpans_ends hrow
  have hhole := ringX_lt_rowFirst (show y ≤ ri by omega)
  have hwider := ringX_lt_ringX hri hlt hy
  rw [rowLast] at hlast
  omega

/-- Settles O55: without a span RING makes its one `idle()`. -/
theorem ringThatPaintsNothing : Obligations.RingThatPaintsNothing := by
  intro cx cy ri ro s hlt
  refine ⟨_, exec_ring cx cy ri ro s, ?_⟩
  rw [ringSpans_eq_nil _ _ (word_toNat_le ri) hlt]
  exact finishPaint_emit_idle s 0x22

end Sys2Proof.Machine
end

section
/-! GLYPH (44_glyph_decoder.md): the faults of its header, how its token loop ends, and the pixels its tokens leave. -/

namespace Sys2Proof.Machine

theorem exec_glyph (x y addr : Word) (s : State) :
    exec (.glyph x y addr) s
      = .next (s.finishPaint 0x23 (glyphPaint s.cfg s.fg x.toNat y.toNat addr.toNat)) := rfl

/-! ### The header -/

/-- A read of two bytes that reaches the end of glyph memory fails (20_memory.md R63, R64). -/
theorem memRead16_eq_none {c : Config} {a : Nat} (h : c.gmemSize < a + 2) : memRead16 c a = none := by
  have hhigh : memRead c (a + 1) = none := List.getElem?_eq_none (Nat.le_of_lt_succ h)
  unfold memRead16
  rw [hhigh]
  cases memRead c a <;> rfl

/-- A header whose last two bytes cannot be read (44_glyph_decoder.md R220). -/
theorem glyphPaint_of_unreadable {c : Config} {addr : Nat} (h : memRead16 c (addr + 2) = none) (fg : Pixel)
    (x y : Nat) : glyphPaint c fg x y addr = Paint.raise .glyphMemRange := by
  unfold glyphPaint
  rw [h]
  cases memRead16 c addr <;> rfl

/-- A header that can be read: an empty glyph, a rectangle past the display, or the token loop in its Region
(44_glyph_decoder.md R220 to R222). -/
theorem glyphPaint_of_header {c : Config} {addr width height : Nat} (hwidth : memRead16 c addr = some width)
    (hheight : memRead16 c (addr + 2) = some height) (fg : Pixel) (x y : Nat) :
    glyphPaint c fg x y addr =
      if width = 0 ∨ height = 0 then Paint.raise .glyphHeader
      else if x + width ≤ c.dispW ∧ y + height ≤ c.dispH then
        { calls := .beginRegion x y (x + width - 1) (y + height - 1)
            :: (glyphLoop fg (c.gmem.drop (addr + 4)) (width * height)).calls,
          cause := (glyphLoop fg (c.gmem.drop (addr + 4)) (width * height)).cause }
      else Paint.raise .regionRange := by
  unfold glyphPaint
  rw [hwidth, hheight]
  by_cases hempty : width = 0 ∨ height = 0
  · simp only [if_pos hempty]
  · simp only [if_neg hempty]
    exact openRectangle_andThen c (by omega) (by omega) x y _

/-- Settles O60: the three faults of the header, each before anything is sent. -/
theorem glyphHeaderFaultsInOrder : Obligations.GlyphHeaderFaultsInOrder := by
  intro x y addr s
  refine ⟨_, exec_glyph x y addr s, fun hshort => ?unreadable, fun width height hwidth hheight =>
    ⟨fun hempty => ?empty, fun hw hh hpast => ?past⟩⟩
  case unreadable =>
    rw [glyphPaint_of_unreadable (memRead16_eq_none (show s.cfg.gmemSize < addr.toNat + 2 + 2 from hshort))]
    exact finishPaint_raise s 0x23 .glyphMemRange
  case empty =>
    rw [glyphPaint_of_header hwidth hheight, if_pos hempty]
    exact finishPaint_raise s 0x23 .glyphHeader
  case past =>
    rw [glyphPaint_of_header hwidth hheight, if_neg (by omega), if_neg (by omega)]
    exact finishPaint_raise s 0x23 .regionRange

/-! ### The end of the token loop -/

/-- How the token loop ends: too many pixels, glyph memory left without a terminator, pixels left at the terminator, or
no fault (44_glyph_decoder.md R222, R223). -/
theorem glyphLoop_cause (fg : Pixel) (bytes : List Byte) (rem : Nat) :
    (glyphLoop fg bytes rem).cause =
      if rem < glyphLength bytes then some .glyphOverrun
      else if glyphAlphas bytes = none then some .glyphMemRange
      else if glyphLength bytes < rem then some .glyphUnderrun
      else none := by
  induction bytes generalizing rem with
  | nil => simp [glyphLoop, glyphLength, glyphAlphas]
  | cons b rest ih =>
    by_cases hterm : tokenOf b = .terminator
    · rcases Nat.eq_zero_or_pos rem with rfl | hpos
      · simp [glyphLoop, glyphLength, glyphAlphas, hterm]
      · simp [glyphLoop, glyphLength, glyphAlphas, hterm, hpos, hpos.ne']
    · rw [glyphLength, if_neg hterm, glyphAlphas, if_neg hterm]
      rcases Nat.lt_or_ge rem (tokenOf b).pixels with hlong | hfits
      · rw [glyphLoop, if_neg hterm, if_pos hlong, if_pos (by omega)]
        rfl
      · have hover : rem - (tokenOf b).pixels < glyphLength rest ↔ rem < (tokenOf b).pixels + glyphLength rest := by
          omega
        have hunder : glyphLength rest < rem - (tokenOf b).pixels ↔ (tokenOf b).pixels + glyphLength rest < rem := by
          omega
        rw [glyphLoop_cons_of_fits fg rest hterm hfits, Paint.emit_andThen, ih]
        simp only [hover, hunder, Option.map_eq_none_iff]

/-- A terminated glyph stands for as many pixels as it has alphas. -/
theorem length_of_glyphAlphas {bytes : List Byte} {as : List Nat} (h : glyphAlphas bytes = some as) :
    as.length = glyphLength bytes := by
  induction bytes generalizing as with
  | nil => cases h
  | cons b rest ih =>
    rw [glyphAlphas] at h
    rw [glyphLength]
    split at h
    case isTrue hterm =>
      obtain rfl := Option.some.inj h
      rw [if_pos hterm]
      rfl
    case isFalse hterm =>
      obtain ⟨as', has', rfl⟩ := Option.map_eq_some_iff.1 h
      rw [if_neg hterm, List.length_append, List.length_replicate, ih has']

/-- If all of a terminated glyph's pixels fit, the tokens taken are all of them. -/
theorem tokenAlphas_glyphTaken {bytes : List Byte} {as : List Nat} (h : glyphAlphas bytes = some as) {rem : Nat}
    (hfits : as.length ≤ rem) : tokenAlphas (glyphTaken bytes rem) = as := by
  induction bytes generalizing as rem with
  | nil => cases h
  | cons b rest ih =>
    rw [glyphAlphas] at h
    rw [glyphTaken]
    split at h
    case isTrue hterm =>
      obtain rfl := Option.some.inj h
      rw [if_pos (.inl hterm)]
      rfl
    case isFalse hterm =>
      obtain ⟨as', has', rfl⟩ := Option.map_eq_some_iff.1 h
      rw [List.length_append, List.length_replicate] at hfits
      rw [if_neg (not_or.2 ⟨hterm, by omega⟩), ← ih has' (rem := rem - (tokenOf b).pixels) (by omega)]
      rfl

/-! ### What the tokens paint -/

/-- The meaning of a GLYPH whose rectangle fits the display (44_glyph_decoder.md R221 to R223). -/
theorem exec_glyph_of_fits {x y addr : Word} {s : State} {width height : Nat}
    (hwidth : memRead16 s.cfg addr.toNat = some width) (hheight : memRead16 s.cfg (addr.toNat + 2) = some height)
    (hw : 0 < width) (hh : 0 < height) (hx : x.toNat + width ≤ s.cfg.dispW) (hy : y.toNat + height ≤ s.cfg.dispH) :
    exec (.glyph x y addr) s = .next (s.finishPaint 0x23
      { calls := .beginRegion x.toNat y.toNat (x.toNat + width - 1) (y.toNat + height - 1)
          :: (glyphTaken (s.cfg.gmem.drop (addr.toNat + 4)) (width * height)).flatMap (Token.words s.fg) ++ [.idle],
        cause := (glyphLoop s.fg (s.cfg.gmem.drop (addr.toNat + 4)) (width * height)).cause }) := by
  rw [exec_glyph, glyphPaint_of_header hwidth hheight, if_neg (by omega), if_pos ⟨hx, hy⟩, glyphLoop_calls]
  rfl

/-- Settles O59: the tokens taken are data words of one Region, whichever way the loop ends. -/
theorem malformedTokensFault : Obligations.MalformedTokensFault := by
  intro x y addr s width height hcfg hwidth hheight hw hh hx hy tokens taken as
  obtain ⟨-, hdisplay, -, -, -⟩ := hcfg
  have hwords : dataWords (taken.flatMap (Token.words s.fg)) = as.map (mulpx s.fg) := dataWords_tokens s.fg taken
  have hlen : (dataWords (taken.flatMap (Token.words s.fg))).length = as.length := by rw [hwords, List.length_map]
  have hdraws := draws_region hdisplay hw hh hx hy (isData_tokens s.fg taken)
    (hlen.trans_le (glyphTaken_length tokens (width * height)))
  have hcause := glyphLoop_cause s.fg tokens (width * height)
  have hexec := exec_glyph_of_fits (x := x) (y := y) hwidth hheight hw hh hx hy
  obtain ⟨-, hidle⟩ := paintCommandsEndWithIdle _ s _ rfl rfl hexec
  refine ⟨_, hexec, State.finishPaint_trace .., hidle, ?words, fun i hi => ?pixels, ?frame, fun hover => ?overrun,
    fun hunder hterminated => ?underrun, fun hfits hunterminated => ?memRange⟩
  case words =>
    rw [State.finishPaint_trace, ← hwords]
    exact (dataWords_append (taken.flatMap (Token.words s.fg)) [.idle]).trans (List.append_nil _)
  case pixels =>
    refine Draws.pixel_finishPaint hdraws _ ⟨i, ?_, rfl⟩
    rw [hwords, List.getElem?_map, List.getElem?_eq_getElem hi]
    rfl
  case frame =>
    refine Draws.unchangedOutside_finishPaint hdraws _ fun k v ⟨i, hv, hk⟩ => ⟨_, _, ⟨i, ?_, rfl, rfl⟩, hk⟩
    exact hlen ▸ (List.getElem?_eq_some_iff.1 hv).1
  case overrun =>
    rw [if_pos hover] at hcause
    refine faultedWith_finishPaint ?_ s _
    exact hcause
  case underrun =>
    rw [if_neg (by omega), if_neg hterminated, if_pos hunder] at hcause
    refine faultedWith_finishPaint ?_ s _
    exact hcause
  case memRange =>
    rw [if_neg (by omega), if_pos hunterminated] at hcause
    refine faultedWith_finishPaint ?_ s _
    exact hcause

/-- Settles O58: what is painted is as for every glyph whose rectangle fits; here the tokens taken are all of them, they
fill the rectangle, and the loop ends without a fault. -/
theorem glyphPaintsItsTokens : Obligations.GlyphPaintsItsTokens := by
  intro x y addr s width height as hcfg hwidth hheight hw hh hx hy halphas hlen
  obtain ⟨t, hexec, htrace, hidle, hwords, hpixels, hframe, -, -, -⟩ :=
    malformedTokensFault x y addr s width height hcfg hwidth hheight hw hh hx hy
  have htotal := length_of_glyphAlphas halphas
  rw [tokenAlphas_glyphTaken halphas hlen.le] at hwords hframe
  simp only [tokenAlphas_glyphTaken halphas hlen.le] at hpixels
  have hcause := glyphLoop_cause s.fg (s.cfg.gmem.drop (addr.toNat + 4)) (width * height)
  rw [if_neg (by omega), if_neg (by simp [halphas]), if_neg (by omega)] at hcause
  have ht := Host.Outcome.next.inj ((exec_glyph_of_fits hwidth hheight hw hh hx hy).symm.trans hexec)
  have hpainted : OnlyPainted s t := by
    rw [← ht]
    refine onlyPainted_finishPaint ?_ s _
    exact hcause
  refine ⟨t, hexec, hpainted, hidle, htrace, hwords, hpixels, fun k hk => hframe k ?_⟩
  rintro a b ⟨i, hi, rfl, rfl⟩
  exact hk _ _ (inRectangle_cursor (hlen ▸ hi))

end Sys2Proof.Machine
end
